-- ==== Sys2Proof/Word.lean ====
section
/-! DEFINITION. The widths of the block's values (spec/00_scope.md R7) and the plainest arithmetic on them. -/

namespace Sys2Proof

/-- A command word, and a register read through the register port (R61, R80). -/
abbrev Word := BitVec 64

/-- A symbol: an integer in [0, 255] (R7 ALPHABET, R12). -/
abbrev Symbol := BitVec 8

/-- The 16-bit symbol or handle operand of a command word (R7 SYM_FIELD, R82, R83). -/
abbrev Imm16 := BitVec 16

/-- One frequency count, unsigned (R7 FREQ_WIDTH). -/
abbrev Count := BitVec 32

/-- A node weight or a heap priority, unsigned (R7 WEIGHT_WIDTH). -/
abbrev Weight := BitVec 40

/-- The opaque payload of a heap element (R7 PAYLOAD_WIDTH). -/
abbrev Payload := BitVec 15

/-- A node handle (R7 HANDLE_WIDTH). -/
abbrev Handle := BitVec 9

/-- The bits of a code, right-aligned (R7 CODE_WIDTH, R159). -/
abbrev CodeBits := BitVec 256

end Sys2Proof
end

