-- ==== Sys2Proof/Syntax.lean ====
section
/-! DEFINITION. The block's twelve commands (spec/30_encoding.md R86), one constructor for each row of
spec/opcode_table.json, with the fields of its format (R81 to R85). -/

namespace Sys2Proof

/-- A command. Every operand is an immediate field of the command word, read as unsigned (R22, R85). -/
inductive Instr where
  /-- NOP (R200). -/
  | nop
  /-- FREQ_CLEAR (R140). -/
  | freqClear
  /-- FREQ_WRITE sym, count (R141). -/
  | freqWrite (sym : Imm16) (count : Count)
  /-- FREQ_READ sym (R142). -/
  | freqRead (sym : Imm16)
  /-- BUILD (R143). -/
  | build
  /-- NODE_READ handle (R151). -/
  | nodeRead (handle : Imm16)
  /-- ENCODE sym (R181). -/
  | encode (sym : Imm16)
  /-- STAT_READ sym (R184). -/
  | statRead (sym : Imm16)
  /-- PQ_INSERT pay, prio: `present` is V, the element-present bit (R84, R107). -/
  | pqInsert (present : Bool) (pay : Payload) (prio : Weight)
  /-- PQ_REMOVE_MIN (R108). -/
  | pqRemoveMin
  /-- PQ_SIZE (R110). -/
  | pqSize
  /-- PQ_CLEAR (R111). -/
  | pqClear
  deriving DecidableEq, Repr

end Sys2Proof
end

