-- ==== Sys2Proof/WellFormed.lean ====
section
/-! DEFINITION. Which terms of `Instr` stand for a command. -/

namespace Sys2Proof

/-- Every field has its format's width by its type, so one check is left: a missing element (V = 0) has no payload.
All 2^15 PAYLOAD values of V = 0 are one command (R92), spelt with PAYLOAD = 0 (R89). -/
def Instr.wf : Instr → Bool
  | .nop => true
  | .freqClear => true
  | .freqWrite _ _ => true
  | .freqRead _ => true
  | .build => true
  | .nodeRead _ => true
  | .encode _ => true
  | .statRead _ => true
  | .pqInsert present pay _ => present || pay == 0#15
  | .pqRemoveMin => true
  | .pqSize => true
  | .pqClear => true

end Sys2Proof
end

