-- ==== Sys2Proof/Decode.lean ====
section
/-! DEFINITION. Decoding and encoding a command word (spec/30_encoding.md R80 to R92): the decoder, total on any
64-bit word and refusing an illegal word by name, and the encoder after it. -/

namespace Sys2Proof

/-- The four formats (R81 to R84). -/
inductive Format where
  | N
  | S
  | F
  | Q
  deriving DecidableEq, Repr

/-- The assigned opcodes (R86). -/
inductive Op where
  | nop
  | freqClear
  | freqWrite
  | freqRead
  | build
  | nodeRead
  | encode
  | statRead
  | pqInsert
  | pqRemoveMin
  | pqSize
  | pqClear
  deriving DecidableEq, Repr

/-- Why a word is illegal: the two causes of R87. -/
inductive Illegal where
  /-- R87 (a): bits [63:56] are unassigned. -/
  | unassignedOpcode
  /-- R87 (b): a reserved field of the opcode's format is not 0. -/
  | reservedNonzero
  deriving DecidableEq, Repr

/-- What a word decodes to. -/
inductive Decoded where
  | command (i : Instr)
  | illegal (why : Illegal)
  deriving DecidableEq, Repr

/-- The opcode map (R86): OP of each command. -/
def Op.code : Op → BitVec 8
  | .nop => 0x00#8
  | .freqClear => 0x01#8
  | .freqWrite => 0x02#8
  | .freqRead => 0x03#8
  | .build => 0x10#8
  | .nodeRead => 0x11#8
  | .encode => 0x20#8
  | .statRead => 0x21#8
  | .pqInsert => 0x30#8
  | .pqRemoveMin => 0x31#8
  | .pqSize => 0x32#8
  | .pqClear => 0x33#8

/-- The opcode map read backwards: `none` for the unassigned values of R87 (a). -/
def opOfCode (b : BitVec 8) : Option Op :=
  match b.toNat with
  | 0x00 => some .nop
  | 0x01 => some .freqClear
  | 0x02 => some .freqWrite
  | 0x03 => some .freqRead
  | 0x10 => some .build
  | 0x11 => some .nodeRead
  | 0x20 => some .encode
  | 0x21 => some .statRead
  | 0x30 => some .pqInsert
  | 0x31 => some .pqRemoveMin
  | 0x32 => some .pqSize
  | 0x33 => some .pqClear
  | _ => none

/-- The format of each opcode (R86). -/
def Op.format : Op → Format
  | .nop => .N
  | .freqClear => .N
  | .freqWrite => .F
  | .freqRead => .S
  | .build => .N
  | .nodeRead => .S
  | .encode => .S
  | .statRead => .S
  | .pqInsert => .Q
  | .pqRemoveMin => .N
  | .pqSize => .N
  | .pqClear => .N

/-- OP: bits [63:56] (R80). -/
def opField (w : Word) : BitVec 8 := w.extractLsb' 56 8

/-- IMM16: bits [55:40] (R82, R83). -/
def immField (w : Word) : Imm16 := w.extractLsb' 40 16

/-- COUNT: bits [31:0] (R83). -/
def countField (w : Word) : Count := w.extractLsb' 0 32

/-- V: bit [55] (R84). -/
def presentField (w : Word) : Bool := w.getLsbD 55

/-- PAYLOAD: bits [54:40] (R84). -/
def payloadField (w : Word) : Payload := w.extractLsb' 40 15

/-- PRIORITY: bits [39:0] (R84). -/
def priorityField (w : Word) : Weight := w.extractLsb' 0 40

/-- The reserved field of a format is 0 (R81 to R84; format Q has none). -/
def reservedZero (f : Format) (w : Word) : Bool :=
  match f with
  | .N => w.extractLsb' 0 56 == 0#56
  | .S => w.extractLsb' 0 40 == 0#40
  | .F => w.extractLsb' 32 8 == 0#8
  | .Q => true

/-- The command of an opcode with the fields of its format (R85, R92). With V = 0 the PAYLOAD bits are ignored
(R84, U12). -/
def instrOf (o : Op) (w : Word) : Instr :=
  match o with
  | .nop => .nop
  | .freqClear => .freqClear
  | .freqWrite => .freqWrite (immField w) (countField w)
  | .freqRead => .freqRead (immField w)
  | .build => .build
  | .nodeRead => .nodeRead (immField w)
  | .encode => .encode (immField w)
  | .statRead => .statRead (immField w)
  | .pqInsert => .pqInsert (presentField w) (if presentField w then payloadField w else 0#15) (priorityField w)
  | .pqRemoveMin => .pqRemoveMin
  | .pqSize => .pqSize
  | .pqClear => .pqClear

/-- The decoding procedure, total on any 64-bit word (R92). -/
def decode (w : Word) : Decoded :=
  match opOfCode (opField w) with
  | none => .illegal .unassignedOpcode
  | some o => if reservedZero o.format w then .command (instrOf o w) else .illegal .reservedNonzero

/-- A word of format N (R81). -/
def packN (o : Op) : Word := o.code ++ 0#56

/-- A word of format S (R82). -/
def packS (o : Op) (imm : Imm16) : Word := o.code ++ imm ++ 0#40

/-- A word of format F (R83). -/
def packF (o : Op) (imm : Imm16) (count : Count) : Word := o.code ++ imm ++ 0#8 ++ count

/-- A word of format Q (R84). -/
def packQ (o : Op) (present : Bool) (pay : Payload) (prio : Weight) : Word :=
  o.code ++ BitVec.ofBool present ++ pay ++ prio

/-- The word of a command (R81 to R86, R89). -/
def encode : Instr → Word
  | .nop => packN .nop
  | .freqClear => packN .freqClear
  | .freqWrite sym count => packF .freqWrite sym count
  | .freqRead sym => packS .freqRead sym
  | .build => packN .build
  | .nodeRead handle => packS .nodeRead handle
  | .encode sym => packS .encode sym
  | .statRead sym => packS .statRead sym
  | .pqInsert present pay prio => packQ .pqInsert present pay prio
  | .pqRemoveMin => packN .pqRemoveMin
  | .pqSize => packN .pqSize
  | .pqClear => packN .pqClear

/-- The opcode of a command (R86). -/
def Instr.op : Instr → Op
  | .nop => .nop
  | .freqClear => .freqClear
  | .freqWrite _ _ => .freqWrite
  | .freqRead _ => .freqRead
  | .build => .build
  | .nodeRead _ => .nodeRead
  | .encode _ => .encode
  | .statRead _ => .statRead
  | .pqInsert _ _ _ => .pqInsert
  | .pqRemoveMin => .pqRemoveMin
  | .pqSize => .pqSize
  | .pqClear => .pqClear

/-- A row's "mask" in spec/opcode_table.json: the bits that its word fixes. -/
def Op.mask : Op → Word
  | .nop => 0xFFFFFFFFFFFFFFFF#64
  | .freqClear => 0xFFFFFFFFFFFFFFFF#64
  | .freqWrite => 0xFF0000FF00000000#64
  | .freqRead => 0xFF0000FFFFFFFFFF#64
  | .build => 0xFFFFFFFFFFFFFFFF#64
  | .nodeRead => 0xFF0000FFFFFFFFFF#64
  | .encode => 0xFF0000FFFFFFFFFF#64
  | .statRead => 0xFF0000FFFFFFFFFF#64
  | .pqInsert => 0xFF00000000000000#64
  | .pqRemoveMin => 0xFFFFFFFFFFFFFFFF#64
  | .pqSize => 0xFFFFFFFFFFFFFFFF#64
  | .pqClear => 0xFFFFFFFFFFFFFFFF#64

/-- A row's "match" in spec/opcode_table.json: the values of those bits. -/
def Op.pattern : Op → Word
  | .nop => 0x0000000000000000#64
  | .freqClear => 0x0100000000000000#64
  | .freqWrite => 0x0200000000000000#64
  | .freqRead => 0x0300000000000000#64
  | .build => 0x1000000000000000#64
  | .nodeRead => 0x1100000000000000#64
  | .encode => 0x2000000000000000#64
  | .statRead => 0x2100000000000000#64
  | .pqInsert => 0x3000000000000000#64
  | .pqRemoveMin => 0x3100000000000000#64
  | .pqSize => 0x3200000000000000#64
  | .pqClear => 0x3300000000000000#64

/-- The command word whose table bits are `w`: the `nbits` bits of the row, every bit above them 0. -/
def tableWord (nbits w : Nat) : Word := BitVec.ofNat 64 (w % 2 ^ nbits)

/-- The instruction the decoder reads from the bits of a row of spec/opcode_table.json. -/
def decodeTableWord (nbits w : Nat) : Option Instr :=
  match decode (tableWord nbits w) with
  | .command i => some i
  | .illegal _ => none

/-- D25: the bus adapter's byte order, byte k of a word is bits [8k+7:8k] (R65). The adapter is outside the block. -/
def wordBytes (w : Word) : List (BitVec 8) := (List.range 8).map fun k => w.extractLsb' (8 * k) 8

/-- The word that eight bytes make, first byte lowest (D25); `none` for any other number of bytes: a command is one
whole word, and a partial one does not exist (R65). -/
def wordOfBytes : List (BitVec 8) → Option Word
  | [b0, b1, b2, b3, b4, b5, b6, b7] => some (b7 ++ b6 ++ b5 ++ b4 ++ b3 ++ b2 ++ b1 ++ b0)
  | _ => none

end Sys2Proof
end

