-- ==== Sys2Proof/Config.lean ====
section
/-! DEFINITION. What an implementation of the block fixes: the parameters of spec/00_scope.md R7, the two OPEN
ones as data, and the free value of a register read made during a command. -/

namespace Sys2Proof

/-- The two OPEN parameters (R7, U18), each a power of two and so given by its exponent. They are data in `State`,
which no step changes: a claim about every state is a claim about every choice of them (assumption 1). -/
structure Params where
  /-- HEAP_MAX = 2 ^ heapMaxLog. -/
  heapMaxLog : Fin 16
  /-- HEAP_INIT_CAP = 2 ^ initCapLog. -/
  initCapLog : Fin 16
  deriving DecidableEq, Repr

/-- HEAP_MAX: physical heap slots (R7). -/
def Params.heapMax (p : Params) : Nat := 2 ^ p.heapMaxLog.val

/-- HEAP_INIT_CAP: the capacity of a fresh queue (R7). -/
def Params.initCap (p : Params) : Nat := 2 ^ p.initCapLog.val

/-- R7's constraints: 256 <= HEAP_MAX <= 32768 and 1 <= HEAP_INIT_CAP <= HEAP_MAX (the type gives the rest). -/
def Params.wf (p : Params) : Bool :=
  decide (8 ≤ p.heapMaxLog.val) && decide (p.initCapLog.val ≤ p.heapMaxLog.val)

/-- R7's values, used by every example of the spec: HEAP_MAX = 256, HEAP_INIT_CAP = 16. -/
def Params.standard : Params := { heapMaxLog := 8, initCapLog := 4 }

/-- ALPHABET (R7). -/
abbrev alphabet : Nat := 256

/-- NODE_MAX (R7). -/
abbrev nodeMax : Nat := 511

/-- What RD_DATA shows in the `n`-th register read if a command is in execution then: any value (R63, D36, U8).
No body: nothing can be proved of it (assumption 7). -/
opaque Config.busyRead : Nat → Word

end Sys2Proof
end

