-- ==== Sys2Proof/Machine/State.lean ====
section
/-! DEFINITION. The state of the block (spec/10_state.md R20 to R45), the world outside its ports as data, and the
state after reset (R44). -/

namespace Sys2Proof.Machine

open Sys2Proof

/-- One heap element: {PRIO, PAY} (R39). -/
structure HeapEntry where
  prio : Weight
  pay : Payload
  deriving DecidableEq, Repr

/-- One node-store entry (R37): the source's tagged variant. KIND is the constructor; a Leaf's LEFT and RIGHT and an
Internal's SYM are 0 and take no storage (assumption 10). -/
inductive NodeEntry where
  | leaf (weight : Weight) (sym : Symbol)
  | internal (weight : Weight) (left right : Handle)
  deriving DecidableEq, Repr

/-- One code-table entry: {PRESENT, LEN, BITS} (R40). -/
structure CtEntry where
  present : Bool
  len : BitVec 9
  bits : CodeBits
  deriving DecidableEq, Repr

/-- The heap with its two STATUS fields: HEAP[0..HEAP_MAX-1] (R39), HSIZE (R31), HCAP (R32). Its live elements are the
first HSIZE slots; the slots above are stale. -/
structure Queue where
  slots : List HeapEntry
  hsize : BitVec 16
  hcap : BitVec 16
  deriving DecidableEq, Repr

/-- The error codes (R210). 7 to 15 are reserved and never written (U17). -/
inductive ErrorKind where
  | ok
  | stateError
  | invalidArgument
  | unknownSymbol
  | alphabetViolation
  | illegalCommand
  | capacityExhausted
  deriving DecidableEq, Repr

/-- How far the output sink accepts offered bits before it withholds OUT_READY (R66, R245; assumption 5). -/
inductive Sink where
  | always
  | upTo (n : Nat)
  deriving DecidableEq, Repr

/-- What the host does at the block's ports (R61; assumption 4). -/
inductive HostAct where
  /-- Offer a command word: CMD_VALID = 1, CMD_DATA = `w`, held until it is accepted (R64). -/
  | offer (w : Word)
  /-- Read the register port: RD_ADDR = `index` (R62). -/
  | read (index : BitVec 8)
  /-- The sink from now on (OUT_READY, R66). -/
  | sink (k : Sink)
  /-- RST at a rising edge (R240). -/
  | rst (level : Bool)
  deriving DecidableEq, Repr

/-- The state of the block, and of what stands at its ports. -/
structure State where
  /-- The OPEN parameters of this part (R7); no step changes them. -/
  params : Params
  /-- STATUS.BUSY (R24). -/
  busy : Bool
  /-- STATUS.FTV: a frequency table exists (R25). -/
  ftv : Bool
  /-- STATUS.AV: an alphabet violation is pending (R26). -/
  av : Bool
  /-- STATUS.BUILT: the tree and the code table exist (R27). -/
  built : Bool
  /-- STATUS.ERR (R30). -/
  err : BitVec 4
  /-- HEAP, STATUS.HSIZE, STATUS.HCAP (R39, R31, R32). -/
  queue : Queue
  /-- RESULT (R33). -/
  result : Word
  /-- CODE (R34). -/
  code : CodeBits
  /-- TREE.ROOT (R35). -/
  root : Handle
  /-- TREE.ROOT_NONE (R35). -/
  rootNone : Bool
  /-- TREE.NLEAF (R35). -/
  nleaf : BitVec 9
  /-- TREE.NNODE (R35). -/
  nnode : BitVec 10
  /-- FREQ (R36). -/
  freq : Vector Count 256
  /-- NODE (R37). -/
  node : Vector NodeEntry 511
  /-- CT (R40). -/
  ct : Vector CtEntry 256
  /-- The bits of an ENCODE in execution that the sink has not accepted: the head is offered (OUT_VALID, OUT_BIT; R66). -/
  pending : List Bool
  /-- OUT: every bit the sink has accepted since power-on (R41). -/
  out : List Bool
  /-- The level of RST (R240). -/
  rst : Bool
  /-- The model's own: what the sink will accept (assumption 5). -/
  sink : Sink
  /-- The model's own: what the host does next, oldest first (assumption 4). -/
  host : List HostAct
  /-- The model's own: RD_DATA of every register read so far (assumption 16). -/
  reads : List Word
  deriving DecidableEq, Repr

/-- The block raises no fault: nothing traps, halts or stops it (R220), and a command that cannot complete leaves it
BUSY in a state of its own (R245, assumption 6). So there is no constructor, which is safe: no claim can rest on one. -/
inductive Fault where
  deriving DecidableEq, Repr

/-- Why a command has no meaning in the model. -/
inductive Refusal where
  /-- Raised by `exec`'s arm of a command without a meaning; no arm raises it now. Safe: the machine stops. -/
  | notModelled (mnemonic : String)
  deriving DecidableEq, Repr

/-- An unspecified heap slot (R44: unspecified, unobservable; assumption 2). -/
def HeapEntry.zero : HeapEntry := { prio := 0#40, pay := 0#15 }

/-- An unspecified node entry (R44: unspecified, unobservable; assumption 2). -/
def NodeEntry.zero : NodeEntry := .leaf 0#40 0#8

/-- The absent code-table entry {0, 0, 0} (R40, R152). -/
def CtEntry.absent : CtEntry := { present := false, len := 0#9, bits := 0#256 }

/-- The state right after reset (R44) of a part with the given parameters, with nothing yet at its ports. -/
def State.resetOf (p : Params) : State where
  params := p
  busy := false
  ftv := false
  av := false
  built := false
  err := 0#4
  queue :=
    { slots := List.replicate p.heapMax HeapEntry.zero, hsize := 0#16, hcap := BitVec.ofNat 16 p.initCap }
  result := 0#64
  code := 0#256
  root := 0#9
  rootNone := true
  nleaf := 0#9
  nnode := 0#10
  freq := Vector.replicate 256 0#32
  node := Vector.replicate 511 NodeEntry.zero
  ct := Vector.replicate 256 CtEntry.absent
  pending := []
  out := []
  rst := false
  sink := .always
  host := []
  reads := []

/-- The machine right after reset (R44), with the parameters' values of R7. -/
def State.reset : State := State.resetOf Params.standard

end Sys2Proof.Machine
end

