-- ==== Sys2Proof/Machine/Ops.lean ====
section
/-! DEFINITION. The named operations over the block's registers and tables: completing a command, raising an error
(the block's whole exception mechanism, spec/60_exceptions.md R214, R220, R221), table access, and the output port. -/

namespace Sys2Proof.Machine

open Sys2Proof

/-- The numbers of the error codes (R210). -/
def errorCode : ErrorKind → BitVec 4
  | .ok => 0#4
  | .stateError => 1#4
  | .invalidArgument => 2#4
  | .unknownSymbol => 3#4
  | .alphabetViolation => 4#4
  | .illegalCommand => 5#4
  | .capacityExhausted => 6#4

/-- `done`: the command ends with ERR <- OK (R10, R218). -/
def State.done (s : State) : State := { s with err := errorCode .ok }

/-- `raise E`: ERR <- code(E) and the command ends; nothing else changes (R10, R214). This is all that an exception
is here: no control transfer, no saved register, no mode, no vector (R220), and so no return from one (R221). -/
def State.raise (e : ErrorKind) (s : State) : State := { s with err := errorCode e }

/-- RESULT <- v (R33). -/
def State.setResult (v : Word) (s : State) : State := { s with result := v }

/-- CODE <- v (R34). -/
def State.setCode (v : CodeBits) (s : State) : State := { s with code := v }

/-- FREQ[y] (R36). -/
def State.freqAt (s : State) (y : Symbol) : Count := s.freq[y.toNat]'y.isLt

/-- FREQ[y] <- c (R36). -/
def State.setFreq (y : Symbol) (c : Count) (s : State) : State := { s with freq := s.freq.set y.toNat c y.isLt }

/-- CT[y] (R40). -/
def State.ctAt (s : State) (y : Symbol) : CtEntry := s.ct[y.toNat]'y.isLt

/-- NODE[h] (R37). NODE has no entry 511: what stands for it is never used (U3, assumption 24). -/
def nodeAt (node : Vector NodeEntry 511) (h : Nat) : NodeEntry := node.getD h NodeEntry.zero

/-- NODE[h] <- e (R37). -/
def setNode (node : Vector NodeEntry 511) (h : Nat) (e : NodeEntry) : Vector NodeEntry 511 := node.setIfInBounds h e

/-- FTV <- 1 (R25). -/
def State.markTable (s : State) : State := { s with ftv := true }

/-- AV <- 1 (R26). -/
def State.markViolation (s : State) : State := { s with av := true }

/-- A new, all-zero frequency table; the tree and the code table of the old one are discarded (R140). -/
def State.clearTable (s : State) : State :=
  { s with
    freq := Vector.replicate 256 0#32
    ftv := true
    av := false
    built := false
    root := 0#9
    rootNone := true
    nleaf := 0#9
    nnode := 0#10 }

/-- HEAP, HSIZE, HCAP <- q. -/
def State.setQueue (q : Queue) (s : State) : State := { s with queue := q }

/-- How many of `m` bits offered one after the other the sink accepts (R66). -/
def Sink.accepts : Sink → Nat → Nat
  | .always, m => m
  | .upTo n, m => min n m

/-- The sink after it has accepted `m` bits. -/
def Sink.after : Sink → Nat → Sink
  | .always, _ => .always
  | .upTo n, m => .upTo (n - m)

/-- `emit` each bit in order (R10, R66): the bits the sink accepts go to OUT. When it accepts them all, the command
completes (`done`, R181); when it does not, the next bit stays offered and the command stays BUSY (R66, R245). -/
def State.emit (bits : List Bool) (s : State) : State :=
  let n := s.sink.accepts bits.length
  { s with
    out := s.out ++ bits.take n
    sink := s.sink.after n
    pending := bits.drop n
    busy := decide (n < bits.length)
    err := if n < bits.length then s.err else errorCode .ok }

end Sys2Proof.Machine
end

