-- ==== Sys2Proof/Machine/Flags.lean ====
section
/-! DEFINITION. The registers as words: STATUS with its flags (spec/10_state.md R23), TREE (R35), the layouts of
RESULT (spec/30_encoding.md R91), and the register port's map (spec/20_memory.md R62). Reserved bits read as 0. -/

namespace Sys2Proof.Machine

open Sys2Proof

/-- STATUS (R23): [47:32] HCAP, [31:16] HSIZE, [11:8] ERR, [3] BUILT, [2] AV, [1] FTV, [0] BUSY. -/
def State.statusWord (s : State) : Word :=
  0#16 ++ s.queue.hcap ++ s.queue.hsize ++ 0#4 ++ s.err ++ 0#4 ++ BitVec.ofBool s.built ++ BitVec.ofBool s.av ++
    BitVec.ofBool s.ftv ++ BitVec.ofBool s.busy

/-- TREE (R35): [41:32] NNODE, [24:16] NLEAF, [15] ROOT_NONE, [8:0] ROOT. -/
def State.treeWord (s : State) : Word :=
  0#22 ++ s.nnode ++ 0#7 ++ s.nleaf ++ BitVec.ofBool s.rootNone ++ 0#6 ++ s.root

/-- CODE[64k+63:64k] (R34). -/
def State.codeWord (s : State) (k : Nat) : Word := s.code.extractLsb' (64 * k) 64

/-- The register port map (R62): 7..255 read 0 (U16). -/
def State.portRegister (s : State) (index : BitVec 8) : Word :=
  match index.toNat with
  | 0 => s.statusWord
  | 1 => s.result
  | 2 => s.codeWord 0
  | 3 => s.codeWord 1
  | 4 => s.codeWord 2
  | 5 => s.codeWord 3
  | 6 => s.treeWord
  | _ => 0#64

/-- RESULT of FREQ_READ (R91, R142). -/
def resultOfFreq (c : Count) : Word := 0#32 ++ c

/-- RESULT of NODE_READ (R91, R151): [63] KIND, [57:49] RIGHT, [48:40] LEFT or SYM, [39:0] WEIGHT. -/
def resultOfNode : NodeEntry → Word
  | .leaf weight sym => 0#1 ++ 0#5 ++ 0#9 ++ (0#1 ++ sym) ++ weight
  | .internal weight left right => 1#1 ++ 0#5 ++ right ++ left ++ weight

/-- RESULT of STAT_READ (R91, R184): [63] PRESENT, [40:32] LEN, [31:0] FREQ. -/
def resultOfStat (e : CtEntry) (c : Count) : Word := BitVec.ofBool e.present ++ 0#22 ++ e.len ++ c

/-- RESULT of PQ_REMOVE_MIN on a non-empty queue (R91, R108): [63] 0, [54:40] PAY, [39:0] PRIO. -/
def resultOfElement (e : HeapEntry) : Word := 0#1 ++ 0#8 ++ e.pay ++ e.prio

/-- The "empty" signal of PQ_REMOVE_MIN: RESULT[63] = 1, every other bit 0 (R109). -/
def resultOfEmpty : Word := 1#64 <<< 63

/-- RESULT of PQ_SIZE (R91, R110). -/
def resultOfSize (n : BitVec 16) : Word := n.setWidth 64

end Sys2Proof.Machine
end

