-- ==== Sys2Proof/Machine/Heap.lean ====
section
/-! DEFINITION. The sub-block priority_queue_heap's internal operations (spec/40_priority_queue_heap.md R100 to R106),
which the host's PQ commands and the tree builder share. Each loop of the rules runs on fuel that is enough for every
heap (assumption 13). -/

namespace Sys2Proof.Machine

open Sys2Proof

/-- HEAP[i] (R39). -/
def slotAt (h : List HeapEntry) (i : Nat) : HeapEntry := h.getD i HeapEntry.zero

/-- `swap HEAP[i], HEAP[j]`: both fields (R104). -/
def swapSlots (h : List HeapEntry) (i j : Nat) : List HeapEntry := (h.set i (slotAt h j)).set j (slotAt h i)

/-- The parent of index i >= 1 (R100). -/
def parentOf (i : Nat) : Nat := (i - 1) / 2

/-- `sift_up(i)` (R104): an element equal in priority to its parent does not move past it. -/
def siftUp : Nat → List HeapEntry → Nat → List HeapEntry
  | 0, h, _ => h
  | fuel + 1, h, i =>
    if 0 < i ∧ (slotAt h i).prio < (slotAt h (parentOf i)).prio then
      siftUp fuel (swapSlots h i (parentOf i)) (parentOf i)
    else h

/-- The smaller child of i in a heap of n elements whose left child exists: the right one only when it exists and is
strictly less (R105, D6). -/
def smallerChild (h : List HeapEntry) (n i : Nat) : Nat :=
  if 2 * i + 2 < n ∧ (slotAt h (2 * i + 2)).prio < (slotAt h (2 * i + 1)).prio then 2 * i + 2 else 2 * i + 1

/-- `sift_down(i)` in a heap of n elements (R105). -/
def siftDown : Nat → List HeapEntry → Nat → Nat → List HeapEntry
  | 0, h, _, _ => h
  | fuel + 1, h, n, i =>
    if 2 * i + 1 < n ∧ (slotAt h (smallerChild h n i)).prio < (slotAt h i).prio then
      siftDown fuel (swapSlots h i (smallerChild h n i)) n (smallerChild h n i)
    else h

/-- A fresh queue: HSIZE <- 0, HCAP <- HEAP_INIT_CAP (R111, R143). The slots stay, stale. -/
def Queue.fresh (p : Params) (q : Queue) : Queue := { q with hsize := 0#16, hcap := BitVec.ofNat 16 p.initCap }

/-- The append and `sift_up` of `pq_insert` (R103). -/
def Queue.append (q : Queue) (e : HeapEntry) : Queue :=
  { q with
    slots := siftUp q.hsize.toNat (q.slots.set q.hsize.toNat e) q.hsize.toNat
    hsize := q.hsize + 1#16 }

/-- `pq_insert(pay, prio)` (R102, R103); `none` is CAPACITY_EXHAUSTED, with nothing changed. -/
def Queue.insert (p : Params) (q : Queue) (e : HeapEntry) : Option Queue :=
  if q.hsize = q.hcap then
    if q.hcap.toNat = p.heapMax then none
    else some (Queue.append { q with hcap := q.hcap + q.hcap } e)
  else some (q.append e)

/-- `pq_remove_min()` (R106); `none` is EMPTY, with nothing changed. -/
def Queue.removeMin (q : Queue) : Option (HeapEntry × Queue) :=
  if q.hsize = 0#16 then none
  else
    let last := q.hsize.toNat - 1
    let h := swapSlots q.slots 0 last
    some (slotAt h last, { q with slots := siftDown last h last 0, hsize := q.hsize - 1#16 })

end Sys2Proof.Machine
end

