-- ==== Sys2Proof/Machine/Operands.lean ====
section
/-! DEFINITION. The operand forms (spec/30_encoding.md R85): a symbol, a node handle, a count as a weight, a handle
as a payload and back. Every operand is unsigned, with no sign extension, scaling or shift. -/

namespace Sys2Proof.Machine

open Sys2Proof

/-- `sym = IMM16`: 0..255 names a symbol, 256..65535 is out of the alphabet (R85). -/
def symbolOf (imm : Imm16) : Option Symbol := if imm.toNat < alphabet then some (imm.setWidth 8) else none

/-- `handle = IMM16`: it names a node when it is below NNODE; 511..65535 are always out of range (R151, assumption 11). -/
def handleOf (s : State) (imm : Imm16) : Option Nat :=
  if imm.toNat < s.nnode.toNat && imm.toNat < nodeMax then some imm.toNat else none

/-- `count = zext_40(COUNT)` when it becomes a weight (R85, R144). -/
def weightOfCount (c : Count) : Weight := c.setWidth 40

/-- PAY = zext_15(node handle) (R114, R144, R145). -/
def payOfHandle (k : Nat) : Payload := BitVec.ofNat 15 k

/-- PAY[8:0]: the handle a payload holds (R145, R146). -/
def handleOfPay (p : Payload) : Handle := p.extractLsb' 0 9

end Sys2Proof.Machine
end

