-- ==== Sys2Proof/Machine/Builder.lean ====
section
/-! DEFINITION. The tree builder, the code-table generator and NODE_READ (spec/41_huffman_tree_builder.md R143 to
R155). The loops run on fuel that is enough for every table (assumption 13). -/

namespace Sys2Proof.Machine

open Sys2Proof

/-- What BUILD works on in phases 1 to 3: the shared heap, the node store, and `k`, the next free handle. -/
structure Builder where
  queue : Queue
  node : Vector NodeEntry 511
  k : Nat
  deriving DecidableEq, Repr

/-- The symbols in ascending order: `for s in 0..255` (R10, R144, D7). -/
def allSymbols : List Symbol := (List.range alphabet).map (BitVec.ofNat 8)

/-- NODE[k] <- e; pq_insert(zext_15(k), weight); k <- k + 1 (R144, R145). No insert of the builder finds a full heap
(R102, R217); the rules ignore the insert's answer, and so does this (assumption 12). -/
def Builder.add (p : Params) (b : Builder) (weight : Weight) (e : NodeEntry) : Builder where
  queue := (b.queue.insert p { prio := weight, pay := payOfHandle b.k }).getD b.queue
  node := setNode b.node b.k e
  k := b.k + 1

/-- One turn of `build_leaves` (R144). -/
def Builder.addLeaf (p : Params) (freq : Vector Count 256) (b : Builder) (y : Symbol) : Builder :=
  let c := freq[y.toNat]'y.isLt
  if c = 0#32 then b else b.add p (weightOfCount c) (.leaf (weightOfCount c) y)

/-- Phase 1, `build_leaves()` (R144). -/
def buildLeaves (p : Params) (freq : Vector Count 256) (b : Builder) : Builder := allSymbols.foldl (Builder.addLeaf p freq) b

/-- One turn of `build_merge` (R145): `a` strictly first. -/
def Builder.merge (p : Params) (b : Builder) : Builder :=
  match b.queue.removeMin with
  | none => b
  | some (x, q1) =>
    match q1.removeMin with
    | none => { b with queue := q1 }
    | some (y, q2) =>
      { b with queue := q2 }.add p (x.prio + y.prio)
        (.internal (x.prio + y.prio) (handleOfPay x.pay) (handleOfPay y.pay))

/-- Phase 2, `build_merge(k)` (R145): while HSIZE > 1. Each turn takes one element off, so HSIZE turns are enough. -/
def buildMerge (p : Params) : Nat → Builder → Builder
  | 0, b => b
  | fuel + 1, b => if 1 < b.queue.hsize.toNat then buildMerge p fuel (b.merge p) else b

/-- The tree register's fields (R35). -/
structure TreeFields where
  root : Handle
  rootNone : Bool
  nleaf : BitVec 9
  nnode : BitVec 10
  deriving DecidableEq, Repr

/-- Phase 3, `build_finish(k)` (R146), after `nleaf` leaves: the queue it leaves and the fields of TREE. -/
def buildFinish (nleaf : Nat) (b : Builder) : Queue × TreeFields :=
  if nleaf = 0 then (b.queue, { root := 0#9, rootNone := true, nleaf := 0#9, nnode := 0#10 })
  else
    match b.queue.removeMin with
    | none => (b.queue, { root := 0#9, rootNone := true, nleaf := BitVec.ofNat 9 nleaf, nnode := 0#10 })
    | some (r, q) =>
      (q, { root := handleOfPay r.pay, rootNone := false, nleaf := BitVec.ofNat 9 nleaf, nnode := BitVec.ofNat 10 b.k })

/-- CT[y] <- e (R40). -/
def setCt (ct : Vector CtEntry 256) (y : Symbol) (e : CtEntry) : Vector CtEntry 256 := ct.set y.toNat e y.isLt

/-- `walk(h, path, len)` (R152): pre-order, left child first, `(path << 1) | b` appends bit b. A child's handle is
smaller than its parent's (R147), so NODE_MAX levels of fuel are enough. -/
def walk (node : Vector NodeEntry 511) : Nat → Handle → CodeBits → BitVec 9 → Vector CtEntry 256 → Vector CtEntry 256
  | 0, _, _, _, ct => ct
  | fuel + 1, h, path, len, ct =>
    match nodeAt node h.toNat with
    | .leaf _ y => setCt ct y { present := true, len := len, bits := path }
    | .internal _ left right =>
      walk node fuel right (path <<< 1 ||| 1#256) (len + 1#9)
        (walk node fuel left (path <<< 1 ||| 0#256) (len + 1#9) ct)

/-- The symbol of the leaf at h (R154: `NODE[ROOT].SYM`; 0 for an Internal entry, R37). -/
def symAt (node : Vector NodeEntry 511) (h : Handle) : Symbol :=
  match nodeAt node h.toNat with
  | .leaf _ y => y
  | .internal _ _ _ => 0#8

/-- `gen_codes()` (R152): the one-symbol case is resolved before the walk (R154). -/
def genCodes (node : Vector NodeEntry 511) (root : Handle) (nleaf : Nat) : Vector CtEntry 256 :=
  let empty := Vector.replicate 256 CtEntry.absent
  if nleaf = 0 then empty
  else if nleaf = 1 then setCt empty (symAt node root) { present := true, len := 1#9, bits := 0#256 }
  else walk node nodeMax root 0#256 0#9 empty

/-- Phases 1 to 3 and the code generator on a fresh queue, once BUILD's checks have passed (R143). -/
def State.buildTables (s : State) : State :=
  let leaves := buildLeaves s.params s.freq { queue := s.queue.fresh s.params, node := s.node, k := 0 }
  let merged := buildMerge s.params leaves.queue.hsize.toNat leaves
  let finished := buildFinish leaves.k merged
  { s with
    queue := finished.1
    node := merged.node
    root := finished.2.root
    rootNone := finished.2.rootNone
    nleaf := finished.2.nleaf
    nnode := finished.2.nnode
    ct := genCodes merged.node finished.2.root leaves.k
    built := true }

/-- BUILD (R143): the checks run in the order written (R219); with BUILT = 1 it is a successful no-op (R150). -/
def execBuild (s : State) : Host.Outcome State Fault Refusal :=
  .next <|
    if !s.ftv then s.raise .invalidArgument
    else if s.built then s.done
    else if s.av then s.raise .alphabetViolation
    else s.buildTables.done

/-- NODE_READ (R151). -/
def execNodeRead (handle : Imm16) (s : State) : Host.Outcome State Fault Refusal :=
  .next <|
    if !s.built then s.raise .stateError
    else
      match handleOf s handle with
      | none => s.raise .invalidArgument
      | some h => (s.setResult (resultOfNode (nodeAt s.node h))).done

end Sys2Proof.Machine
end

