-- ==== Sys2Proof/Machine/Encoder.lean ====
section
/-! DEFINITION. The huffman_encoder commands (spec/42_huffman_encoder.md R180 to R184). -/

namespace Sys2Proof.Machine

open Sys2Proof

/-- The bits of a code in emission order, c_0 first: BITS[L-1-i] for i in 0..L-1 (R159, R181). -/
def codeBits (e : CtEntry) : List Bool := (List.range e.len.toNat).map fun i => e.bits.getLsbD (e.len.toNat - 1 - i)

/-- ENCODE (R181). -/
def execEncode (sym : Imm16) (s : State) : Host.Outcome State Fault Refusal :=
  .next <|
    if !s.built then s.raise .stateError
    else
      match symbolOf sym with
      | none => s.raise .unknownSymbol
      | some y => if (s.ctAt y).present then s.emit (codeBits (s.ctAt y)) else s.raise .unknownSymbol

/-- STAT_READ (R184): a symbol in range with no code is no error. -/
def execStatRead (sym : Imm16) (s : State) : Host.Outcome State Fault Refusal :=
  .next <|
    if !s.built then s.raise .stateError
    else
      match symbolOf sym with
      | none => s.raise .unknownSymbol
      | some y => ((s.setResult (resultOfStat (s.ctAt y) (s.freqAt y))).setCode (s.ctAt y).bits).done

end Sys2Proof.Machine
end

