-- ==== Sys2Proof/Machine/General.lean ====
section
/-! DEFINITION. The general commands (spec/43_general.md): NOP, and what an illegal word does. -/

namespace Sys2Proof.Machine

open Sys2Proof

/-- NOP (R200). -/
def execNop (s : State) : Host.Outcome State Fault Refusal := .next s.done

/-- An illegal word, in every state (R201, R216). -/
def execIllegal (s : State) : Host.Outcome State Fault Refusal := .next (s.raise .illegalCommand)

end Sys2Proof.Machine
end

