-- ==== Sys2Proof/Machine/Queue.lean ====
section
/-! DEFINITION. The priority_queue_heap commands (spec/40_priority_queue_heap.md R107 to R111). -/

namespace Sys2Proof.Machine

open Sys2Proof

/-- PQ_INSERT (R107): V = 0 is reported before a full heap (R219). -/
def execPqInsert (present : Bool) (pay : Payload) (prio : Weight) (s : State) : Host.Outcome State Fault Refusal :=
  .next <|
    if present then
      match s.queue.insert s.params { prio := prio, pay := pay } with
      | some q => (s.setQueue q).done
      | none => s.raise .capacityExhausted
    else s.raise .invalidArgument

/-- PQ_REMOVE_MIN (R108, R109): an empty queue is no error. -/
def execPqRemoveMin (s : State) : Host.Outcome State Fault Refusal :=
  .next <|
    match s.queue.removeMin with
    | some (e, q) => ((s.setQueue q).setResult (resultOfElement e)).done
    | none => (s.setResult resultOfEmpty).done

/-- PQ_SIZE (R110). -/
def execPqSize (s : State) : Host.Outcome State Fault Refusal :=
  .next (s.setResult (resultOfSize s.queue.hsize)).done

/-- PQ_CLEAR (R111). -/
def execPqClear (s : State) : Host.Outcome State Fault Refusal :=
  .next (s.setQueue (s.queue.fresh s.params)).done

end Sys2Proof.Machine
end

