-- ==== Sys2Proof/Machine/Table.lean ====
section
/-! DEFINITION. The frequency table commands (spec/41_huffman_tree_builder.md R140 to R142). -/

namespace Sys2Proof.Machine

open Sys2Proof

/-- FREQ_CLEAR (R140). -/
def execFreqClear (s : State) : Host.Outcome State Fault Refusal := .next s.clearTable.done

/-- FREQ_WRITE (R141): overwrite, not add; a symbol of 256 or more stores nothing and sets AV. -/
def execFreqWrite (sym : Imm16) (count : Count) (s : State) : Host.Outcome State Fault Refusal :=
  .next <|
    if s.built then s.raise .stateError
    else
      match symbolOf sym with
      | none => s.markViolation.markTable.done
      | some y => (s.setFreq y count).markTable.done

/-- FREQ_READ (R142). -/
def execFreqRead (sym : Imm16) (s : State) : Host.Outcome State Fault Refusal :=
  .next <|
    match symbolOf sym with
    | none => s.raise .alphabetViolation
    | some y => (s.setResult (resultOfFreq (s.freqAt y))).done

end Sys2Proof.Machine
end

