-- ==== Sys2Proof/Machine/Dispatch.lean ====
section
/-! DEFINITION. The meaning of each command: one arm per constructor of Instr. -/

namespace Sys2Proof.Machine

open Sys2Proof

def exec (i : Instr) (s : State) : Host.Outcome State Fault Refusal :=
  match i with
  | .nop => Sys2Proof.Machine.execNop s
  | .freqClear => Sys2Proof.Machine.execFreqClear s
  | .freqWrite sym count => Sys2Proof.Machine.execFreqWrite sym count s
  | .freqRead sym => Sys2Proof.Machine.execFreqRead sym s
  | .build => Sys2Proof.Machine.execBuild s
  | .nodeRead handle => Sys2Proof.Machine.execNodeRead handle s
  | .encode sym => Sys2Proof.Machine.execEncode sym s
  | .statRead sym => Sys2Proof.Machine.execStatRead sym s
  | .pqInsert present pay prio => Sys2Proof.Machine.execPqInsert present pay prio s
  | .pqRemoveMin => Sys2Proof.Machine.execPqRemoveMin s
  | .pqSize => Sys2Proof.Machine.execPqSize s
  | .pqClear => Sys2Proof.Machine.execPqClear s

end Sys2Proof.Machine
end

