-- ==== Sys2Proof/Machine/HostPort.lean ====
section
/-! DEFINITION. The block's ports (spec/20_memory.md R61 to R66) and its reset input (spec/70_reset_and_hazards.md
R240, R241): which of the host's acts happens next, and what each does other than a command. -/

namespace Sys2Proof.Machine

open Sys2Proof

/-- CMD_READY: NOT BUSY outside reset, 0 in reset (R61, R240). -/
def State.cmdReady (s : State) : Bool := !s.busy && !s.rst

/-- OUT_VALID: a bit is offered (R66). -/
def State.outValid (s : State) : Bool := !s.pending.isEmpty

/-- OUT_BIT, when OUT_VALID = 1 (R66). -/
def State.outBit (s : State) : Option Bool := s.pending.head?

/-- The first act that is no offer, and the list without it. -/
def takeUnheld : List HostAct → Option (HostAct × List HostAct)
  | [] => none
  | .offer w :: rest =>
    match takeUnheld rest with
    | none => none
    | some (a, rest') => some (a, .offer w :: rest')
  | .read index :: rest => some (.read index, rest)
  | .sink k :: rest => some (.sink k, rest)
  | .rst level :: rest => some (.rst level, rest)

/-- The host's next act. While CMD_READY = 0 an offered word waits (R64): the acts at the other ports go on past it. -/
def nextAct (s : State) : Option (HostAct × State) :=
  if s.cmdReady then
    match s.host with
    | [] => none
    | a :: rest => some (a, { s with host := rest })
  else
    match takeUnheld s.host with
    | none => none
    | some (a, rest) => some (a, { s with host := rest })

/-- The ENCODE in execution, if there is one, offers its bits on (R66); an idle block holds its state (R229). -/
def State.continueOutput (s : State) : State := if s.busy then s.emit s.pending else s

/-- RD_DATA for RD_ADDR = index (R62). While BUSY = 1 it is any value, but that STATUS[0] = 1 (R63): `draw` is that
value. -/
def State.readPort (s : State) (draw : Word) (index : BitVec 8) : Word :=
  if s.busy then (if index = 0#8 then draw ||| 1#64 else draw) else s.portRegister index

/-- A register read: no side effect in the block (R62); the host has seen RD_DATA. -/
def State.logRead (s : State) (index : BitVec 8) : State :=
  { s with reads := s.reads ++ [s.readPort (Config.busyRead s.reads.length) index] }

/-- The sink changes, and an ENCODE that waits for it goes on (R66). -/
def State.changeSink (s : State) (k : Sink) : State := State.continueOutput { s with sink := k }

/-- RST = 1 at a rising edge: the command in execution is aborted and every item of state has its value of R44
(R240). OUT keeps the accepted bits; a bit offered and not accepted is withdrawn (R241). -/
def State.assertReset (s : State) : State :=
  { State.resetOf s.params with out := s.out, rst := true, sink := s.sink, host := s.host, reads := s.reads }

/-- RST at a rising edge (R240): 1 resets, and after it the first edge with RST = 0 leaves the block idle and ready. -/
def State.setRst (s : State) (level : Bool) : State := if level then s.assertReset else { s with rst := false }

end Sys2Proof.Machine
end

