-- ==== Sys2Proof/Machine/Step.lean ====
section
/-! DEFINITION. One step of the block: the host's next act at its ports. A command is one atomic step (spec/20_memory.md
R61, R67). -/

namespace Sys2Proof.Machine

open Sys2Proof

/-- The word is accepted (R64) and runs: its command's meaning, or the illegal word's (R87, R201). -/
def runWord (w : Word) (s : State) : Host.Outcome State Fault Refusal :=
  match decode w with
  | .command i => exec i s
  | .illegal _ => execIllegal s

/-- One step. With no act left the block waits: idle with all state held (R229), or BUSY behind its sink (R245). -/
def step (s : State) : Host.Outcome State Fault Refusal :=
  match nextAct s with
  | none => .next s.continueOutput
  | some (.offer w, s') => runWord w s'
  | some (.read index, s') => .next (s'.logRead index)
  | some (.sink k, s') => .next (s'.changeSink k)
  | some (.rst level, s') => .next (s'.setRst level)

/-- The host offers the row's word next, and the block is ready to accept it (R64): nothing is fetched or loaded, the
host sequences the commands (R21, R72; assumption 9). -/
def State.withFetchWord (s : State) (nbits w : Nat) : State :=
  { s with busy := false, pending := [], rst := false, host := .offer (tableWord nbits w) :: s.host }

end Sys2Proof.Machine
end

