-- ==== Sys2Proof/Machine/Assembler.lean ====
section
/-! DEFINITION. The assembler's syntax and the pseudo-instructions (spec/30_encoding.md R89, R90): a line of text to the
command words it stands for. Conventions that R89 leaves open: assumption 18. -/

namespace Sys2Proof.Machine

open Sys2Proof

/-- A token of a line. -/
inductive AsmToken where
  | name (cs : List Char)
  | number (n : Nat)
  | character (code : Nat)
  | comma
  | colon
  deriving DecidableEq, Repr

/-- An operand: a number, a character literal, `nil`, or the pair `s:c` of LOAD_TABLE and BUILD_CODE. -/
inductive AsmOperand where
  | number (n : Nat)
  | character (code : Nat)
  | missing
  | pair (sym : AsmOperand) (count : Nat)
  deriving Repr

/-- What a line stands for (R89, R90). -/
inductive AsmLine where
  | command (i : Instr)
  | word (w : Word)
  | loadTable (entries : List (Imm16 × Count))
  | buildCode (entries : List (Imm16 × Count))
  | encodeSeq (syms : List Imm16)
  | pqDrain (k : Nat)
  | nothing
  deriving DecidableEq, Repr

/-- The mnemonics (R86). -/
def mnemonicOf : Op → String
  | .nop => "NOP"
  | .freqClear => "FREQ_CLEAR"
  | .freqWrite => "FREQ_WRITE"
  | .freqRead => "FREQ_READ"
  | .build => "BUILD"
  | .nodeRead => "NODE_READ"
  | .encode => "ENCODE"
  | .statRead => "STAT_READ"
  | .pqInsert => "PQ_INSERT"
  | .pqRemoveMin => "PQ_REMOVE_MIN"
  | .pqSize => "PQ_SIZE"
  | .pqClear => "PQ_CLEAR"

/-- The opcodes in the order of R86. -/
def allOps : List Op :=
  [.nop, .freqClear, .freqWrite, .freqRead, .build, .nodeRead, .encode, .statRead, .pqInsert, .pqRemoveMin, .pqSize,
    .pqClear]

/-- A value that fits a field of n bits; the assembler rejects one that does not (R89). -/
def fits (n v : Nat) : Option (BitVec n) := if v < 2 ^ n then some (BitVec.ofNat n v) else none

/-- A symbol operand: a number, or a character literal of code 0..255 (R89). -/
def symbolOperand : AsmOperand → Option Imm16
  | .number n => fits 16 n
  | .character code => if code < 256 then fits 16 code else none
  | .missing => none
  | .pair _ _ => none

/-- The entry `s:c` of a table. -/
def entryOperand : AsmOperand → Option (Imm16 × Count)
  | .pair sym count => do some (← symbolOperand sym, ← fits 32 count)
  | _ => none

/-- The command of a mnemonic and its operands: the operand forms of R89. -/
def commandOf (o : Op) (operands : List AsmOperand) : Option Instr :=
  match o, operands with
  | .nop, [] => some .nop
  | .freqClear, [] => some .freqClear
  | .freqWrite, [sym, .number count] => do some (.freqWrite (← symbolOperand sym) (← fits 32 count))
  | .freqRead, [sym] => do some (.freqRead (← symbolOperand sym))
  | .build, [] => some .build
  | .nodeRead, [.number handle] => do some (.nodeRead (← fits 16 handle))
  | .encode, [sym] => do some (.encode (← symbolOperand sym))
  | .statRead, [sym] => do some (.statRead (← symbolOperand sym))
  | .pqInsert, [.number pay, .number prio] => do some (.pqInsert true (← fits 15 pay) (← fits 40 prio))
  | .pqInsert, [.missing, .number prio] => do some (.pqInsert false 0#15 (← fits 40 prio))
  | .pqRemoveMin, [] => some .pqRemoveMin
  | .pqSize, [] => some .pqSize
  | .pqClear, [] => some .pqClear
  | _, _ => none

/-- The line of a name and its operands: a mnemonic, `.word`, or a pseudo-instruction (R89, R90). -/
def lineOf (cs : List Char) (operands : List AsmOperand) : Option AsmLine :=
  match allOps.find? fun o => (mnemonicOf o).toList == cs with
  | some o => (commandOf o operands).map .command
  | none =>
    if cs == ".word".toList then
      match operands with
      | [.number w] => (fits 64 w).map .word
      | _ => none
    else if cs == "LOAD_TABLE".toList then
      if operands.isEmpty then none else (operands.mapM entryOperand).map .loadTable
    else if cs == "BUILD_CODE".toList then
      if operands.isEmpty then none else (operands.mapM entryOperand).map .buildCode
    else if cs == "ENCODE_SEQ".toList then (operands.mapM symbolOperand).map .encodeSeq
    else if cs == "PQ_DRAIN".toList then
      match operands with
      | [.number k] => some (.pqDrain k)
      | _ => none
    else none

/-- LOAD_TABLE's expansion (R90). -/
def loadTableCommands (entries : List (Imm16 × Count)) : List Instr :=
  .freqClear :: entries.map fun e => .freqWrite e.1 e.2

/-- The words of a line: the expansions of R90. -/
def AsmLine.words : AsmLine → List Word
  | .command i => [encode i]
  | .word w => [w]
  | .loadTable entries => (loadTableCommands entries).map encode
  | .buildCode entries => (loadTableCommands entries ++ [Instr.build]).map encode
  | .encodeSeq syms => syms.map fun y => encode (.encode y)
  | .pqDrain k => List.replicate k (encode .pqRemoveMin)
  | .nothing => []

/-- The value of a digit. -/
def digitOf (c : Char) : Option Nat :=
  if '0' ≤ c ∧ c ≤ '9' then some (c.toNat - '0'.toNat)
  else if 'a' ≤ c ∧ c ≤ 'f' then some (c.toNat - 'a'.toNat + 10)
  else if 'A' ≤ c ∧ c ≤ 'F' then some (c.toNat - 'A'.toNat + 10)
  else none

/-- The number that digits spell in a base; `none` for a character that is no digit of it. -/
def digitsValue (base : Nat) (cs : List Char) : Option Nat :=
  cs.foldl (fun acc c => do
    let d ← digitOf c
    if d < base then some ((← acc) * base + d) else none) (some 0)

/-- A number: decimal, or hexadecimal after 0x (R89). -/
def numberOf : List Char → Option Nat
  | [] => none
  | ['0', 'x'] => none
  | '0' :: 'x' :: ds => digitsValue 16 ds
  | ds => digitsValue 10 ds

/-- The characters of names and numbers (DESIGN CHOICE, assumption 18). -/
def isNameChar (c : Char) : Bool := c.isAlphanum || c == '_' || c == '.'

/-- The tokens of a line, up to its comment (R89); the fuel is the line's length. Blanks, the character that begins a name,
and a literal of exactly one character without escapes are DESIGN CHOICE (assumption 18). -/
def tokens : Nat → List Char → Option (List AsmToken)
  | 0, _ => some []
  | _ + 1, [] => some []
  | fuel + 1, c :: cs =>
    if c == ';' then some []
    else if c == ' ' || c == '\t' then tokens fuel cs
    else if c == ',' then (tokens fuel cs).map (.comma :: ·)
    else if c == ':' then (tokens fuel cs).map (.colon :: ·)
    else if c == '\'' then
      match cs with
      | x :: '\'' :: rest => (tokens fuel rest).map (.character x.toNat :: ·)
      | _ => none
    else if isNameChar c then do
      let w := c :: cs.takeWhile isNameChar
      let t ← if c.isDigit then (numberOf w).map AsmToken.number else some (.name w)
      (tokens fuel (cs.dropWhile isNameChar)).map (t :: ·)
    else none

/-- One operand at the head of the tokens, and the tokens after it. -/
def operandAt : List AsmToken → Option (AsmOperand × List AsmToken)
  | .number s :: .colon :: .number c :: rest => some (.pair (.number s) c, rest)
  | .character s :: .colon :: .number c :: rest => some (.pair (.character s) c, rest)
  | .number n :: rest => some (.number n, rest)
  | .character n :: rest => some (.character n, rest)
  | .name ['n', 'i', 'l'] :: rest => some (.missing, rest)
  | _ => none

/-- The operands, separated by commas (R89); the fuel is the number of tokens. -/
def operandsOf : Nat → List AsmToken → Option (List AsmOperand)
  | 0, _ => none
  | fuel + 1, ts => do
    let (x, rest) ← operandAt ts
    match rest with
    | [] => some [x]
    | .comma :: more => (operandsOf fuel more).map (x :: ·)
    | _ => none

/-- A line after its label. -/
def statementOf : List AsmToken → Option AsmLine
  | [] => some .nothing
  | [.name cs] => lineOf cs []
  | .name cs :: ts => do lineOf cs (← operandsOf ts.length ts)
  | _ => none

/-- A line: an optional label `name:` first (R89). DESIGN CHOICE (assumption 18), for R89 says no more of a label: its name
begins with a letter, an underscore or a full stop and not with a digit, one label at most stands on a line, and it is
discarded, so that a repeated one, or one spelt like a mnemonic, is accepted. -/
def parseLine (text : List Char) : Option AsmLine := do
  match ← tokens (text.length + 1) text with
  | .name _ :: .colon :: ts => statementOf ts
  | ts => statementOf ts

/-- The command words of a program's lines, in order; `none` where the assembler rejects a line. -/
def assemble (lines : List (List Char)) : Option (List Word) := do
  some ((← lines.mapM parseLine).flatMap AsmLine.words)

/-- A program is the host's straight-line command sequence: it offers the words one after the other (R21). -/
def offers (words : List Word) : List HostAct := words.map .offer

end Sys2Proof.Machine
end

