-- ==== Sys2Proof/Safety.lean ====
section
/-! DEFINITION. The terms in which claims about the block are made: what a sound heap, tree and code table are
(spec/40 R100, spec/10 R28 and R38, spec/41 R147 to R164), the invariants of the machine, and runs. -/

namespace Sys2Proof.Machine

open Sys2Proof

/-! ### The heap -/

/-- The queue's elements: HEAP[0..HSIZE-1] (R100). -/
def Queue.live (q : Queue) : List HeapEntry := q.slots.take q.hsize.toNat

/-- The min-heap property (R100): every element's priority is at least its parent's. -/
def Queue.Ordered (q : Queue) : Prop :=
  ∀ i, 1 ≤ i → i < q.hsize.toNat → (slotAt q.slots (parentOf i)).prio ≤ (slotAt q.slots i).prio

/-- A sound heap of a part with parameters p (R28, R31, R32, R39, R100). -/
structure Queue.Ok (p : Params) (q : Queue) : Prop where
  slots_length : q.slots.length = p.heapMax
  hsize_le : q.hsize.toNat ≤ q.hcap.toNat
  hcap_le : q.hcap.toNat ≤ p.heapMax
  hcap_doubled : ∃ k, q.hcap.toNat = p.initCap * 2 ^ k
  ordered : q.Ordered

/-! ### The invariant of the machine -/

/-- What holds in every state of a run: the parameters' constraints (R7), a sound heap, the flag invariants (R28), no
tree before a BUILD (R35), at most NODE_MAX nodes (R37), an error code that is written (R210), an output port at rest between commands (R41, R44), and
the reset values while RST = 1 (R240; NODE, HEAP and CT as assumption 2 chooses them). -/
structure State.Inv (s : State) : Prop where
  params_wf : s.params.wf = true
  queue_ok : s.queue.Ok s.params
  built_table : s.built = true → s.ftv = true ∧ s.av = false
  unbuilt_tree : s.built = false → s.root = 0#9 ∧ s.rootNone = true ∧ s.nleaf = 0#9 ∧ s.nnode = 0#10
  nnode_le : s.nnode.toNat ≤ 511
  err_code : s.err.toNat ≤ 6
  idle_output : s.busy = false → s.pending = []
  busy_output : s.busy = true → s.pending ≠ [] ∧ s.built = true
  held_in_reset : s.rst = true → s = s.assertReset

/-! ### The frequency table -/

/-- FREQ[y] of a table. -/
def freqOf (freq : Vector Count 256) (y : Symbol) : Count := freq[y.toNat]'y.isLt

/-- The present symbols of a table, in ascending order: those with a count above 0 (R144, R155). -/
def presentSymbols (freq : Vector Count 256) : List Symbol := allSymbols.filter fun y => freqOf freq y != 0#32

/-- The sum of all counts (R156). -/
def totalCount (freq : Vector Count 256) : Nat := (allSymbols.map fun y => (freqOf freq y).toNat).sum

/-! ### The tree -/

/-- WEIGHT of an entry (R37). -/
def NodeEntry.weight : NodeEntry → Weight
  | .leaf w _ => w
  | .internal w _ _ => w

/-- Handle h is LEFT or RIGHT of entry k. -/
def IsChildOf (node : Vector NodeEntry 511) (h k : Nat) : Prop :=
  ∃ w l r, nodeAt node k = .internal w l r ∧ (l.toNat = h ∨ r.toNat = h)

/-- A sound tree of the table FREQ, with n present symbols: its counts and root (R35, R147, R157), its leaves in ascending
symbol order (R147, R156), its Internal nodes with smaller, distinct children and exact sums (R38, R147, R156), each over
the two trees that a queue of the parentless ones gives up first and second, left and right (R145), their weights in the
order of their making (R145), one parent of each node but the root (R38), and the root's weight (R156). -/
structure State.TreeOk (s : State) : Prop where
  nleaf_eq : s.nleaf.toNat = (presentSymbols s.freq).length
  nnode_eq : s.nnode.toNat = 2 * (presentSymbols s.freq).length - 1
  rootNone_eq : s.rootNone = decide ((presentSymbols s.freq).length = 0)
  root_eq : s.root.toNat = 2 * (presentSymbols s.freq).length - 2
  leaves : ∀ j y, (presentSymbols s.freq)[j]? = some y → nodeAt s.node j = .leaf ((s.freqAt y).setWidth 40) y
  internals : ∀ k, (presentSymbols s.freq).length ≤ k → k < s.nnode.toNat →
    ∃ w l r, nodeAt s.node k = .internal w l r ∧ l.toNat < k ∧ r.toNat < k ∧ l ≠ r ∧
      w.toNat = (nodeAt s.node l.toNat).weight.toNat + (nodeAt s.node r.toNat).weight.toNat
  greedy : ∀ k w l r, k < s.nnode.toNat → nodeAt s.node k = .internal w l r →
    (nodeAt s.node l.toNat).weight ≤ (nodeAt s.node r.toNat).weight ∧
    ∀ h, h < k → h ≠ l.toNat → h ≠ r.toNat → (∀ j, j < k → ¬ IsChildOf s.node h j) →
      (nodeAt s.node r.toNat).weight ≤ (nodeAt s.node h).weight
  rising : ∀ k k', (presentSymbols s.freq).length ≤ k → k ≤ k' → k' < s.nnode.toNat →
    (nodeAt s.node k).weight ≤ (nodeAt s.node k').weight
  one_parent : ∀ h, h < s.nnode.toNat → h ≠ s.root.toNat → ∃ k, k < s.nnode.toNat ∧ IsChildOf s.node h k ∧
    ∀ k', k' < s.nnode.toNat → IsChildOf s.node h k' → k' = k
  root_no_parent : ∀ k, k < s.nnode.toNat → ¬ IsChildOf s.node s.root.toNat k
  root_weight : s.nnode.toNat ≠ 0 → (nodeAt s.node s.root.toNat).weight.toNat = totalCount s.freq

/-- The node that a path from h leads to: 0 is left, 1 is right (R153, R159). -/
def followPath (node : Vector NodeEntry 511) : Handle → List Bool → Option NodeEntry
  | h, [] => some (nodeAt node h.toNat)
  | h, b :: bs =>
    match nodeAt node h.toNat with
    | .leaf _ _ => none
    | .internal _ l r => followPath node (if b then r else l) bs

/-! ### The code table -/

/-- The code of a symbol, first bit first (R159). -/
def State.codeOf (s : State) (y : Symbol) : List Bool := codeBits (s.ctAt y)

/-- A symbol has a code. -/
def State.hasCode (s : State) (y : Symbol) : Bool := (s.ctAt y).present

/-- The bits that ENCODE of a symbol emits: its code, or none when it has no code (R181, R182). -/
def State.emittedFor (s : State) (y : Symbol) : List Bool := if s.hasCode y then s.codeOf y else []

/-- Prefix-freeness (R163) of a code on some symbols. -/
def PrefixFree (has : Symbol → Bool) (code : Symbol → List Bool) : Prop :=
  ∀ y z, y ≠ z → has y = true → has z = true → ¬ (code y).IsPrefix (code z)

/-- The weighted length of a code (R162, R185). -/
def weightedLength (freq : Vector Count 256) (code : Symbol → List Bool) : Nat :=
  (allSymbols.map fun y => (freqOf freq y).toNat * (code y).length).sum

/-- The Kraft sum times 2^255 (R164). -/
def kraftSum (has : Symbol → Bool) (code : Symbol → List Bool) : Nat :=
  ((allSymbols.filter has).map fun y => 2 ^ (255 - (code y).length)).sum

/-- A sound code table of the tree, with n present symbols: present symbols (R155), bits above LEN zero (R159), the
one-symbol code "0" (R149), and for n >= 2 each code the path from the root to its leaf (R153) with its length (R161). -/
structure State.CodeOk (s : State) : Prop where
  absent : ∀ y, s.freqAt y = 0#32 → s.ctAt y = CtEntry.absent
  present : ∀ y, s.freqAt y ≠ 0#32 → s.hasCode y = true
  high_bits : ∀ y, (s.ctAt y).bits.toNat < 2 ^ (s.ctAt y).len.toNat
  single : ∀ y, presentSymbols s.freq = [y] → s.ctAt y = { present := true, len := 1#9, bits := 0#256 }
  path : 2 ≤ (presentSymbols s.freq).length → ∀ y, s.freqAt y ≠ 0#32 →
    followPath s.node s.root (s.codeOf y) = some (.leaf ((s.freqAt y).setWidth 40) y)
  lengths : 2 ≤ (presentSymbols s.freq).length → ∀ y, s.freqAt y ≠ 0#32 →
    1 ≤ (s.ctAt y).len.toNat ∧ (s.ctAt y).len.toNat ≤ (presentSymbols s.freq).length - 1

/-- While BUILT = 1 the tree and the code table are sound for FREQ (R27, R160). -/
def State.TablesOk (s : State) : Prop := s.built = true → s.TreeOk ∧ s.CodeOk

/-! ### Conditions on a state -/

/-- BUILD passes its checks and builds (R143): a table exists, nothing is built, no violation is pending; the part's
parameters and its store of slots are as R7 says. -/
structure State.BuildReady (s : State) : Prop where
  params_wf : s.params.wf = true
  slots_length : s.queue.slots.length = s.params.heapMax
  ftv : s.ftv = true
  built : s.built = false
  av : s.av = false

/-- The sink accepts m more bits before it withholds OUT_READY (R66). -/
def Sink.Accepts (k : Sink) (m : Nat) : Prop := k.accepts m = m

/-- No act of the list lets an ENCODE that waits for its sink go on: the host only offers and reads (R245). -/
def NoRelease : List HostAct → Prop
  | [] => True
  | .offer _ :: rest => NoRelease rest
  | .read _ :: rest => NoRelease rest
  | .sink _ :: _ => False
  | .rst _ :: _ => False

/-- The offered words that are not yet accepted, in order (R64). -/
def offeredWords : List HostAct → List Word
  | [] => []
  | .offer w :: rest => w :: offeredWords rest
  | .read _ :: rest => offeredWords rest
  | .sink _ :: rest => offeredWords rest
  | .rst _ :: rest => offeredWords rest

/-! ### The reference decoder -/

/-- The symbol whose code is the last `len` bits, read as the number `cur`. -/
def State.symbolWithCode (s : State) (cur len : Nat) : Option Symbol :=
  allSymbols.find? fun y => s.hasCode y && decide ((s.ctAt y).len.toNat = len) && decide ((s.ctAt y).bits.toNat = cur)

/-- The reference decoder of spec/95_test_vectors.md section 4, a test aid and no part of the block: `cur` and `len`
are the bits read since the last symbol. -/
def State.decodeBits (s : State) : Nat → Nat → List Bool → Option (List Symbol)
  | _, len, [] => if len = 0 then some [] else none
  | cur, len, b :: bs =>
    match s.symbolWithCode (2 * cur + b.toNat) (len + 1) with
    | some y => (s.decodeBits 0 0 bs).map (y :: ·)
    | none => s.decodeBits (2 * cur + b.toNat) (len + 1) bs

/-- The words of ENCODE_SEQ (R90, R182). -/
def encodeSeqWords (ys : List Symbol) : List Word := ys.map fun y => encode (.encode (y.setWidth 16))

/-! ### Illegal words and the order of causes -/

/-- R87 written out: an unassigned OP, or an assigned OP with a reserved field of its format that is not 0. -/
def IllegalWord (w : Word) : Prop :=
  let op := (w.extractLsb' 56 8).toNat
  (0x04 ≤ op ∧ op ≤ 0x0F) ∨ (0x12 ≤ op ∧ op ≤ 0x1F) ∨ (0x22 ≤ op ∧ op ≤ 0x2F) ∨ 0x34 ≤ op ∨
    (op ∈ [0x00, 0x01, 0x10, 0x31, 0x32, 0x33] ∧ w.extractLsb' 0 56 ≠ 0#56) ∨
    (op ∈ [0x03, 0x11, 0x20, 0x21] ∧ w.extractLsb' 0 40 ≠ 0#40) ∨
    (op = 0x02 ∧ w.extractLsb' 32 8 ≠ 0#8)

/-- The symbol operand names the symbol y (R85). -/
def Names (sym : Imm16) (y : Symbol) : Prop := sym.toNat = y.toNat

/-- The error each command reports, the first in the order of R219's table that applies; 0 when none does. -/
def firstCause (i : Instr) (s : State) : BitVec 4 :=
  match i with
  | .freqWrite _ _ => if s.built then 1#4 else 0#4
  | .freqRead sym => if 256 ≤ sym.toNat then 4#4 else 0#4
  | .build => if s.ftv = false then 2#4 else if s.built then 0#4 else if s.av then 4#4 else 0#4
  | .nodeRead handle => if s.built = false then 1#4 else if s.nnode.toNat ≤ handle.toNat then 2#4 else 0#4
  | .encode sym =>
    if s.built = false then 1#4
    else if 256 ≤ sym.toNat then 3#4
    else if s.hasCode (sym.setWidth 8) = false then 3#4
    else 0#4
  | .statRead sym => if s.built = false then 1#4 else if 256 ≤ sym.toNat then 3#4 else 0#4
  | .pqInsert present _ _ =>
    if present = false then 2#4
    else if s.queue.hsize = s.queue.hcap ∧ s.queue.hcap.toNat = s.params.heapMax then 6#4
    else 0#4
  | .nop => 0#4
  | .freqClear => 0#4
  | .pqRemoveMin => 0#4
  | .pqSize => 0#4
  | .pqClear => 0#4

/-- The commands that read and write nothing but RESULT, CODE and ERR (R69). -/
def isReadOnly : Instr → Bool
  | .nop => true
  | .freqRead _ => true
  | .nodeRead _ => true
  | .statRead _ => true
  | .pqSize => true
  | .freqClear => false
  | .freqWrite _ _ => false
  | .build => false
  | .encode _ => false
  | .pqInsert _ _ _ => false
  | .pqRemoveMin => false
  | .pqClear => false

/-- The state of a next step. -/
def nextState? : Host.Outcome State Fault Refusal → Option State
  | .next t => some t
  | .fault _ => none
  | .refused _ => none

end Sys2Proof.Machine
end

