-- ==== Sys2Proof/Certificates/Slice0/Obligations.lean ====
section
/-! DEFINITION. The statements for the provers, one per claim; OBLIGATIONS.json lists them. -/

open Sys2Proof Sys2Proof.Machine

/-! ### Encoding (spec/30_encoding.md) -/

/-- R92: no bit of a command's word is dropped. -/
def Obligations.EncodedCommandDecodesBack : Prop :=
  ∀ i : Instr, i.wf = true → decode (encode i) = .command i

/-- R92: a legal word is the word of its command, but for the PAYLOAD bits of a missing element. -/
def Obligations.DecodedCommandEncodesBack : Prop :=
  (∀ w i, decode w = .command i →
    i.wf = true ∧
      (encode i = w ∨ (w.extractLsb' 55 9 = 0b001100000#9 ∧ i = .pqInsert false 0#15 (w.extractLsb' 0 40)))) ∧
  ∀ (pay : Payload) (prio : Weight),
    decode (0x30#8 ++ 0#1 ++ pay ++ prio) = .command (.pqInsert false 0#15 prio)

/-- R87, R201, R216: exactly the illegal words of R87 set ERR = 5 and change nothing else, before any other check. -/
def Obligations.IllegalWordSetsErrOnly : Prop :=
  ∀ (s : State) (w : Word) (rest : List HostAct), s.cmdReady = true → s.host = .offer w :: rest →
    (IllegalWord w → step s = .next { s with host := rest, err := 5#4 }) ∧
    (¬ IllegalWord w → ∃ i, decode w = .command i ∧ step s = exec i { s with host := rest })

/-- The rows of spec/opcode_table.json: a word decodes to a row's command exactly when its masked bits match. -/
def Obligations.DecodingFollowsTableMasks : Prop :=
  ∀ (w : Word) (o : Op), (∃ i, decode w = .command i ∧ i.op = o) ↔ w &&& o.mask = o.pattern

/-- R81 to R84 on words of the spec's own examples (R107, R141, R142, R143, R151, R181, R184, R200, R87). -/
def Obligations.SampleWordsDecode : Prop :=
  decode 0x3080070000000064#64 = .command (.pqInsert true 7#15 100#40) ∧
  decode 0x3000050000000009#64 = .command (.pqInsert false 0#15 9#40) ∧
  decode 0x0200610000000005#64 = .command (.freqWrite 0x61#16 5#32) ∧
  decode 0x0300610000000000#64 = .command (.freqRead 0x61#16) ∧
  decode 0x1000000000000000#64 = .command .build ∧
  decode 0x11000A0000000000#64 = .command (.nodeRead 10#16) ∧
  decode 0x2000650000000000#64 = .command (.encode 0x65#16) ∧
  decode 0x2100610000000000#64 = .command (.statRead 0x61#16) ∧
  decode 0x0000000000000000#64 = .command .nop ∧
  decode 0xFF00000000000000#64 = .illegal .unassignedOpcode ∧
  decode 0x2000610000000001#64 = .illegal .reservedNonzero

/-- R89: what the assembler makes of a mnemonic and its operands is a well-formed command of that opcode. -/
def Obligations.AssembledCommandIsWellFormed : Prop :=
  ∀ (o : Op) (xs : List AsmOperand) (i : Instr), commandOf o xs = some i → i.op = o ∧ i.wf = true

/-! ### The ports and the step (spec/20_memory.md) -/

/-- R64, R67: a step at which the block accepts a word runs exactly the command the word decodes to. -/
def Obligations.StepRunsAcceptedCommand : Prop :=
  ∀ (s : State) (w : Word) (rest : List HostAct) (i : Instr), s.cmdReady = true → s.host = .offer w :: rest →
    decode w = .command i → step s = exec i { s with host := rest }

/-- R64: while CMD_READY = 0 no offered word is accepted or lost. -/
def Obligations.OfferedWordsWaitWhileNotReady : Prop :=
  ∀ s : State, s.cmdReady = false → ∃ t, step s = .next t ∧ offeredWords t.host = offeredWords s.host

/-- R229: with nothing at its ports an idle block holds all its state. -/
def Obligations.IdleBlockHoldsState : Prop :=
  ∀ s : State, s.busy = false → s.host = [] → step s = .next s

/-- R245: behind a sink that never accepts, an ENCODE never completes, whatever the host offers and reads: the block
stays BUSY with the same bit offered, accepts no word and changes nothing. -/
def Obligations.EncodeStaysBusyBehindClosedSink : Prop :=
  ∀ s : State, s.busy = true → s.pending ≠ [] → s.sink = .upTo 0 → NoRelease s.host →
    ∀ k, ∃ t, Host.Core.run core k s = .next t ∧ t = { s with host := t.host, reads := t.reads } ∧
      offeredWords t.host = offeredWords s.host

/-- R66: an ENCODE that waits goes on when the sink does, whatever word waits at the command port: it emits as many bits as
the sink accepts, and completes with the last one. An idle block does nothing when the sink changes. -/
def Obligations.WaitingEncodeGoesOn : Prop :=
  ∀ (s s' : State) (k : Sink), nextAct s = some (.sink k, s') →
    offeredWords s'.host = offeredWords s.host ∧
    (s.busy = false → step s = .next { s with host := s'.host, sink := k }) ∧
    (s.busy = true → k = .always → step s = .next
      { s with host := s'.host, sink := .always, out := s.out ++ s.pending, pending := [], busy := false,
               err := 0#4 }) ∧
    (s.busy = true → ∀ n, k = .upTo n →
      (n < s.pending.length → step s = .next
        { s with host := s'.host, sink := .upTo 0, out := s.out ++ s.pending.take n, pending := s.pending.drop n }) ∧
      (s.pending.length ≤ n → step s = .next
        { s with host := s'.host, sink := .upTo (n - s.pending.length), out := s.out ++ s.pending, pending := [],
                 busy := false, err := 0#4 }))

/-- R62, R63: a register read, a word waiting at the command port or not, changes nothing in the block, and shows BUSY = 1
in STATUS while a command runs. -/
def Obligations.RegisterReadHasNoSideEffect : Prop :=
  ∀ (s s' : State) (index : BitVec 8), nextAct s = some (.read index, s') →
    offeredWords s'.host = offeredWords s.host ∧
    ∃ v, step s = .next { s with host := s'.host, reads := s.reads ++ [v] } ∧
      (s.busy = false → v = s.portRegister index) ∧
      (s.busy = true → index = 0#8 → v.getLsbD 0 = true)

/-- R23: the bits of STATUS. -/
def Obligations.StatusWordLayout : Prop :=
  ∀ s : State,
    s.portRegister 0#8 = s.statusWord ∧
    s.statusWord.getLsbD 0 = s.busy ∧ s.statusWord.getLsbD 1 = s.ftv ∧ s.statusWord.getLsbD 2 = s.av ∧
    s.statusWord.getLsbD 3 = s.built ∧ s.statusWord.extractLsb' 4 4 = 0#4 ∧ s.statusWord.extractLsb' 8 4 = s.err ∧
    s.statusWord.extractLsb' 12 4 = 0#4 ∧ s.statusWord.extractLsb' 16 16 = s.queue.hsize ∧
    s.statusWord.extractLsb' 32 16 = s.queue.hcap ∧ s.statusWord.extractLsb' 48 16 = 0#16

/-- R34, R35, R62: the other registers of the port, and 0 at 7..255. -/
def Obligations.RegisterPortMap : Prop :=
  ∀ s : State,
    s.portRegister 1#8 = s.result ∧
    (∀ k, k < 4 → ∀ j, j < 64 → (s.portRegister (BitVec.ofNat 8 (2 + k))).getLsbD j = s.code.getLsbD (64 * k + j)) ∧
    (s.portRegister 6#8).extractLsb' 0 9 = s.root ∧ (s.portRegister 6#8).extractLsb' 9 6 = 0#6 ∧
    (s.portRegister 6#8).getLsbD 15 = s.rootNone ∧ (s.portRegister 6#8).extractLsb' 16 9 = s.nleaf ∧
    (s.portRegister 6#8).extractLsb' 25 7 = 0#7 ∧ (s.portRegister 6#8).extractLsb' 32 10 = s.nnode ∧
    (s.portRegister 6#8).extractLsb' 42 22 = 0#22 ∧
    ∀ index : BitVec 8, 7 ≤ index.toNat → s.portRegister index = 0#64

/-! ### Reset (spec/70_reset_and_hazards.md, spec/10_state.md R44) -/

/-- R44: the values after reset, for every choice of the OPEN parameters. What NODE and HEAP hold is the model's choice
(assumption 2) and is not stated. -/
def Obligations.ResetValues : Prop :=
  ∀ p : Params, p.wf = true →
    (State.resetOf p).statusWord = BitVec.ofNat 64 (p.initCap * 2 ^ 32) ∧
    (State.resetOf p).result = 0#64 ∧ (State.resetOf p).code = 0#256 ∧
    (State.resetOf p).treeWord = 0x8000#64 ∧
    (∀ y, (State.resetOf p).freqAt y = 0#32) ∧
    (State.resetOf p).outValid = false ∧ (State.resetOf p).cmdReady = true

/-- R240, R241: RST = 1 aborts whatever runs, a word waiting at the command port or not, and sets the values of R44; OUT
keeps what the sink accepted, an offered bit is withdrawn; no word is accepted until RST = 0, after which the block is
ready, and no waiting word is lost. What NODE, HEAP and CT hold after the reset is the model's choice (assumption 2). -/
def Obligations.ResetAbortsAndKeepsOut : Prop :=
  ∀ s s' : State, nextAct s = some (.rst true, s') →
    ∃ t, step s = .next t ∧
      t = { State.resetOf s.params with
              out := s.out, rst := true, sink := s.sink, host := s'.host, reads := s.reads } ∧
      t.cmdReady = false ∧ t.outValid = false ∧ offeredWords t.host = offeredWords s.host ∧
      ∀ t', nextAct t = some (.rst false, t') →
        ∃ u, step t = .next u ∧ u = { t with rst := false, host := t'.host } ∧ u.cmdReady = true ∧
          offeredWords u.host = offeredWords s.host

/-- R241: a reset during ENCODE leaves in OUT the bits accepted before it, any prefix of the code, from none of its
bits to all of them, and everything else as a reset does. What NODE, HEAP and CT hold then is the model's choice
(assumption 2). -/
def Obligations.ResetDuringEncodeLeavesPrefix : Prop :=
  ∀ (s : State) (y : Symbol) (m : Nat) (rest : List HostAct), s.cmdReady = true → s.built = true →
    s.hasCode y = true → m ≤ (s.codeOf y).length → s.sink = .upTo m →
    s.host = .offer (encode (.encode (y.setWidth 16))) :: .rst true :: rest →
    Host.Core.run core 2 s = .next
      { State.resetOf s.params with
          out := s.out ++ (s.codeOf y).take m, rst := true, sink := .upTo 0, host := rest, reads := s.reads }

/-! ### General commands (spec/43_general.md) -/

/-- R200. -/
def Obligations.NopClearsErrOnly : Prop :=
  (∀ s : State, exec .nop s = .next { s with err := 0#4 }) ∧
  (∀ (s : State) (rest : List HostAct), s.cmdReady = true → s.host = .offer 0#64 :: rest →
    step s = .next { s with host := rest, err := 0#4 }) ∧
  ∀ (s : State) (w : Word) (rest : List HostAct), s.cmdReady = true → s.host = .offer w :: rest →
    w.extractLsb' 56 8 = 0#8 → w ≠ 0#64 → step s = .next { s with host := rest, err := 5#4 }

/-! ### Frequency table commands (spec/41_huffman_tree_builder.md R140 to R142) -/

/-- R140: completes in every state; HEAP, HSIZE, HCAP, RESULT, CODE, NODE, CT and the ports are unchanged. -/
def Obligations.FreqClearStartsZeroTable : Prop :=
  ∀ s : State, ∃ t, exec .freqClear s = .next t ∧ (∀ y, t.freqAt y = 0#32) ∧
    t = { s with freq := t.freq, ftv := true, av := false, built := false, root := 0#9, rootNone := true,
                 nleaf := 0#9, nnode := 0#10, err := 0#4 }

/-- R141: completes while BUILT = 0, overwriting one entry or marking a violation; STATE_ERROR while BUILT = 1. -/
def Obligations.FreqWriteStoresOrMarksViolation : Prop :=
  ∀ (sym : Imm16) (count : Count) (s : State),
    (s.built = true → exec (.freqWrite sym count) s = .next { s with err := 1#4 }) ∧
    (s.built = false → 256 ≤ sym.toNat →
      exec (.freqWrite sym count) s = .next { s with av := true, ftv := true, err := 0#4 }) ∧
    (s.built = false → ∀ y, Names sym y → ∃ t, exec (.freqWrite sym count) s = .next t ∧
      t.freqAt y = count ∧ (∀ z, z ≠ y → t.freqAt z = s.freqAt z) ∧
      t = { s with freq := t.freq, ftv := true, err := 0#4 })

/-- R142: completes in every state for a symbol of the alphabet; ALPHABET_VIOLATION outside it, AV not set. -/
def Obligations.FreqReadReturnsCount : Prop :=
  ∀ (sym : Imm16) (s : State),
    (256 ≤ sym.toNat → exec (.freqRead sym) s = .next { s with err := 4#4 }) ∧
    ∀ y, Names sym y → exec (.freqRead sym) s = .next { s with result := (s.freqAt y).setWidth 64, err := 0#4 }

/-- R90, R140, R141: the words of LOAD_TABLE leave exactly the table they list, the last count of each symbol, every
other count 0; AV tells whether a symbol of 256 or more was among them; the heap, RESULT, CODE and OUT stay. -/
def Obligations.LoadTableLoadsCounts : Prop :=
  ∀ (s : State) (entries : List (Imm16 × Count)) (rest : List HostAct), s.cmdReady = true →
    s.host = offers (AsmLine.loadTable entries).words ++ rest →
    ∃ t, Host.Core.run core (entries.length + 1) s = .next t ∧
      (∀ y, t.freqAt y = ((entries.reverse.find? fun e => e.1.toNat == y.toNat).map (·.2)).getD 0#32) ∧
      (t.av = true ↔ ∃ e, e ∈ entries ∧ 256 ≤ e.1.toNat) ∧
      t = { s with freq := t.freq, ftv := true, av := t.av, built := false, root := 0#9, rootNone := true,
                   nleaf := 0#9, nnode := 0#10, err := 0#4, host := rest }

/-! ### BUILD (spec/41_huffman_tree_builder.md R143 to R164) -/

/-- R143, R150, R219: BUILD's checks in order; a failing or repeated BUILD changes nothing but ERR. -/
def Obligations.BuildChecksInOrder : Prop :=
  ∀ s : State,
    (s.ftv = false → exec .build s = .next { s with err := 2#4 }) ∧
    (s.ftv = true → s.built = true → exec .build s = .next { s with err := 0#4 }) ∧
    (s.ftv = true → s.built = false → s.av = true → exec .build s = .next { s with err := 4#4 })

/-- R143, R146: a BUILD that passes its checks completes with BUILT = 1, an empty queue and ERR = 0; FREQ, FTV, AV,
RESULT, CODE and the ports are unchanged. -/
def Obligations.BuildCompletes : Prop :=
  ∀ s : State, s.BuildReady → ∃ t, exec .build s = .next t ∧ t.queue.hsize = 0#16 ∧
    t = { s with queue := t.queue, node := t.node, ct := t.ct, root := t.root, rootNone := t.rootNone,
                 nleaf := t.nleaf, nnode := t.nnode, built := true, err := 0#4 }

/-- R102, R143, R145: after BUILD, HCAP is HEAP_INIT_CAP doubled as often as the n leaves need, and no more. -/
def Obligations.BuildGrowsCapacityForLeaves : Prop :=
  ∀ s : State, s.BuildReady → ∃ t j, exec .build s = .next t ∧ t.queue.hcap.toNat = s.params.initCap * 2 ^ j ∧
    (presentSymbols s.freq).length ≤ s.params.initCap * 2 ^ j ∧
    (j = 0 ∨ s.params.initCap * 2 ^ (j - 1) < (presentSymbols s.freq).length)

/-- R38, R145, R147, R156, R157: the tree that BUILD makes, each Internal node over the two least trees left, the one removed
first on the left. -/
def Obligations.BuildMakesSoundTree : Prop :=
  ∀ s : State, s.BuildReady → ∃ t, exec .build s = .next t ∧ t.TreeOk

/-- R153, R154, R155, R159, R161: the code table that BUILD makes. -/
def Obligations.BuildMakesSoundCodeTable : Prop :=
  ∀ s : State, s.BuildReady → ∃ t, exec .build s = .next t ∧ t.CodeOk

/-- R148: an all-zero table builds the empty tree; then ENCODE fails with UNKNOWN_SYMBOL for every symbol and NODE_READ
with INVALID_ARGUMENT for every handle. -/
def Obligations.EmptyTableBuildsEmptyTree : Prop :=
  ∀ s : State, s.BuildReady → (∀ y, s.freqAt y = 0#32) →
    ∃ t, exec .build s = .next t ∧ t.built = true ∧ t.err = 0#4 ∧ t.nleaf = 0#9 ∧ t.nnode = 0#10 ∧
      t.rootNone = true ∧ t.root = 0#9 ∧ (∀ y, t.ctAt y = CtEntry.absent) ∧
      (∀ sym, exec (.encode sym) t = .next { t with err := 3#4 }) ∧
      ∀ handle, exec (.nodeRead handle) t = .next { t with err := 2#4 }

/-- R149, R154: one present symbol gets the one-bit code "0", one leaf of handle 0. -/
def Obligations.OneSymbolBuildsOneBitCode : Prop :=
  ∀ (s : State) (y : Symbol), s.BuildReady → s.freqAt y ≠ 0#32 → (∀ z, z ≠ y → s.freqAt z = 0#32) →
    ∃ t, exec .build s = .next t ∧ t.root = 0#9 ∧ t.rootNone = false ∧ t.nleaf = 1#9 ∧ t.nnode = 1#10 ∧
      nodeAt t.node 0 = .leaf ((s.freqAt y).setWidth 40) y ∧
      t.ctAt y = { present := true, len := 1#9, bits := 0#256 } ∧ ∀ z, z ≠ y → t.ctAt z = CtEntry.absent

/-- R163: the code table that BUILD makes is prefix-free. -/
def Obligations.BuiltCodeIsPrefixFree : Prop :=
  ∀ s : State, s.BuildReady → ∃ t, exec .build s = .next t ∧ PrefixFree t.hasCode t.codeOf

/-- R164: the Kraft sum is exactly 1 for two symbols or more, and 1/2 for one. -/
def Obligations.BuiltCodeIsComplete : Prop :=
  ∀ s : State, s.BuildReady → ∃ t, exec .build s = .next t ∧
    (2 ≤ (presentSymbols s.freq).length → kraftSum t.hasCode t.codeOf = 2 ^ 255) ∧
    ((presentSymbols s.freq).length = 1 → kraftSum t.hasCode t.codeOf = 2 ^ 254)

/-- R162: the code table's weighted length is the least of all prefix codes for the frequencies, and its own is one of
them; for one symbol, the least of all codes of length at least 1. -/
def Obligations.BuiltCodeIsOptimal : Prop :=
  ∀ s : State, s.BuildReady → ∃ t, exec .build s = .next t ∧
    (2 ≤ (presentSymbols s.freq).length →
      PrefixFree t.hasCode t.codeOf ∧
      ∀ c : Symbol → List Bool, PrefixFree t.hasCode c → weightedLength s.freq t.codeOf ≤ weightedLength s.freq c) ∧
    ((presentSymbols s.freq).length = 1 →
      ∀ c : Symbol → List Bool, (∀ y, t.hasCode y = true → 1 ≤ (c y).length) →
        weightedLength s.freq t.codeOf ≤ weightedLength s.freq c)

/-- R158: the tree, the handles and the code table are a function of FREQ alone, not of the parameters, of the host's
earlier heap use or of an earlier BUILD. -/
def Obligations.BuildDependsOnFreqAlone : Prop :=
  ∀ s s' : State, s.BuildReady → s'.BuildReady → s.freq = s'.freq →
    ∃ t t', exec .build s = .next t ∧ exec .build s' = .next t' ∧ t.ct = t'.ct ∧ t.treeWord = t'.treeWord ∧
      ∀ h, h < t.nnode.toNat → nodeAt t.node h = nodeAt t'.node h

/-- Section 4 of spec/95_test_vectors.md: the reference decoder gives back every sequence of present symbols. -/
def Obligations.ReferenceDecoderInvertsBuiltCode : Prop :=
  ∀ s : State, s.BuildReady → ∃ t, exec .build s = .next t ∧
    ∀ ys : List Symbol, (∀ y, y ∈ ys → s.freqAt y ≠ 0#32) → t.decodeBits 0 0 (ys.flatMap t.codeOf) = some ys

/-- R151, R91: completes when BUILT = 1 and the handle names a node. -/
def Obligations.NodeReadReturnsNode : Prop :=
  ∀ (handle : Imm16) (s : State), s.nnode.toNat ≤ 511 →
    (s.built = false → exec (.nodeRead handle) s = .next { s with err := 1#4 }) ∧
    (s.built = true → s.nnode.toNat ≤ handle.toNat → exec (.nodeRead handle) s = .next { s with err := 2#4 }) ∧
    (s.built = true → handle.toNat < s.nnode.toNat → ∃ v, exec (.nodeRead handle) s =
      .next { s with result := v, err := 0#4 } ∧
      (∀ w y, nodeAt s.node handle.toNat = .leaf w y →
        v.extractLsb' 0 40 = w ∧ v.extractLsb' 40 9 = y.setWidth 9 ∧ v.extractLsb' 49 15 = 0#15) ∧
      ∀ w l r, nodeAt s.node handle.toNat = .internal w l r →
        v.extractLsb' 0 40 = w ∧ v.extractLsb' 40 9 = l ∧ v.extractLsb' 49 9 = r ∧ v.extractLsb' 58 5 = 0#5 ∧
          v.getLsbD 63 = true)

/-! ### The encoder (spec/42_huffman_encoder.md) -/

/-- R181, R159: ENCODE completes, having emitted the LEN bits of the code, c_0 = BITS[LEN-1] first, when the sink
accepts them; no register, table or flag other than ERR changes. -/
def Obligations.EncodeEmitsCode : Prop :=
  ∀ (sym : Imm16) (y : Symbol) (s : State), Names sym y → s.built = true → s.hasCode y = true →
    s.sink.Accepts (s.ctAt y).len.toNat →
    ∃ bits : List Bool, bits.length = (s.ctAt y).len.toNat ∧
      (∀ i, i < (s.ctAt y).len.toNat → bits[i]? = some ((s.ctAt y).bits.getLsbD ((s.ctAt y).len.toNat - 1 - i))) ∧
      exec (.encode sym) s = .next
        { s with out := s.out ++ bits, sink := s.sink.after (s.ctAt y).len.toNat, pending := [], busy := false,
                 err := 0#4 }

/-- R66, R245: when the sink accepts only m bits of the code, ENCODE has emitted those and stays BUSY with the next bit
offered; ERR is not written. -/
def Obligations.EncodeStaysBusyWhenSinkWithholds : Prop :=
  ∀ (sym : Imm16) (y : Symbol) (m : Nat) (s : State), Names sym y → s.built = true → s.hasCode y = true →
    s.sink = .upTo m → m < (s.codeOf y).length →
    exec (.encode sym) s = .next
      { s with out := s.out ++ (s.codeOf y).take m, sink := .upTo 0, pending := (s.codeOf y).drop m, busy := true }

/-- R181, R219: ENCODE's failures emit no bit and change nothing but ERR. -/
def Obligations.EncodeFailsWithoutCode : Prop :=
  ∀ (sym : Imm16) (s : State),
    (s.built = false → exec (.encode sym) s = .next { s with err := 1#4 }) ∧
    (s.built = true → 256 ≤ sym.toNat → exec (.encode sym) s = .next { s with err := 3#4 }) ∧
    (s.built = true → ∀ y, Names sym y → s.hasCode y = false → exec (.encode sym) s = .next { s with err := 3#4 })

/-- R184, R91: STAT_READ completes for every symbol of the alphabet once BUILT = 1. -/
def Obligations.StatReadReturnsCodeAndCount : Prop :=
  ∀ (sym : Imm16) (s : State),
    (s.built = false → exec (.statRead sym) s = .next { s with err := 1#4 }) ∧
    (s.built = true → 256 ≤ sym.toNat → exec (.statRead sym) s = .next { s with err := 3#4 }) ∧
    (s.built = true → ∀ y, Names sym y → ∃ v,
      exec (.statRead sym) s = .next { s with result := v, code := (s.ctAt y).bits, err := 0#4 } ∧
      v.extractLsb' 0 32 = s.freqAt y ∧ v.extractLsb' 32 9 = (s.ctAt y).len ∧ v.extractLsb' 41 22 = 0#22 ∧
      v.getLsbD 63 = (s.ctAt y).present)

/-- R182, R183: the commands of ENCODE_SEQ emit the concatenation of the codes of their symbols, so a sequence cut in two
emits the same bits as the whole, and the empty one emits nothing. A symbol without a code emits no bit; its command
reports UNKNOWN_SYMBOL, and the bits before it are not withdrawn. -/
def Obligations.EncodeSequenceConcatenatesCodes : Prop :=
  ∀ (s : State) (xs ys : List Symbol) (rest : List HostAct), s.Inv → s.cmdReady = true → s.built = true →
    s.sink = .always → s.host = offers (encodeSeqWords xs) ++ offers (encodeSeqWords ys) ++ rest →
    ∃ t, Host.Core.run core (xs.length + ys.length) s = .next t ∧
      t = { s with host := rest, err := t.err, out := s.out ++ (xs ++ ys).flatMap s.emittedFor } ∧
      ∀ y, (xs ++ ys).getLast? = some y → t.err = if s.hasCode y then 0#4 else 3#4

/-! ### The heap commands (spec/40_priority_queue_heap.md) -/

/-- R107, R217, R219: PQ_INSERT's failures; V = 0 is reported first. -/
def Obligations.PqInsertFailures : Prop :=
  ∀ (pay : Payload) (prio : Weight) (s : State),
    exec (.pqInsert false pay prio) s = .next { s with err := 2#4 } ∧
    (s.queue.hsize = s.queue.hcap → s.queue.hcap.toNat = s.params.heapMax →
      exec (.pqInsert true pay prio) s = .next { s with err := 6#4 })

/-- R107, R102, R103, R112: PQ_INSERT of an element completes while the heap is not full at HEAP_MAX; it adds exactly
that element, keeps the heap sound, and doubles HCAP exactly when HSIZE = HCAP. -/
def Obligations.PqInsertAddsElement : Prop :=
  ∀ (pay : Payload) (prio : Weight) (s : State), s.params.wf = true → s.queue.Ok s.params →
    s.queue.hsize.toNat < s.params.heapMax →
    ∃ t, exec (.pqInsert true pay prio) s = .next t ∧ t = { s with queue := t.queue, err := 0#4 } ∧
      t.queue.Ok s.params ∧ t.queue.hsize.toNat = s.queue.hsize.toNat + 1 ∧
      t.queue.live.Perm ({ prio := prio, pay := pay } :: s.queue.live) ∧
      t.queue.hcap.toNat =
        if s.queue.hsize = s.queue.hcap then 2 * s.queue.hcap.toNat else s.queue.hcap.toNat

/-- R108, R106, R112: PQ_REMOVE_MIN on a non-empty queue completes; it removes one element of least priority, puts it in
RESULT, keeps the heap sound and HCAP as it is. -/
def Obligations.PqRemoveMinReturnsMinimum : Prop :=
  ∀ s : State, s.params.wf = true → s.queue.Ok s.params → s.queue.hsize ≠ 0#16 →
    ∃ t e, exec .pqRemoveMin s = .next t ∧ t = { s with queue := t.queue, result := t.result, err := 0#4 } ∧
      t.queue.Ok s.params ∧ t.queue.hsize.toNat + 1 = s.queue.hsize.toNat ∧ t.queue.hcap = s.queue.hcap ∧
      s.queue.live.Perm (e :: t.queue.live) ∧ (∀ x, x ∈ s.queue.live → e.prio ≤ x.prio) ∧
      e = slotAt s.queue.slots 0 ∧
      t.result.extractLsb' 0 40 = e.prio ∧ t.result.extractLsb' 40 15 = e.pay ∧ t.result.extractLsb' 55 9 = 0#9

/-- R109: the empty signal, and no real element looks like it. -/
def Obligations.PqRemoveMinSignalsEmpty : Prop :=
  ∀ s : State,
    (s.queue.hsize = 0#16 →
      exec .pqRemoveMin s = .next { s with result := 0x8000000000000000#64, err := 0#4 }) ∧
    (s.queue.hsize ≠ 0#16 → ∃ t, exec .pqRemoveMin s = .next t ∧ t.result.getLsbD 63 = false ∧ t.err = 0#4)

/-- R110, R111: PQ_SIZE reports HSIZE; PQ_CLEAR empties the queue at initial capacity, its slots stale. Both complete in
every state. -/
def Obligations.PqSizeAndClear : Prop :=
  ∀ s : State,
    (∃ t, exec .pqSize s = .next t ∧ t = { s with result := t.result, err := 0#4 } ∧
      t.result.toNat = s.queue.hsize.toNat) ∧
    exec .pqClear s = .next
      { s with queue := { s.queue with hsize := 0#16, hcap := BitVec.ofNat 16 s.params.initCap }, err := 0#4 }

/-! ### Every command (spec/60_exceptions.md, spec/10_state.md) -/

/-- R214: a failing command, an illegal word included, writes ERR and changes nothing else, and emits no bit. -/
def Obligations.FailingCommandChangesErrOnly : Prop :=
  (∀ (i : Instr) (s t : State), exec i s = .next t → t.busy = false → t.err ≠ 0#4 → t = { s with err := t.err }) ∧
  ∀ (w : Word) (s t : State), runWord w s = .next t → t.busy = false → t.err ≠ 0#4 → t = { s with err := t.err }

/-- R219, R218, R210: a completed command reports the first cause of R219's table that applies, and OK when none does.
A NODE store has 511 entries (R37), so no state of a run has NNODE above 511. -/
def Obligations.FirstCauseIsReported : Prop :=
  ∀ (w : Word) (s t : State), s.nnode.toNat ≤ 511 → runWord w s = .next t → t.busy = false →
    (IllegalWord w → t.err = 5#4) ∧ ∀ i, decode w = .command i → t.err = firstCause i s

/-- R29, R25, R26, R27: who writes FTV, AV and BUILT, and how; no failing command does. -/
def Obligations.FlagWriters : Prop :=
  ∀ (i : Instr) (s t : State), exec i s = .next t →
    (t.ftv ≠ s.ftv → t.err = 0#4 ∧ (i = .freqClear ∨ ∃ sym count, i = .freqWrite sym count) ∧ t.ftv = true) ∧
    (t.av ≠ s.av → t.err = 0#4 ∧ ((i = .freqClear ∧ t.av = false) ∨
      ∃ sym count, i = .freqWrite sym count ∧ 256 ≤ sym.toNat ∧ t.av = true)) ∧
    (t.built ≠ s.built → t.err = 0#4 ∧ ((i = .freqClear ∧ t.built = false) ∨ (i = .build ∧ t.built = true)))

/-- R33, R34: who writes RESULT and CODE; every failing command leaves both. -/
def Obligations.ResultAndCodeWriters : Prop :=
  ∀ (i : Instr) (s t : State), exec i s = .next t →
    (t.result ≠ s.result → t.err = 0#4 ∧
      (i = .pqRemoveMin ∨ i = .pqSize ∨ (∃ x, i = .freqRead x) ∨ (∃ x, i = .nodeRead x) ∨ ∃ x, i = .statRead x)) ∧
    (t.code ≠ s.code → t.err = 0#4 ∧ ∃ x, i = .statRead x)

/-- R69: repeating a read-only command returns the same result and leaves the same state. -/
def Obligations.ReadOnlyCommandsRepeat : Prop :=
  ∀ (i : Instr) (s t : State), isReadOnly i = true → exec i s = .next t →
    exec i t = .next t ∧ t = { s with result := t.result, code := t.code, err := t.err }

/-- R160: a step that leaves BUILT = 1 from BUILT = 1 changes neither FREQ, NODE, TREE nor CT; BUILT falls only at
FREQ_CLEAR and reset; FREQ_WRITE fails with STATE_ERROR and BUILD is a no-op. -/
def Obligations.BuiltTablesAreImmutable : Prop :=
  ∀ s : State, s.built = true →
    (∀ t, step s = .next t →
      (t.built = true → t.freq = s.freq ∧ t.node = s.node ∧ t.ct = s.ct ∧ t.treeWord = s.treeWord) ∧
      (t.built = false → (∃ w s', nextAct s = some (.offer w, s') ∧ decode w = .command .freqClear) ∨
        ∃ s', nextAct s = some (.rst true, s'))) ∧
    (∀ sym count, exec (.freqWrite sym count) s = .next { s with err := 1#4 }) ∧
    (s.ftv = true → exec .build s = .next { s with err := 0#4 })

/-- R220, R252: no command faults, halts or is refused; every command but an ENCODE that waits for its sink leaves an
idle block idle. -/
def Obligations.EveryCommandCompletes : Prop :=
  ∀ (i : Instr) (s : State), s.busy = false →
    ∃ t, exec i s = .next t ∧
      (t.busy = true → ∃ sym y, i = .encode sym ∧ Names sym y ∧ ¬ s.sink.Accepts (s.codeOf y).length)

/-! ### Invariants -/

/-- R44: the reset state of every part meets the invariant, and so does `State.reset`. -/
def Obligations.ResetMeetsInvariant : Prop :=
  (∀ p : Params, p.wf = true → (State.resetOf p).Inv ∧ (State.resetOf p).TablesOk) ∧
    State.reset.Inv ∧ State.reset.TablesOk

/-- R28, R100, R7, R35, R210, R240: every step, whatever the host does, keeps the invariant. Its clause for RST = 1 names
the whole reset state, in which NODE, HEAP and CT are the model's choice (assumption 2). -/
def Obligations.StepKeepsInvariant : Prop :=
  ∀ s t : State, s.Inv → step s = .next t → t.Inv

/-- R27, R160: every step keeps the tree and the code table sound for FREQ while BUILT = 1. -/
def Obligations.StepKeepsTablesSound : Prop :=
  ∀ s t : State, s.Inv → s.TablesOk → step s = .next t → t.TablesOk

/-! ### Acts past a held word, and ties -/

/-- R64: a ready block takes the host's acts in order; while CMD_READY = 0 the offered words wait in place, and the first
act at another port is taken past them, whichever act it is and however many words wait. -/
def Obligations.OtherPortsGoOnPastHeldWords : Prop :=
  ∀ (s : State) (held : List Word) (a : HostAct) (rest : List HostAct),
    (s.cmdReady = true → s.host = a :: rest → nextAct s = some (a, { s with host := rest })) ∧
    (s.cmdReady = false → (∀ w, a ≠ .offer w) → s.host = offers held ++ a :: rest →
      nextAct s = some (a, { s with host := offers held ++ rest })) ∧
    (s.cmdReady = false → s.host = offers held → nextAct s = none)

/-- R103, R104: PQ_INSERT's element rises from slot HSIZE along its ancestors p 0, p 1, ... past exactly those of strictly
greater priority, each of which moves one down; it stops at the root or below one that is not greater, an equal one
included, and every other slot stays. -/
def Obligations.PqInsertRisesPastGreaterOnly : Prop :=
  ∀ (pay : Payload) (prio : Weight) (s : State), s.params.wf = true → s.queue.Ok s.params →
    s.queue.hsize.toNat < s.params.heapMax →
    ∃ (t : State) (d : Nat) (p : Nat → Nat), exec (.pqInsert true pay prio) s = .next t ∧
      p 0 = s.queue.hsize.toNat ∧
      (∀ j, j < d → 0 < p j ∧ p (j + 1) = (p j - 1) / 2 ∧ prio < (slotAt s.queue.slots (p (j + 1))).prio ∧
        slotAt t.queue.slots (p j) = slotAt s.queue.slots (p (j + 1))) ∧
      (p d = 0 ∨ (slotAt s.queue.slots ((p d - 1) / 2)).prio ≤ prio) ∧
      slotAt t.queue.slots (p d) = { prio := prio, pay := pay } ∧
      ∀ k, (∀ j, j ≤ d → k ≠ p j) → slotAt t.queue.slots k = slotAt s.queue.slots k

/-- R105, R106, D6: with n = HSIZE - 1 elements left, PQ_REMOVE_MIN's last element sinks from the root along p 0, p 1, ...:
past a left child that is strictly less than it and, where a right child exists, not greater than that one (so the left
one on a tie), or past a right child strictly less than it and strictly less than the left one; each of these moves one up.
It stops when it is not greater than any child, and every other slot stays; slot n has the removed element. -/
def Obligations.PqRemoveMinSinksTowardSmallerChild : Prop :=
  ∀ (s : State) (n : Nat), s.params.wf = true → s.queue.Ok s.params → s.queue.hsize.toNat = n + 1 → 1 ≤ n →
    ∃ (t : State) (d : Nat) (p : Nat → Nat), exec .pqRemoveMin s = .next t ∧ p 0 = 0 ∧
      (∀ j, j < d → p (j + 1) < n ∧
        (slotAt s.queue.slots (p (j + 1))).prio < (slotAt s.queue.slots n).prio ∧
        slotAt t.queue.slots (p j) = slotAt s.queue.slots (p (j + 1)) ∧
        ((p (j + 1) = 2 * p j + 1 ∧ (2 * p j + 2 < n →
            (slotAt s.queue.slots (2 * p j + 1)).prio ≤ (slotAt s.queue.slots (2 * p j + 2)).prio)) ∨
          (p (j + 1) = 2 * p j + 2 ∧
            (slotAt s.queue.slots (2 * p j + 2)).prio < (slotAt s.queue.slots (2 * p j + 1)).prio))) ∧
      (∀ c, c = 2 * p d + 1 ∨ c = 2 * p d + 2 → c < n →
        (slotAt s.queue.slots n).prio ≤ (slotAt s.queue.slots c).prio) ∧
      slotAt t.queue.slots (p d) = slotAt s.queue.slots n ∧
      slotAt t.queue.slots n = slotAt s.queue.slots 0 ∧
      ∀ k, k ≠ n → (∀ j, j ≤ d → k ≠ p j) → slotAt t.queue.slots k = slotAt s.queue.slots k
end

