-- ==== Sys2Proof/Laws/Heap.lean ====
section
/-! SUPPORT. What the heap's internal operations do (spec/40_priority_queue_heap.md R100 to R106): they permute the live
slots, leave the others alone, and restore the min-heap property. -/

namespace Sys2Proof.Machine

open Sys2Proof

/-! ### Slots and swaps -/

theorem slotAt_of_lt (h : List HeapEntry) (i : Nat) (hi : i < h.length) : slotAt h i = h[i] := by
  simp [slotAt, List.getD_eq_getElem?_getD, hi]

theorem slotAt_set (h : List HeapEntry) (i : Nat) (e : HeapEntry) (k : Nat) (hi : i < h.length) :
    slotAt (h.set i e) k = if k = i then e else slotAt h k := by
  unfold slotAt
  rw [List.getD_eq_getElem?_getD, List.getD_eq_getElem?_getD, List.getElem?_set]
  by_cases hk : k = i
  · subst hk; simp [hi]
  · simp [hk, Ne.symm hk]

@[simp] theorem length_swapSlots (h : List HeapEntry) (i j : Nat) : (swapSlots h i j).length = h.length := by
  simp [swapSlots]

theorem slotAt_swapSlots (h : List HeapEntry) (i j k : Nat) (hi : i < h.length) (hj : j < h.length) :
    slotAt (swapSlots h i j) k = if k = j then slotAt h i else if k = i then slotAt h j else slotAt h k := by
  unfold swapSlots
  rw [slotAt_set _ _ _ _ (by simpa using hj), slotAt_set _ _ _ _ hi]

/-- The live elements are the first n slots. -/
theorem take_eq_map_slotAt (h : List HeapEntry) (n : Nat) (hn : n ≤ h.length) :
    h.take n = (List.range n).map (slotAt h) := by
  apply List.ext_getElem
  · simp [hn]
  · intro k h1 h2
    have hk : k < h.length := by simp at h1; omega
    simp [slotAt_of_lt h k hk]

/-- Swapping two of the first n slots permutes them. -/
theorem take_swapSlots_perm (h : List HeapEntry) (i j n : Nat) (hn : n ≤ h.length) (hi : i < n) (hj : j < n) :
    ((swapSlots h i j).take n).Perm (h.take n) := by
  rw [take_eq_map_slotAt _ _ (by simpa using hn), take_eq_map_slotAt _ _ hn]
  have hcomp : (List.range n).map (slotAt (swapSlots h i j)) =
      ((List.range n).map (Equiv.swap i j)).map (slotAt h) := by
    rw [List.map_map]
    apply List.map_congr_left
    intro k _
    rw [slotAt_swapSlots h i j k (by omega) (by omega), Function.comp_apply, Equiv.swap_apply_def]
    by_cases h1 : k = j
    · subst h1; by_cases h2 : k = i <;> simp [h2]
    · by_cases h2 : k = i
      · subst h2; simp [h1]
      · simp [h1, h2]
  rw [hcomp]
  refine List.Perm.map _ ?_
  refine (List.perm_ext_iff_of_nodup ?_ List.nodup_range).2 ?_
  · exact List.nodup_range.map (Equiv.swap i j).injective
  · intro k
    simp only [List.mem_map, List.mem_range]
    constructor
    · rintro ⟨m, hm, rfl⟩
      rw [Equiv.swap_apply_def]
      split
      · exact hj
      · split
        · exact hi
        · exact hm
    · intro hk
      refine ⟨Equiv.swap i j k, ?_, Equiv.swap_apply_self i j k⟩
      rw [Equiv.swap_apply_def]
      split
      · exact hj
      · split
        · exact hi
        · exact hk

/-! ### Parents and children -/

theorem parentOf_lt {i : Nat} (hi : 1 ≤ i) : parentOf i < i := by unfold parentOf; omega

theorem parentOf_eq_iff {i j : Nat} (hj : 1 ≤ j) : parentOf j = i ↔ j = 2 * i + 1 ∨ j = 2 * i + 2 := by
  unfold parentOf; omega

/-- The min-heap property of the first n slots, but for the edge above i. -/
def OrderedBut (h : List HeapEntry) (n i : Nat) : Prop :=
  ∀ j, 1 ≤ j → j < n → j ≠ i → (slotAt h (parentOf j)).prio ≤ (slotAt h j).prio

/-- The min-heap property of the first n slots (R100). -/
def OrderedTo (h : List HeapEntry) (n : Nat) : Prop :=
  ∀ j, 1 ≤ j → j < n → (slotAt h (parentOf j)).prio ≤ (slotAt h j).prio

/-- i's children are not below i's parent. -/
def GrandOrdered (h : List HeapEntry) (n i : Nat) : Prop :=
  ∀ j, 1 ≤ j → j < n → parentOf j = i → 1 ≤ i → (slotAt h (parentOf i)).prio ≤ (slotAt h j).prio

/-- The root of an ordered heap is a least element (R112). -/
theorem OrderedTo.root_le {h : List HeapEntry} {n : Nat} (ho : OrderedTo h n) :
    ∀ i, i < n → (slotAt h 0).prio ≤ (slotAt h i).prio := by
  intro i
  induction i using Nat.strong_induction_on with
  | _ i ih =>
    intro hi
    rcases Nat.eq_zero_or_pos i with rfl | hpos
    · exact BitVec.le_refl _
    · exact BitVec.le_trans (ih _ (parentOf_lt hpos) (lt_trans (parentOf_lt hpos) hi)) (ho i hpos hi)

/-! ### sift_up (R104) -/

@[simp] theorem length_siftUp (fuel : Nat) (h : List HeapEntry) (i : Nat) : (siftUp fuel h i).length = h.length := by
  induction fuel generalizing h i with
  | zero => rfl
  | succ fuel ih =>
    unfold siftUp
    split
    · rw [ih, length_swapSlots]
    · rfl

/-- sift_up permutes the first n slots and leaves the rest alone. -/
theorem siftUp_take_perm (fuel : Nat) (h : List HeapEntry) (i n : Nat) (hn : n ≤ h.length) (hi : i < n) :
    ((siftUp fuel h i).take n).Perm (h.take n) := by
  induction fuel generalizing h i with
  | zero => exact List.Perm.refl _
  | succ fuel ih =>
    unfold siftUp
    split
    · rename_i hc
      have hp := parentOf_lt hc.1
      exact (ih _ _ (by simpa using hn) (by omega)).trans (take_swapSlots_perm h i _ n hn hi (by omega))
    · exact List.Perm.refl _

theorem slotAt_siftUp_above (fuel : Nat) (h : List HeapEntry) (i k : Nat) (hi : i < h.length) (hk : i < k) :
    slotAt (siftUp fuel h i) k = slotAt h k := by
  induction fuel generalizing h i with
  | zero => rfl
  | succ fuel ih =>
    unfold siftUp
    split
    · rename_i hc
      have hp := parentOf_lt hc.1
      rw [ih _ _ (by rw [length_swapSlots]; omega) (by omega), slotAt_swapSlots h i _ k hi (by omega)]
      simp [show k ≠ parentOf i by omega, show k ≠ i by omega]
    · rfl

/-- sift_up from slot i repairs a heap that is ordered but for the edge above i (R104). -/
theorem siftUp_ordered (fuel : Nat) (h : List HeapEntry) (i n : Nat) (hn : n ≤ h.length) (hi : i < n) (hf : i ≤ fuel)
    (hb : OrderedBut h n i) (hg : GrandOrdered h n i) : OrderedTo (siftUp fuel h i) n := by
  induction fuel generalizing h i with
  | zero =>
    intro j h1 h2
    exact hb j h1 h2 (by omega)
  | succ fuel ih =>
    unfold siftUp
    split
    · rename_i hc
      obtain ⟨h0, hlt⟩ := hc
      have hp := parentOf_lt h0
      have hil : i < h.length := by omega
      have hpl : parentOf i < h.length := by omega
      apply ih
      · simpa using hn
      · omega
      · omega
      · intro j h1 h2 hne
        rw [slotAt_swapSlots h i _ _ hil hpl, slotAt_swapSlots h i _ _ hil hpl]
        by_cases hji : j = i
        · subst hji
          simp only [if_true, if_neg (show j ≠ parentOf j by omega)]
          exact BitVec.le_of_lt hlt
        · rw [if_neg hne, if_neg hji]
          by_cases hpj : parentOf j = parentOf i
          · rw [if_pos hpj]
            exact BitVec.le_trans (BitVec.le_of_lt hlt) (hpj ▸ hb j h1 h2 hji)
          · rw [if_neg hpj]
            by_cases hpi : parentOf j = i
            · rw [if_pos hpi]
              exact hg j h1 h2 hpi h0
            · rw [if_neg hpi]
              exact hb j h1 h2 hji
      · intro j h1 h2 hpj hpp
        have hpp' := parentOf_lt hpp
        rw [slotAt_swapSlots h i _ _ hil hpl, slotAt_swapSlots h i _ _ hil hpl,
          if_neg (show parentOf (parentOf i) ≠ parentOf i by omega), if_neg (show parentOf (parentOf i) ≠ i by omega),
          if_neg (show j ≠ parentOf i by have := parentOf_lt h1; omega)]
        have hedge := hb (parentOf i) hpp (by omega) (by omega)
        by_cases hji : j = i
        · rw [if_pos hji]; exact hedge
        · rw [if_neg hji]
          exact BitVec.le_trans hedge (hpj ▸ hb j h1 h2 hji)
    · rename_i hc
      intro j h1 h2
      by_cases hji : j = i
      · subst hji
        exact BitVec.not_lt.1 fun hlt => hc ⟨h1, hlt⟩
      · exact hb j h1 h2 hji

/-! ### sift_down (R105) -/

@[simp] theorem length_siftDown (fuel : Nat) (h : List HeapEntry) (n i : Nat) :
    (siftDown fuel h n i).length = h.length := by
  induction fuel generalizing h i with
  | zero => rfl
  | succ fuel ih =>
    unfold siftDown
    split
    · rw [ih, length_swapSlots]
    · rfl

/-- The smaller child is one of the two, exists when the left one does, and is at most the other (R105). -/
theorem smallerChild_spec (h : List HeapEntry) (n i : Nat) (hl : 2 * i + 1 < n) :
    (smallerChild h n i = 2 * i + 1 ∨ smallerChild h n i = 2 * i + 2) ∧ smallerChild h n i < n ∧
      ∀ j, j < n → (j = 2 * i + 1 ∨ j = 2 * i + 2) → (slotAt h (smallerChild h n i)).prio ≤ (slotAt h j).prio := by
  unfold smallerChild
  split
  · rename_i hc
    refine ⟨.inr rfl, hc.1, ?_⟩
    rintro j hj (rfl | rfl)
    · exact BitVec.le_of_lt hc.2
    · exact BitVec.le_refl _
  · rename_i hc
    refine ⟨.inl rfl, hl, ?_⟩
    rintro j hj (rfl | rfl)
    · exact BitVec.le_refl _
    · exact BitVec.not_lt.1 fun hlt => hc ⟨hj, hlt⟩

/-- sift_down in a heap of n elements permutes its slots and leaves the rest alone. -/
theorem siftDown_take_perm (fuel : Nat) (h : List HeapEntry) (n i : Nat) (hn : n ≤ h.length) :
    ((siftDown fuel h n i).take n).Perm (h.take n) := by
  induction fuel generalizing h i with
  | zero => exact List.Perm.refl _
  | succ fuel ih =>
    unfold siftDown
    split
    · rename_i hc
      have hs := smallerChild_spec h n i hc.1
      exact (ih _ _ (by simpa using hn)).trans (take_swapSlots_perm h i _ n hn (by omega) hs.2.1)
    · exact List.Perm.refl _

theorem slotAt_siftDown_above (fuel : Nat) (h : List HeapEntry) (n i k : Nat) (hn : n ≤ h.length) (hk : n ≤ k) :
    slotAt (siftDown fuel h n i) k = slotAt h k := by
  induction fuel generalizing h i with
  | zero => rfl
  | succ fuel ih =>
    unfold siftDown
    split
    · rename_i hc
      have hs := smallerChild_spec h n i hc.1
      rw [ih _ _ (by simpa using hn), slotAt_swapSlots h i _ k (by omega) (by omega)]
      simp [show k ≠ smallerChild h n i by omega, show k ≠ i by omega]
    · rfl

/-- The min-heap property of the first n slots, but for the edges below i. -/
def OrderedAbove (h : List HeapEntry) (n i : Nat) : Prop :=
  ∀ j, 1 ≤ j → j < n → parentOf j ≠ i → (slotAt h (parentOf j)).prio ≤ (slotAt h j).prio

/-- sift_down from slot i repairs a heap that is ordered but for the edges below i (R105). -/
theorem siftDown_ordered (fuel : Nat) (h : List HeapEntry) (n i : Nat) (hn : n ≤ h.length) (hf : n ≤ fuel + i)
    (hb : OrderedAbove h n i) (hg : GrandOrdered h n i) : OrderedTo (siftDown fuel h n i) n := by
  induction fuel generalizing h i with
  | zero =>
    intro j h1 h2
    refine hb j h1 h2 ?_
    have := parentOf_lt h1
    omega
  | succ fuel ih =>
    unfold siftDown
    split
    · rename_i hc
      obtain ⟨hl, hlt⟩ := hc
      obtain ⟨hmc, hmn, hmin⟩ := smallerChild_spec h n i hl
      generalize smallerChild h n i = m at hmc hmn hmin hlt ⊢
      have hil : i < h.length := by omega
      have hml : m < h.length := by omega
      have hpm : parentOf m = i := (parentOf_eq_iff (by omega)).2 hmc
      apply ih
      · simpa using hn
      · omega
      · intro j h1 h2 hne
        rw [slotAt_swapSlots h i _ _ hil hml, slotAt_swapSlots h i _ _ hil hml, if_neg hne]
        by_cases hjm : j = m
        · subst hjm
          rw [if_pos hpm, if_pos rfl]
          exact BitVec.le_of_lt hlt
        · rw [if_neg hjm]
          by_cases hpi : parentOf j = i
          · rw [if_pos hpi, if_neg (show j ≠ i by have := parentOf_lt h1; omega)]
            exact hmin j h2 ((parentOf_eq_iff h1).1 hpi)
          · rw [if_neg hpi]
            by_cases hji : j = i
            · subst hji
              rw [if_pos rfl]
              exact hg m (by omega) hmn hpm h1
            · rw [if_neg hji]
              exact hb j h1 h2 hpi
      · intro j h1 h2 hpj hm1
        have hjm := parentOf_lt h1
        rw [slotAt_swapSlots h i _ _ hil hml, slotAt_swapSlots h i _ _ hil hml, hpm,
          if_neg (show i ≠ m by omega), if_pos rfl, if_neg (show j ≠ m by omega), if_neg (show j ≠ i by omega)]
        exact hpj ▸ hb j h1 h2 (by omega)
    · rename_i hc
      intro j h1 h2
      by_cases hpi : parentOf j = i
      · have hj := (parentOf_eq_iff h1).1 hpi
        have hl : 2 * i + 1 < n := by omega
        obtain ⟨_, _, hmin⟩ := smallerChild_spec h n i hl
        rw [hpi]
        exact BitVec.le_trans (BitVec.not_lt.1 fun hlt => hc ⟨hl, hlt⟩) (hmin j h2 hj)
      · exact hb j h1 h2 hpi

/-! ### The paths of the sifts (R104, R105, D6): exactly which slots move, ties included -/

/-- sift_up from slot i: the element rises past exactly its strictly greater ancestors, each of which moves one down. -/
theorem siftUp_path (fuel : Nat) (h : List HeapEntry) (i : Nat) (hi : i < h.length) (hf : i ≤ fuel) :
    ∃ (d : Nat) (p : Nat → Nat), p 0 = i ∧
      (∀ j, j < d → 0 < p j ∧ p (j + 1) = parentOf (p j) ∧ (slotAt h i).prio < (slotAt h (p (j + 1))).prio ∧
        slotAt (siftUp fuel h i) (p j) = slotAt h (p (j + 1))) ∧
      (p d = 0 ∨ ¬ (slotAt h i).prio < (slotAt h (parentOf (p d))).prio) ∧
      slotAt (siftUp fuel h i) (p d) = slotAt h i ∧
      ∀ k, (∀ j, j ≤ d → k ≠ p j) → slotAt (siftUp fuel h i) k = slotAt h k := by
  induction fuel generalizing h i with
  | zero => exact ⟨0, fun _ => i, rfl, by simp, .inl (Nat.le_zero.1 hf), rfl, fun _ _ => rfl⟩
  | succ fuel ih =>
    unfold siftUp
    split
    · rename_i hc
      have hq := parentOf_lt hc.1
      have hql : parentOf i < h.length := by omega
      obtain ⟨d, p, p0, pstep, pstop, pend, pelse⟩ :=
        ih (swapSlots h i (parentOf i)) (parentOf i) (by simpa using hql) (by omega)
      have hat := fun k => slotAt_swapSlots h i (parentOf i) k hi hql
      have hlow : ∀ k, k < parentOf i → slotAt (swapSlots h i (parentOf i)) k = slotAt h k := fun k hk => by
        rw [hat k, if_neg (by omega), if_neg (by omega)]
      have hself : slotAt (swapSlots h i (parentOf i)) (parentOf i) = slotAt h i := by rw [hat, if_pos rfl]
      rw [hself] at pstep pstop pend
      have hpb : ∀ j, j ≤ d → p j ≤ parentOf i := by
        intro j
        induction j with
        | zero => intro _; omega
        | succ j ihj =>
          intro hj
          obtain ⟨h1, h2, -⟩ := pstep j (by omega)
          have := parentOf_lt h1
          have := ihj (by omega)
          omega
      have hpq : ∀ j, j < d → slotAt (swapSlots h i (parentOf i)) (p (j + 1)) = slotAt h (p (j + 1)) := by
        intro j hj
        obtain ⟨h1, h2, -⟩ := pstep j hj
        have := parentOf_lt h1
        have := hpb j (by omega)
        exact hlow _ (by omega)
      refine ⟨d + 1, fun j => Nat.casesOn j i p, rfl, ?_, ?_, pend, ?_⟩
      · intro j hj
        cases j with
        | zero =>
          refine ⟨hc.1, p0, by simpa only [p0] using hc.2, ?_⟩
          show slotAt _ i = slotAt h (p 0)
          rw [pelse i fun j hj => by have := hpb j hj; omega, hat, if_neg (by omega), if_pos rfl, p0]
        | succ j =>
          obtain ⟨h1, h2, h3, h4⟩ := pstep j (by omega)
          rw [hpq j (by omega)] at h3 h4
          exact ⟨h1, h2, h3, h4⟩
      · rcases Nat.eq_zero_or_pos (p d) with h0 | hpos
        · exact .inl h0
        · have := parentOf_lt hpos
          have := hpb d (Nat.le_refl d)
          rw [hlow _ (by omega)] at pstop
          exact pstop
      · intro k hk
        have h0 : k ≠ i := hk 0 (by omega)
        have hs : ∀ j, j ≤ d → k ≠ p j := fun j hj => hk (j + 1) (by omega)
        rw [pelse k hs, hat, if_neg (by have := hs 0 (by omega); omega), if_neg h0]
    · rename_i hc
      refine ⟨0, fun _ => i, rfl, by simp, ?_, rfl, fun _ _ => rfl⟩
      rcases Nat.eq_zero_or_pos i with h0 | hpos
      · exact .inl h0
      · exact .inr fun hlt => hc ⟨hpos, hlt⟩

/-- sift_down from slot i in a heap of n elements: the element sinks past exactly the smaller children (the left one on a
tie) that are strictly less, each of which moves one up. -/
theorem siftDown_path (fuel : Nat) (h : List HeapEntry) (n i : Nat) (hn : n ≤ h.length) (hi : i < n)
    (hf : n ≤ fuel + i) :
    ∃ (d : Nat) (p : Nat → Nat), p 0 = i ∧
      (∀ j, j < d → 2 * p j + 1 < n ∧ p (j + 1) = smallerChild h n (p j) ∧ p (j + 1) < n ∧
        (slotAt h (p (j + 1))).prio < (slotAt h i).prio ∧
        slotAt (siftDown fuel h n i) (p j) = slotAt h (p (j + 1))) ∧
      (2 * p d + 1 < n → ¬ (slotAt h (smallerChild h n (p d))).prio < (slotAt h i).prio) ∧
      slotAt (siftDown fuel h n i) (p d) = slotAt h i ∧
      ∀ k, (∀ j, j ≤ d → k ≠ p j) → slotAt (siftDown fuel h n i) k = slotAt h k := by
  induction fuel generalizing h i with
  | zero => omega
  | succ fuel ih =>
    unfold siftDown
    split
    · rename_i hc
      obtain ⟨hl, hlt⟩ := hc
      obtain ⟨hmc, hmn, -⟩ := smallerChild_spec h n i hl
      generalize hm : smallerChild h n i = m at hmc hmn hlt ⊢
      have hil : i < h.length := by omega
      have hml : m < h.length := by omega
      obtain ⟨d, p, p0, pstep, pstop, pend, pelse⟩ := ih (swapSlots h i m) m (by simpa using hn) hmn (by omega)
      have hat := fun k => slotAt_swapSlots h i m k hil hml
      have hhigh : ∀ k, m < k → slotAt (swapSlots h i m) k = slotAt h k := fun k hk => by
        rw [hat k, if_neg (by omega), if_neg (by omega)]
      have hsc : ∀ x, m ≤ x → smallerChild (swapSlots h i m) n x = smallerChild h n x := fun x hx => by
        unfold smallerChild
        rw [hhigh _ (by omega), hhigh _ (by omega)]
      have hself : slotAt (swapSlots h i m) m = slotAt h i := by rw [hat, if_pos rfl]
      rw [hself] at pstep pstop pend
      have hpb : ∀ j, j ≤ d → m ≤ p j := by
        intro j
        induction j with
        | zero => intro _; omega
        | succ j ihj =>
          intro hj
          obtain ⟨h1, h2, -⟩ := pstep j (by omega)
          have := (smallerChild_spec (swapSlots h i m) n (p j) h1).1
          have := ihj (by omega)
          omega
      have hps : ∀ j, j < d → m < p (j + 1) := by
        intro j hj
        obtain ⟨h1, h2, -⟩ := pstep j hj
        have := (smallerChild_spec (swapSlots h i m) n (p j) h1).1
        have := hpb j (by omega)
        omega
      refine ⟨d + 1, fun j => Nat.casesOn j i p, rfl, ?_, ?_, pend, ?_⟩
      · intro j hj
        cases j with
        | zero =>
          refine ⟨hl, p0.trans hm.symm, by simpa only [p0] using hmn, by simpa only [p0] using hlt, ?_⟩
          show slotAt _ i = slotAt h (p 0)
          rw [pelse i fun j hj => by have := hpb j hj; omega, hat, if_neg (by omega), if_pos rfl, p0]
        | succ j =>
          obtain ⟨h1, h2, h3, h4, h5⟩ := pstep j (by omega)
          rw [hhigh _ (hps j (by omega))] at h4 h5
          rw [hsc _ (hpb j (by omega))] at h2
          exact ⟨h1, h2, h3, h4, h5⟩
      · intro hd
        have hmd := hpb d (Nat.le_refl d)
        have hcd := (smallerChild_spec h n (p d) hd).1
        have := pstop hd
        rwa [hsc _ hmd, hhigh _ (by omega)] at this
      · intro k hk
        have h0 : k ≠ i := hk 0 (by omega)
        have hs : ∀ j, j ≤ d → k ≠ p j := fun j hj => hk (j + 1) (by omega)
        rw [pelse k hs, hat, if_neg (by have := hs 0 (by omega); omega), if_neg h0]
    · rename_i hc
      exact ⟨0, fun _ => i, rfl, by simp, fun hl hlt => hc ⟨hl, hlt⟩, rfl, fun _ _ => rfl⟩

end Sys2Proof.Machine
end

