-- ==== Sys2Proof/Laws/Queue.lean ====
section
/-! SUPPORT. What `pq_insert` and `pq_remove_min` do to a sound queue (spec/40_priority_queue_heap.md R102, R103, R106,
R112). -/

namespace Sys2Proof

/-! ### The parameters (R7) -/

theorem Params.heapMax_le (p : Params) : p.heapMax ≤ 32768 := by
  have h : (2 : Nat) ^ p.heapMaxLog.val ≤ 2 ^ 15 := Nat.pow_le_pow_right (by omega) (by omega)
  simpa [Params.heapMax] using h

theorem Params.initCap_le (p : Params) : p.initCap ≤ 32768 := by
  have h : (2 : Nat) ^ p.initCapLog.val ≤ 2 ^ 15 := Nat.pow_le_pow_right (by omega) (by omega)
  simpa [Params.initCap] using h

theorem Params.initCap_pos (p : Params) : 1 ≤ p.initCap := Nat.one_le_two_pow

theorem Params.heapMax_ge {p : Params} (hp : p.wf = true) : 256 ≤ p.heapMax := by
  simp only [Params.wf, Bool.and_eq_true, decide_eq_true_eq] at hp
  have h : (2 : Nat) ^ 8 ≤ 2 ^ p.heapMaxLog.val := Nat.pow_le_pow_right (by omega) hp.1
  simpa [Params.heapMax] using h

theorem Params.initCap_le_heapMax {p : Params} (hp : p.wf = true) : p.initCap ≤ p.heapMax := by
  simp only [Params.wf, Bool.and_eq_true, decide_eq_true_eq] at hp
  exact Nat.pow_le_pow_right (by omega) hp.2

/-- A capacity below HEAP_MAX can be doubled (R102). -/
theorem Params.double_le_heapMax (p : Params) (k : Nat) (h : p.initCap * 2 ^ k < p.heapMax) :
    p.initCap * 2 ^ (k + 1) ≤ p.heapMax := by
  unfold Params.initCap Params.heapMax at *
  rw [← Nat.pow_add] at *
  exact Nat.pow_le_pow_right (by omega) ((Nat.pow_lt_pow_iff_right (by omega : 1 < 2)).1 h)

end Sys2Proof

namespace Sys2Proof.Machine

open Sys2Proof

/-! ### The fresh queue -/

@[simp] theorem Queue.fresh_slots (p : Params) (q : Queue) : (q.fresh p).slots = q.slots := rfl
@[simp] theorem Queue.fresh_hsize (p : Params) (q : Queue) : (q.fresh p).hsize = 0#16 := rfl
@[simp] theorem Queue.fresh_hcap (p : Params) (q : Queue) : (q.fresh p).hcap = BitVec.ofNat 16 p.initCap := rfl

theorem Queue.fresh_hcap_toNat (p : Params) (q : Queue) : (q.fresh p).hcap.toNat = p.initCap := by
  have := p.initCap_le
  simp [BitVec.toNat_ofNat]; omega

/-- A fresh queue is sound (R111). -/
theorem Queue.fresh_ok {p : Params} (hp : p.wf = true) (q : Queue) (hl : q.slots.length = p.heapMax) :
    (q.fresh p).Ok p where
  slots_length := hl
  hsize_le := by simp
  hcap_le := by rw [Queue.fresh_hcap_toNat]; exact Params.initCap_le_heapMax hp
  hcap_doubled := ⟨0, by rw [Queue.fresh_hcap_toNat]; simp⟩
  ordered := fun i _ h => absurd h (by simp)

/-! ### pq_insert -/

@[simp] theorem Queue.append_hcap (q : Queue) (e : HeapEntry) : (q.append e).hcap = q.hcap := rfl

@[simp] theorem Queue.append_slots_length (q : Queue) (e : HeapEntry) :
    (q.append e).slots.length = q.slots.length := by simp [Queue.append]

theorem Queue.append_hsize (q : Queue) (e : HeapEntry) (h : q.hsize.toNat < 32768) :
    (q.append e).hsize.toNat = q.hsize.toNat + 1 := by
  simp [Queue.append, BitVec.toNat_add]; omega

/-- An append adds exactly the element (R103). -/
theorem Queue.append_live_perm (q : Queue) (e : HeapEntry) (h : q.hsize.toNat < 32768)
    (hl : q.hsize.toNat < q.slots.length) : (q.append e).live.Perm (e :: q.live) := by
  unfold Queue.live
  rw [Queue.append_hsize q e h]
  have h1 := siftUp_take_perm q.hsize.toNat (q.slots.set q.hsize.toNat e) q.hsize.toNat (q.hsize.toNat + 1)
    (by simp; omega) (by omega)
  refine h1.trans ?_
  rw [List.take_add_one, List.take_set_of_le (by omega), List.getElem?_set]
  simp only [if_true, hl, Option.toList_some]
  exact List.perm_append_comm

/-- An append keeps the min-heap property (R103, R104). -/
theorem Queue.append_ordered (q : Queue) (e : HeapEntry) (h : q.hsize.toNat < 32768)
    (hl : q.hsize.toNat < q.slots.length) (ho : q.Ordered) : (q.append e).Ordered := by
  unfold Queue.Ordered
  rw [Queue.append_hsize q e h]
  show OrderedTo (siftUp _ _ _) _
  refine siftUp_ordered _ _ _ _ (by simp; omega) (by omega) (le_refl _) ?_ ?_
  · intro j h1 h2 hne
    have hp := parentOf_lt h1
    rw [slotAt_set _ _ _ _ hl, slotAt_set _ _ _ _ hl, if_neg hne, if_neg (by omega)]
    exact ho j h1 (by omega)
  · intro j h1 h2 hpj _
    have hp := parentOf_lt h1
    omega

/-- What `pq_insert` does to a sound queue below HEAP_MAX (R102, R103): it succeeds, adds exactly the element, keeps the
queue sound, and doubles HCAP exactly when HSIZE = HCAP. -/
theorem Queue.insert_spec {p : Params} (q : Queue) (e : HeapEntry) (hq : q.Ok p)
    (hlt : q.hsize.toNat < p.heapMax) :
    ∃ q', q.insert p e = some q' ∧ q'.Ok p ∧ q'.hsize.toNat = q.hsize.toNat + 1 ∧ q'.live.Perm (e :: q.live) ∧
      q'.hcap.toNat = if q.hsize = q.hcap then 2 * q.hcap.toNat else q.hcap.toNat := by
  have hmax := p.heapMax_le
  obtain ⟨hlen, hsz, hcap, ⟨k, hk⟩, hord⟩ := hq
  unfold Queue.insert
  by_cases heq : q.hsize = q.hcap
  · have hclt : q.hcap.toNat < p.heapMax := by rw [← heq]; exact hlt
    have hdbl : q.hcap.toNat + q.hcap.toNat ≤ p.heapMax := by
      have := p.double_le_heapMax k (by omega)
      rw [Nat.pow_succ] at this
      calc q.hcap.toNat + q.hcap.toNat = p.initCap * (2 ^ k * 2) := by rw [hk]; ring
        _ ≤ p.heapMax := this
    have hdn : (q.hcap + q.hcap).toNat = q.hcap.toNat + q.hcap.toNat := by
      rw [BitVec.toNat_add, Nat.mod_eq_of_lt]; omega
    rw [if_pos heq, if_neg (by omega), if_pos heq]
    refine ⟨_, rfl, ⟨?_, ?_, ?_, ?_, ?_⟩, ?_, ?_, ?_⟩
    · rw [Queue.append_slots_length]; exact hlen
    · rw [Queue.append_hsize _ _ (by show q.hsize.toNat < _; omega), Queue.append_hcap]
      show q.hsize.toNat + 1 ≤ (q.hcap + q.hcap).toNat
      have hpos : 1 ≤ q.hcap.toNat := by rw [hk]; exact Nat.mul_pos p.initCap_pos (by positivity)
      have := congrArg BitVec.toNat heq
      omega
    · rw [Queue.append_hcap]
      show (q.hcap + q.hcap).toNat ≤ _
      omega
    · refine ⟨k + 1, ?_⟩
      rw [Queue.append_hcap]
      show (q.hcap + q.hcap).toNat = _
      rw [hdn, hk]; ring
    · exact Queue.append_ordered _ e (by show q.hsize.toNat < _; omega) (by show q.hsize.toNat < q.slots.length; omega) hord
    · exact Queue.append_hsize _ e (by show q.hsize.toNat < _; omega)
    · exact Queue.append_live_perm _ e (by show q.hsize.toNat < _; omega) (by show q.hsize.toNat < q.slots.length; omega)
    · rw [Queue.append_hcap]
      show (q.hcap + q.hcap).toNat = _
      omega
  · rw [if_neg heq, if_neg heq]
    have hne : q.hsize.toNat ≠ q.hcap.toNat := fun h => heq (BitVec.eq_of_toNat_eq h)
    refine ⟨_, rfl, ⟨?_, ?_, ?_, ⟨k, ?_⟩, ?_⟩, ?_, ?_, ?_⟩
    · rw [Queue.append_slots_length]; exact hlen
    · rw [Queue.append_hsize _ _ (by omega), Queue.append_hcap]; omega
    · exact hcap
    · exact hk
    · exact Queue.append_ordered q e (by omega) (by omega) hord
    · exact Queue.append_hsize q e (by omega)
    · exact Queue.append_live_perm q e (by omega) (by omega)
    · rfl

/-! ### pq_remove_min -/

/-- What `pq_remove_min` does to a sound, non-empty queue (R106, R112): it returns the element at slot 0, which is a
least one, takes exactly it away, and keeps the queue sound and HCAP as it is. -/
theorem Queue.removeMin_spec {p : Params} (q : Queue) (hq : q.Ok p) (hne : q.hsize ≠ 0#16) :
    ∃ e q', q.removeMin = some (e, q') ∧ q'.Ok p ∧ q'.hsize.toNat + 1 = q.hsize.toNat ∧ q'.hcap = q.hcap ∧
      q.live.Perm (e :: q'.live) ∧ (∀ x, x ∈ q.live → e.prio ≤ x.prio) ∧ e = slotAt q.slots 0 := by
  have hmax := p.heapMax_le
  obtain ⟨hlen, hsz, hcap, hk, hord⟩ := hq
  have hpos : 0 < q.hsize.toNat := Nat.pos_of_ne_zero fun h => hne (BitVec.eq_of_toNat_eq (by simpa using h))
  have hlast : q.hsize.toNat - 1 < q.slots.length := by omega
  have h0 : 0 < q.slots.length := by omega
  have hsub : (q.hsize - 1#16).toNat = q.hsize.toNat - 1 := by
    rw [BitVec.toNat_sub_of_le]
    · rfl
    · rw [BitVec.le_def]; exact hpos
  have hroot : slotAt (swapSlots q.slots 0 (q.hsize.toNat - 1)) (q.hsize.toNat - 1) = slotAt q.slots 0 := by
    rw [slotAt_swapSlots _ _ _ _ h0 hlast, if_pos rfl]
  refine ⟨slotAt q.slots 0, { q with
    slots := siftDown (q.hsize.toNat - 1) (swapSlots q.slots 0 (q.hsize.toNat - 1)) (q.hsize.toNat - 1) 0,
    hsize := q.hsize - 1#16 }, ?_, ⟨?_, ?_, hcap, hk, ?_⟩, ?_, rfl, ?_, ?_, rfl⟩
  · unfold Queue.removeMin
    rw [if_neg hne]
    simp only [hroot]
  · simpa using hlen
  · show (q.hsize - 1#16).toNat ≤ q.hcap.toNat
    omega
  · intro i h1 h2
    change i < (q.hsize - 1#16).toNat at h2
    rw [hsub] at h2
    refine siftDown_ordered _ _ _ _ (by simp; omega) (by omega) ?_ ?_ i h1 h2
    · intro j hj1 hj2 hpj
      have hp := parentOf_lt hj1
      rw [slotAt_swapSlots _ _ _ _ h0 hlast, slotAt_swapSlots _ _ _ _ h0 hlast, if_neg (by omega), if_neg hpj,
        if_neg (by omega), if_neg (by omega)]
      exact hord j hj1 (by omega)
    · intro j _ _ _ h
      omega
  · show (q.hsize - 1#16).toNat + 1 = _
    omega
  · unfold Queue.live
    show (q.slots.take q.hsize.toNat).Perm (_ :: List.take (q.hsize - 1#16).toNat _)
    rw [hsub]
    have h1 := take_swapSlots_perm q.slots 0 (q.hsize.toNat - 1) q.hsize.toNat (by omega) (by omega) (by omega)
    have h2 := siftDown_take_perm (q.hsize.toNat - 1) (swapSlots q.slots 0 (q.hsize.toNat - 1)) (q.hsize.toNat - 1) 0
      (by simp; omega)
    refine h1.symm.trans ?_
    have h3 : (swapSlots q.slots 0 (q.hsize.toNat - 1)).take q.hsize.toNat =
        (swapSlots q.slots 0 (q.hsize.toNat - 1)).take (q.hsize.toNat - 1) ++ [slotAt q.slots 0] := by
      have hl' : q.hsize.toNat - 1 < (swapSlots q.slots 0 (q.hsize.toNat - 1)).length := by simpa using hlast
      have hcat := List.take_concat_get' _ _ hl'
      rw [Nat.sub_add_cancel hpos] at hcat
      rw [← hroot, slotAt_of_lt _ _ hl', hcat]
    rw [h3]
    exact List.perm_append_comm.trans (List.Perm.cons _ h2.symm)
  · intro x hx
    unfold Queue.live at hx
    rw [take_eq_map_slotAt _ _ (by omega), List.mem_map] at hx
    obtain ⟨i, hi, rfl⟩ := hx
    exact OrderedTo.root_le (n := q.hsize.toNat) hord i (List.mem_range.1 hi)

theorem Queue.removeMin_empty (q : Queue) (h : q.hsize = 0#16) : q.removeMin = none := by simp [Queue.removeMin, h]

end Sys2Proof.Machine
end

