-- ==== Sys2Proof/Laws/Builder.lean ====
section
/-! SUPPORT. What one turn of BUILD's loops does (spec/41_huffman_tree_builder.md R144, R145), said once over the list of
the handles whose nodes stand in the queue; and the induction over each loop, packaged. -/

namespace Sys2Proof.Machine

open Sys2Proof

/-! ### The node store and the operand forms -/

theorem nodeAt_setNode (node : Vector NodeEntry 511) (k h : Nat) (e : NodeEntry) (hk : k < 511) :
    nodeAt (setNode node k e) h = if h = k then e else nodeAt node h := by
  unfold nodeAt setNode
  by_cases hh : h < 511
  · by_cases hkh : h = k
    · subst hkh; simp [Vector.getD, hh]
    · simp [Vector.getD, hh, hkh, Ne.symm hkh]
  · simp [Vector.getD, hh, show h ≠ k by omega]

theorem handleOfPay_payOfHandle (k : Nat) (hk : k < 512) : (handleOfPay (payOfHandle k)).toNat = k := by
  simp [handleOfPay, payOfHandle, BitVec.extractLsb'_toNat, BitVec.toNat_ofNat]
  omega

theorem weightOfCount_toNat (c : Count) : (weightOfCount c).toNat = c.toNat := by
  simp [weightOfCount]; omega

/-! ### The symbols -/

@[simp] theorem length_allSymbols : allSymbols.length = 256 := by simp [allSymbols]

theorem getElem_allSymbols (i : Nat) (h : i < allSymbols.length) : allSymbols[i] = BitVec.ofNat 8 i := by
  simp [allSymbols]

theorem mem_allSymbols (y : Symbol) : y ∈ allSymbols := by
  simp only [allSymbols, List.mem_map, List.mem_range]
  exact ⟨y.toNat, y.isLt, by simp⟩

theorem nodup_allSymbols : allSymbols.Nodup := by
  unfold allSymbols
  refine List.Nodup.map_on ?_ List.nodup_range
  intro a ha b hb hab
  rw [List.mem_range] at ha hb
  change a < 256 at ha
  change b < 256 at hb
  have := congrArg BitVec.toNat hab
  simp only [BitVec.toNat_ofNat] at this
  omega

theorem mem_presentSymbols (freq : Vector Count 256) (y : Symbol) :
    y ∈ presentSymbols freq ↔ freqOf freq y ≠ 0#32 := by
  simp [presentSymbols, mem_allSymbols]

theorem nodup_presentSymbols (freq : Vector Count 256) : (presentSymbols freq).Nodup := nodup_allSymbols.filter _

theorem length_presentSymbols_le (freq : Vector Count 256) : (presentSymbols freq).length ≤ 256 := by
  have := List.length_filter_le (fun y => freqOf freq y != 0#32) allSymbols
  simpa [presentSymbols] using this

/-! ### The handles in the queue -/

/-- The element that BUILD queues for the node of handle h (R144, R145). -/
def elementOf (node : Vector NodeEntry 511) (h : Nat) : HeapEntry :=
  { prio := (nodeAt node h).weight, pay := payOfHandle h }

/-- BUILD at work: a sound queue whose elements are those of the handles `hs`, each used and standing there once. -/
structure Builder.Holds (p : Params) (b : Builder) (hs : List Nat) : Prop where
  queue_ok : b.queue.Ok p
  nodup : hs.Nodup
  used : ∀ h, h ∈ hs → h < b.k
  live : b.queue.live.Perm (hs.map (elementOf b.node))

theorem Queue.live_length {p : Params} {q : Queue} (hq : q.Ok p) : q.live.length = q.hsize.toNat := by
  have h1 := hq.slots_length
  have h2 := hq.hsize_le
  have h3 := hq.hcap_le
  simp [Queue.live]
  omega

theorem Builder.Holds.hsize {p : Params} {b : Builder} {hs : List Nat} (h : b.Holds p hs) :
    b.queue.hsize.toNat = hs.length := by
  rw [← Queue.live_length h.queue_ok, h.live.length_eq, List.length_map]

theorem elementOf_setNode (node : Vector NodeEntry 511) (k h : Nat) (e : NodeEntry) (hk : k < 511) (hne : h ≠ k) :
    elementOf (setNode node k e) h = elementOf node h := by
  simp [elementOf, nodeAt_setNode node k h e hk, hne]

/-- `NODE[k] <- e; pq_insert(k, weight)` adds exactly the handle k (R144, R145); the insert never fails, for at most 255
elements stand in the queue. -/
theorem Builder.add_holds {p : Params} (hp : p.wf = true) {b : Builder} {hs : List Nat} (h : b.Holds p hs)
    (hk : b.k < 511) (hlen : hs.length < 256) (e : NodeEntry) : (b.add p e.weight e).Holds p (b.k :: hs) := by
  have hmax := Params.heapMax_ge hp
  obtain ⟨q', hq', hok, -, hperm, -⟩ := Queue.insert_spec b.queue
    { prio := e.weight, pay := payOfHandle b.k } h.queue_ok (by rw [h.hsize]; omega)
  have hqueue : (b.add p e.weight e).queue = q' := by simp [Builder.add, hq']
  refine ⟨hqueue ▸ hok, ?_, ?_, ?_⟩
  · refine List.nodup_cons.2 ⟨fun hm => ?_, h.nodup⟩
    exact Nat.lt_irrefl _ (h.used _ hm)
  · intro x hx
    show x < b.k + 1
    rcases List.mem_cons.1 hx with rfl | hx
    · omega
    · have := h.used x hx; omega
  · rw [hqueue]
    refine hperm.trans ?_
    have hnew : elementOf (setNode b.node b.k e) b.k = { prio := e.weight, pay := payOfHandle b.k } := by
      simp [elementOf, nodeAt_setNode b.node b.k b.k e hk]
    have hold : hs.map (elementOf (setNode b.node b.k e)) = hs.map (elementOf b.node) :=
      List.map_congr_left fun x hx => elementOf_setNode _ _ _ _ hk (Nat.ne_of_lt (h.used x hx))
    show List.Perm _ (List.map (elementOf (setNode b.node b.k e)) (b.k :: hs))
    rw [List.map_cons, hnew, hold]
    exact h.live.cons _

@[simp] theorem Builder.add_k (p : Params) (b : Builder) (w : Weight) (e : NodeEntry) : (b.add p w e).k = b.k + 1 := rfl
@[simp] theorem Builder.add_node (p : Params) (b : Builder) (w : Weight) (e : NodeEntry) :
    (b.add p w e).node = setNode b.node b.k e := rfl

/-! ### Phase 1 -/

/-- BUILD starts with an empty queue (R143). -/
theorem Builder.fresh_holds {p : Params} (hp : p.wf = true) (q : Queue) (hl : q.slots.length = p.heapMax)
    (node : Vector NodeEntry 511) : Builder.Holds p { queue := q.fresh p, node := node, k := 0 } [] where
  queue_ok := Queue.fresh_ok hp q hl
  nodup := List.nodup_nil
  used := by simp
  live := by simp [Queue.live]

/-- The loop over some symbols from a queue of the first k handles: the present ones get the next handles, in order, and
the entries below stay (R144, R147). -/
theorem foldl_addLeaf_spec {p : Params} (hp : p.wf = true) (freq : Vector Count 256) (ys : List Symbol) (b : Builder)
    (hs : List Nat) (h : b.Holds p hs) (hlen : hs.length = b.k)
    (hk : b.k + (ys.filter fun y => freqOf freq y != 0#32).length ≤ 256) :
    ∃ hs', (ys.foldl (Builder.addLeaf p freq) b).Holds p hs' ∧
      (ys.foldl (Builder.addLeaf p freq) b).k = b.k + (ys.filter fun y => freqOf freq y != 0#32).length ∧
      hs'.length = (ys.foldl (Builder.addLeaf p freq) b).k ∧
      (∀ i, i < b.k → nodeAt (ys.foldl (Builder.addLeaf p freq) b).node i = nodeAt b.node i) ∧
      ∀ j y, (ys.filter fun y => freqOf freq y != 0#32)[j]? = some y →
        nodeAt (ys.foldl (Builder.addLeaf p freq) b).node (b.k + j) = .leaf (weightOfCount (freqOf freq y)) y := by
  induction ys generalizing b hs with
  | nil => exact ⟨hs, h, rfl, hlen, fun _ _ => rfl, fun j y hj => by simp at hj⟩
  | cons y ys ih =>
    by_cases hc : freqOf freq y = 0#32
    · have hb : b.addLeaf p freq y = b := if_pos hc
      have hf : ((y :: ys).filter fun y => freqOf freq y != 0#32) = ys.filter fun y => freqOf freq y != 0#32 := by
        simp [hc]
      rw [List.foldl_cons, hb, hf]
      exact ih b hs h hlen (by rwa [hf] at hk)
    · have hb : b.addLeaf p freq y =
          b.add p (NodeEntry.leaf (weightOfCount (freqOf freq y)) y).weight (.leaf (weightOfCount (freqOf freq y)) y) :=
        if_neg hc
      have hf : ((y :: ys).filter fun y => freqOf freq y != 0#32) =
          y :: ys.filter fun y => freqOf freq y != 0#32 := by simp [hc]
      rw [hf, List.length_cons] at hk
      have h1 := Builder.add_holds hp h (by omega) (by omega) (.leaf (weightOfCount (freqOf freq y)) y)
      rw [← hb] at h1
      have hk1 : (b.addLeaf p freq y).k = b.k + 1 := by rw [hb]; rfl
      obtain ⟨hs', i1, i2, i3, i4, i5⟩ := ih _ _ h1 (by rw [hk1, List.length_cons, hlen]) (by rw [hk1]; omega)
      rw [List.foldl_cons, hf]
      refine ⟨hs', i1, ?_, i3, ?_, ?_⟩
      · rw [i2, hk1, List.length_cons]; omega
      · intro i hi
        rw [i4 i (by rw [hk1]; omega), hb, Builder.add_node, nodeAt_setNode _ _ _ _ (by omega), if_neg (by omega)]
      · intro j z hj
        cases j with
        | zero =>
          simp only [List.getElem?_cons_zero, Option.some.injEq] at hj
          subst hj
          rw [Nat.add_zero, i4 b.k (by rw [hk1]; omega), hb, Builder.add_node, nodeAt_setNode _ _ _ _ (by omega),
            if_pos rfl]
        | succ j =>
          rw [List.getElem?_cons_succ] at hj
          have := i5 j z hj
          rw [hk1] at this
          rw [← this, show b.k + (j + 1) = b.k + 1 + j by omega]

/-- Phase 1 (R144, R147): n leaves, the present symbols in ascending order, all n handles in the queue. -/
theorem buildLeaves_spec {p : Params} (hp : p.wf = true) (freq : Vector Count 256) (q : Queue)
    (hl : q.slots.length = p.heapMax) (node : Vector NodeEntry 511) :
    ∃ hs, (buildLeaves p freq { queue := q.fresh p, node := node, k := 0 }).Holds p hs ∧
      (buildLeaves p freq { queue := q.fresh p, node := node, k := 0 }).k = (presentSymbols freq).length ∧
      hs.length = (presentSymbols freq).length ∧
      ∀ j y, (presentSymbols freq)[j]? = some y →
        nodeAt (buildLeaves p freq { queue := q.fresh p, node := node, k := 0 }).node j =
          .leaf (weightOfCount (freqOf freq y)) y := by
  have hle := length_presentSymbols_le freq
  unfold presentSymbols at hle
  obtain ⟨hs, h1, h2, h3, -, h5⟩ := foldl_addLeaf_spec hp freq allSymbols
    { queue := q.fresh p, node := node, k := 0 } [] (Builder.fresh_holds hp q hl node) rfl (by simpa using hle)
  simp only [Nat.zero_add] at h2 h5
  exact ⟨hs, h1, h2, h3.trans h2, h5⟩

/-! ### Phase 2 -/

/-- A removal takes out one handle of least weight. -/
theorem Queue.removeMin_handle {p : Params} {q : Queue} {node : Vector NodeEntry 511} {hs : List Nat} (hq : q.Ok p)
    (hlive : q.live.Perm (hs.map (elementOf node))) (hne : hs ≠ []) :
    ∃ x hs' q', q.removeMin = some (elementOf node x, q') ∧ hs.Perm (x :: hs') ∧ q'.Ok p ∧
      q'.live.Perm (hs'.map (elementOf node)) ∧
      ∀ h, h ∈ hs → (nodeAt node x).weight ≤ (nodeAt node h).weight := by
  have hsize : q.hsize ≠ 0#16 := by
    intro h0
    have := hlive.length_eq
    rw [Queue.live_length hq, h0, List.length_map] at this
    exact hne (List.length_eq_zero_iff.1 this.symm)
  obtain ⟨e, q', hrem, hok, -, -, hperm, hmin, -⟩ := Queue.removeMin_spec q hq hsize
  have hmem : e ∈ hs.map (elementOf node) := hlive.mem_iff.1 (hperm.mem_iff.2 (List.mem_cons_self))
  obtain ⟨x, hx, rfl⟩ := List.mem_map.1 hmem
  refine ⟨x, hs.erase x, q', hrem, List.perm_cons_erase hx, hok, ?_, ?_⟩
  · have h1 := (List.perm_cons_erase hx).map (elementOf node)
    exact (List.perm_cons _).1 (hperm.symm.trans (hlive.trans h1))
  · intro h hh
    exact hmin _ (hlive.mem_iff.2 (List.mem_map_of_mem hh))

/-- One merge (R145): it takes a least handle x, then a least y of the rest, and adds the next handle, an Internal node over
them, x left, of their weights' sum. -/
theorem Builder.merge_spec {p : Params} (hp : p.wf = true) {b : Builder} {hs : List Nat} (h : b.Holds p hs)
    (hk : b.k < 511) (h2 : 2 ≤ hs.length) (h256 : hs.length ≤ 256) :
    ∃ x y hs', hs.Perm (x :: y :: hs') ∧
      (∀ z, z ∈ hs → (nodeAt b.node x).weight ≤ (nodeAt b.node z).weight) ∧
      (∀ z, z ∈ hs' → (nodeAt b.node y).weight ≤ (nodeAt b.node z).weight) ∧
      (b.merge p).Holds p (b.k :: hs') ∧ (b.merge p).k = b.k + 1 ∧
      (b.merge p).node = setNode b.node b.k (.internal ((nodeAt b.node x).weight + (nodeAt b.node y).weight)
        (BitVec.ofNat 9 x) (BitVec.ofNat 9 y)) := by
  obtain ⟨x, hs1, q1, r1, p1, ok1, l1, m1⟩ := Queue.removeMin_handle h.queue_ok h.live (by rintro rfl; simp at h2)
  have hlen1 : hs1.length + 1 = hs.length := by simpa using p1.length_eq.symm
  obtain ⟨y, hs2, q2, r2, p2, ok2, l2, m2⟩ := Queue.removeMin_handle ok1 l1 (by rintro rfl; simp at hlen1; omega)
  have hlen2 : hs2.length + 1 = hs1.length := by simpa using p2.length_eq.symm
  have pall : hs.Perm (x :: y :: hs2) := p1.trans (p2.cons x)
  have hnd : (x :: y :: hs2).Nodup := pall.nodup_iff.1 h.nodup
  have hused : ∀ z, z ∈ x :: y :: hs2 → z < b.k := fun z hz => h.used z (pall.mem_iff.2 hz)
  have hx : x < b.k := hused x (by simp)
  have hy : y < b.k := hused y (by simp)
  have hhand : ∀ z, z < b.k → handleOfPay (elementOf b.node z).pay = BitVec.ofNat 9 z := by
    intro z hz
    apply BitVec.eq_of_toNat_eq
    show (handleOfPay (payOfHandle z)).toNat = _
    rw [handleOfPay_payOfHandle z (by omega), BitVec.toNat_ofNat]; omega
  have hmerge : b.merge p = { b with queue := q2 }.add p
      (NodeEntry.internal ((nodeAt b.node x).weight + (nodeAt b.node y).weight) (BitVec.ofNat 9 x)
        (BitVec.ofNat 9 y)).weight
      (.internal ((nodeAt b.node x).weight + (nodeAt b.node y).weight) (BitVec.ofNat 9 x) (BitVec.ofNat 9 y)) := by
    unfold Builder.merge
    rw [r1]
    simp only [r2, hhand x hx, hhand y hy]
    rfl
  have hold : Builder.Holds p { b with queue := q2 } hs2 :=
    ⟨ok2, (List.nodup_cons.1 (List.nodup_cons.1 hnd).2).2, fun z hz => hused z (by simp [hz]), l2⟩
  refine ⟨x, y, hs2, pall, m1, fun z hz => m2 z (p2.mem_iff.2 (by simp [hz])), ?_, ?_, ?_⟩
  · rw [hmerge]
    exact Builder.add_holds hp hold hk (by omega) _
  · rw [hmerge]; rfl
  · rw [hmerge]; rfl

/-- The induction over phase 2 (R145): what one merge keeps holds when a single handle, the root, is left. -/
theorem buildMerge_induct {p : Params} (hp : p.wf = true) {P : Builder → List Nat → Prop}
    (hstep : ∀ (b : Builder) (hs : List Nat) (x y : Nat) (hs' : List Nat), b.Holds p hs → b.k < 511 → P b hs →
      hs.Perm (x :: y :: hs') →
      (∀ z, z ∈ hs → (nodeAt b.node x).weight ≤ (nodeAt b.node z).weight) →
      (∀ z, z ∈ hs' → (nodeAt b.node y).weight ≤ (nodeAt b.node z).weight) →
      (b.merge p).node = setNode b.node b.k (.internal ((nodeAt b.node x).weight + (nodeAt b.node y).weight)
        (BitVec.ofNat 9 x) (BitVec.ofNat 9 y)) →
      (b.merge p).k = b.k + 1 → P (b.merge p) (b.k :: hs'))
    (fuel : Nat) (b : Builder) (hs : List Nat) (h : b.Holds p hs) (h1 : 1 ≤ hs.length) (h256 : hs.length ≤ 256)
    (hf : hs.length ≤ fuel + 1) (hk : b.k + hs.length ≤ 512) (h0 : P b hs) :
    ∃ r, (buildMerge p fuel b).Holds p [r] ∧ (buildMerge p fuel b).k = b.k + (hs.length - 1) ∧
      P (buildMerge p fuel b) [r] := by
  induction fuel generalizing b hs with
  | zero =>
    obtain ⟨r, rfl⟩ := List.length_eq_one_iff.1 (show hs.length = 1 by omega)
    exact ⟨r, h, rfl, h0⟩
  | succ fuel ih =>
    unfold buildMerge
    rw [h.hsize]
    by_cases h2 : 1 < hs.length
    · rw [if_pos h2]
      obtain ⟨x, y, hs', m1, m2, m3, m4, m5, m6⟩ := Builder.merge_spec hp h (by omega) h2 h256
      have hl : hs'.length + 2 = hs.length := by simpa using m1.length_eq.symm
      obtain ⟨r, r1, r2, r3⟩ := ih _ _ m4 (by simp) (by rw [List.length_cons]; omega) (by rw [List.length_cons]; omega)
        (by rw [m5, List.length_cons]; omega) (hstep b hs x y hs' h (by omega) h0 m1 m2 m3 m6 m5)
      refine ⟨r, r1, ?_, r3⟩
      rw [r2, m5, List.length_cons]; omega
    · rw [if_neg h2]
      obtain ⟨r, rfl⟩ := List.length_eq_one_iff.1 (show hs.length = 1 by omega)
      exact ⟨r, h, rfl, h0⟩

/-! ### Phase 3 -/

theorem buildFinish_empty (b : Builder) :
    buildFinish 0 b = (b.queue, { root := 0#9, rootNone := true, nleaf := 0#9, nnode := 0#10 }) := rfl

/-- With one handle left it is the root, and the queue it leaves is empty and sound (R146). -/
theorem buildFinish_spec {p : Params} {b : Builder} {r n : Nat} (h : b.Holds p [r]) (hn : n ≠ 0) (hk : b.k ≤ 511) :
    ∃ q, buildFinish n b =
        (q, { root := BitVec.ofNat 9 r, rootNone := false, nleaf := BitVec.ofNat 9 n, nnode := BitVec.ofNat 10 b.k }) ∧
      q.Ok p ∧ q.hsize = 0#16 ∧ q.hcap = b.queue.hcap := by
  have hr : r < b.k := h.used r (by simp)
  have hsz := h.hsize
  have hne : b.queue.hsize ≠ 0#16 := by
    intro h0; rw [h0] at hsz; simp at hsz
  obtain ⟨e, q, hrem, hok, hq1, hq2, hperm, -, -⟩ := Queue.removeMin_spec b.queue h.queue_ok hne
  have he : e = elementOf b.node r := by
    have := h.live.mem_iff.1 (hperm.mem_iff.2 List.mem_cons_self)
    simpa using this
  refine ⟨q, ?_, hok, ?_, hq2⟩
  · unfold buildFinish
    rw [if_neg hn, hrem]
    have hh : handleOfPay (elementOf b.node r).pay = BitVec.ofNat 9 r := by
      apply BitVec.eq_of_toNat_eq
      show (handleOfPay (payOfHandle r)).toNat = _
      rw [handleOfPay_payOfHandle r (by omega), BitVec.toNat_ofNat]; omega
    simp [he, hh]
  · apply BitVec.eq_of_toNat_eq
    simp at hsz
    simp; omega

end Sys2Proof.Machine
end

