-- ==== Sys2Proof/Laws/Decode.lean ====
section
/-! SUPPORT. The fields of a packed word (spec/30_encoding.md R80 to R84) and the opcode map read both ways (R86). -/

namespace Sys2Proof

theorem opOfCode_code (o : Op) : opOfCode o.code = some o := by cases o <;> rfl

/-- The opcode map has no other value for an opcode (R86, R87). -/
theorem opOfCode_eq_some (b : BitVec 8) (o : Op) (h : opOfCode b = some o) : b = o.code := by
  revert b o
  decide +kernel

/-! ### Format N -/

@[simp] theorem opField_packN (o : Op) : opField (packN o) = o.code := by cases o <;> decide
@[simp] theorem reservedZero_packN (o : Op) : reservedZero .N (packN o) = true := by cases o <;> decide

/-! ### Format S -/

@[simp] theorem opField_packS (o : Op) (imm : Imm16) : opField (packS o imm) = o.code := by
  ext k hk
  simp only [opField, packS, BitVec.getElem_extractLsb', BitVec.getLsbD_append]
  simp [show ¬ 56 + k < 40 by omega, show ¬ 56 + k - 40 < 16 by omega, show 56 + k - 40 - 16 = k by omega,
    BitVec.getLsbD_eq_getElem hk]

@[simp] theorem immField_packS (o : Op) (imm : Imm16) : immField (packS o imm) = imm := by
  ext k hk
  simp only [immField, packS, BitVec.getElem_extractLsb', BitVec.getLsbD_append]
  simp [show ¬ 40 + k < 40 by omega, hk]

@[simp] theorem reservedZero_packS (o : Op) (imm : Imm16) : reservedZero .S (packS o imm) = true := by
  rw [reservedZero, beq_iff_eq]
  ext k hk
  simp only [packS, BitVec.getElem_extractLsb', BitVec.getLsbD_append]
  simp [hk]

/-! ### Format F -/

@[simp] theorem opField_packF (o : Op) (imm : Imm16) (count : Count) : opField (packF o imm count) = o.code := by
  ext k hk
  simp only [opField, packF, BitVec.getElem_extractLsb', BitVec.getLsbD_append]
  simp [show ¬ 56 + k < 32 by omega, show ¬ 56 + k - 32 < 8 by omega, show ¬ 56 + k - 32 - 8 < 16 by omega,
    show 56 + k - 32 - 8 - 16 = k by omega, BitVec.getLsbD_eq_getElem hk]

@[simp] theorem immField_packF (o : Op) (imm : Imm16) (count : Count) : immField (packF o imm count) = imm := by
  ext k hk
  simp only [immField, packF, BitVec.getElem_extractLsb', BitVec.getLsbD_append]
  simp [show ¬ 40 + k < 32 by omega, show ¬ 40 + k - 32 < 8 by omega, show 40 + k - 32 - 8 = k by omega, hk]

@[simp] theorem countField_packF (o : Op) (imm : Imm16) (count : Count) : countField (packF o imm count) = count := by
  ext k hk
  simp only [countField, packF, BitVec.getElem_extractLsb', BitVec.getLsbD_append]
  simp [hk]

@[simp] theorem reservedZero_packF (o : Op) (imm : Imm16) (count : Count) :
    reservedZero .F (packF o imm count) = true := by
  rw [reservedZero, beq_iff_eq]
  ext k hk
  simp only [packF, BitVec.getElem_extractLsb', BitVec.getLsbD_append]
  simp [hk]

/-! ### Format Q -/

@[simp] theorem opField_packQ (o : Op) (present : Bool) (pay : Payload) (prio : Weight) :
    opField (packQ o present pay prio) = o.code := by
  ext k hk
  simp only [opField, packQ, BitVec.getElem_extractLsb', BitVec.getLsbD_append]
  simp [show ¬ 56 + k < 40 by omega, show ¬ 56 + k - 40 < 15 by omega, show ¬ 56 + k - 40 - 15 < 1 by omega,
    show 56 + k - 40 - 15 - 1 = k by omega, BitVec.getLsbD_eq_getElem hk]

@[simp] theorem presentField_packQ (o : Op) (present : Bool) (pay : Payload) (prio : Weight) :
    presentField (packQ o present pay prio) = present := by
  simp only [presentField, packQ, BitVec.getLsbD_append]
  simp

@[simp] theorem payloadField_packQ (o : Op) (present : Bool) (pay : Payload) (prio : Weight) :
    payloadField (packQ o present pay prio) = pay := by
  ext k hk
  simp only [payloadField, packQ, BitVec.getElem_extractLsb', BitVec.getLsbD_append]
  simp [show ¬ 40 + k < 40 by omega, hk]

@[simp] theorem priorityField_packQ (o : Op) (present : Bool) (pay : Payload) (prio : Weight) :
    priorityField (packQ o present pay prio) = prio := by
  ext k hk
  simp only [priorityField, packQ, BitVec.getElem_extractLsb', BitVec.getLsbD_append]
  simp [hk]

/-! ### The host's numbering of a row's bits -/

/-- A row of spec/opcode_table.json is one whole word. -/
theorem tableWord_toNat (w : Word) : tableWord 64 w.toNat = w := by
  apply BitVec.eq_of_toNat_eq
  have := w.isLt
  simp only [tableWord, BitVec.toNat_ofNat]
  omega

end Sys2Proof
end

