-- ==== Sys2Proof/Laws/Output.lean ====
section
/-! SUPPORT. What the output port does with a code's bits (spec/20_memory.md R66, spec/41 R159). -/

namespace Sys2Proof.Machine

open Sys2Proof

/-! ### The sink -/

@[simp] theorem Sink.accepts_always (m : Nat) : Sink.always.accepts m = m := rfl
@[simp] theorem Sink.accepts_upTo (n m : Nat) : (Sink.upTo n).accepts m = min n m := rfl
@[simp] theorem Sink.after_always (m : Nat) : Sink.always.after m = .always := rfl
@[simp] theorem Sink.after_upTo (n m : Nat) : (Sink.upTo n).after m = .upTo (n - m) := rfl

theorem Sink.accepts_le (k : Sink) (m : Nat) : k.accepts m ≤ m := by
  cases k with
  | always => exact Nat.le_refl m
  | upTo n => exact Nat.min_le_right n m

/-- A sink that lets a bit wait accepts exactly its budget, and then nothing. -/
theorem Sink.upTo_of_accepts_lt {k : Sink} {m : Nat} (h : k.accepts m < m) :
    k = .upTo (k.accepts m) ∧ k.after (k.accepts m) = .upTo 0 := by
  cases k with
  | always => simp at h
  | upTo n =>
    have hn : min n m = n := by simp only [Sink.accepts_upTo] at h; omega
    simp [hn]

/-! ### `emit` -/

/-- When the sink accepts every bit, all go to OUT and the command completes (R181). -/
theorem State.emit_of_accepts {s : State} {bits : List Bool} (h : s.sink.Accepts bits.length) :
    s.emit bits = { s with
      out := s.out ++ bits, sink := s.sink.after bits.length, pending := [], busy := false, err := 0#4 } := by
  unfold Sink.Accepts at h
  simp [State.emit, h, errorCode]

/-- When it does not, the accepted ones go to OUT, the next one stays offered, and the command stays BUSY (R66, R245). -/
theorem State.emit_of_withholds {s : State} {bits : List Bool} {n : Nat} (hs : s.sink = .upTo n)
    (h : n < bits.length) :
    s.emit bits = { s with
      out := s.out ++ bits.take n, sink := .upTo 0, pending := bits.drop n, busy := true } := by
  have hn : min n bits.length = n := by omega
  simp [State.emit, hs, hn, h]

/-- What `emit` can do, whatever the sink: one of the two. -/
theorem State.emit_cases (s : State) (bits : List Bool) :
    s.sink.Accepts bits.length ∧ s.emit bits = { s with
        out := s.out ++ bits, sink := s.sink.after bits.length, pending := [], busy := false, err := 0#4 } ∨
    ∃ n, s.sink = .upTo n ∧ n < bits.length ∧ s.emit bits = { s with
        out := s.out ++ bits.take n, sink := .upTo 0, pending := bits.drop n, busy := true } := by
  by_cases h : s.sink.Accepts bits.length
  · exact .inl ⟨h, State.emit_of_accepts h⟩
  · have hlt : s.sink.accepts bits.length < bits.length :=
      Nat.lt_of_le_of_ne (Sink.accepts_le _ _) h
    exact .inr ⟨_, (Sink.upTo_of_accepts_lt hlt).1, hlt,
      State.emit_of_withholds (Sink.upTo_of_accepts_lt hlt).1 hlt⟩

/-! ### The bits of a code -/

@[simp] theorem codeBits_length (e : CtEntry) : (codeBits e).length = e.len.toNat := by simp [codeBits]

/-- c_i = BITS[L-1-i] (R159). -/
theorem codeBits_getElem? (e : CtEntry) (i : Nat) (h : i < e.len.toNat) :
    (codeBits e)[i]? = some (e.bits.getLsbD (e.len.toNat - 1 - i)) := by
  simp [codeBits, h]

end Sys2Proof.Machine
end

