-- ==== Sys2Proof/Laws/PerInstr.lean ====
section
/-! SUPPORT. Statements about every command as syntax, one lemma per constructor. -/

namespace Sys2Proof.Laws.TableRow

open Sys2Proof

/-- The command's word lies in its row of spec/opcode_table.json: its masked bits are the row's match. -/
def Statement (i : Instr) : Prop := encode i &&& i.op.mask = i.op.pattern

/-- A word of format S lies in a row that masks all but IMM16 when its opcode does. -/
theorem packS_masked (o : Op) (imm : Imm16) : packS o imm &&& 0xFF0000FFFFFFFFFF#64 = o.code ++ 0#56 := by
  apply BitVec.eq_of_getLsbD_eq
  intro k hk
  rw [packS, BitVec.getLsbD_and, BitVec.getLsbD_append, BitVec.getLsbD_append, BitVec.getLsbD_append]
  interval_cases k <;> simp

/-- A word of format F lies in a row that masks OP and the reserved byte. -/
theorem packF_masked (o : Op) (imm : Imm16) (count : Count) :
    packF o imm count &&& 0xFF0000FF00000000#64 = o.code ++ 0#56 := by
  apply BitVec.eq_of_getLsbD_eq
  intro k hk
  rw [packF, BitVec.getLsbD_and, BitVec.getLsbD_append, BitVec.getLsbD_append, BitVec.getLsbD_append, BitVec.getLsbD_append]
  interval_cases k <;> simp

/-- A word of format Q lies in a row that masks OP alone. -/
theorem packQ_masked (o : Op) (present : Bool) (pay : Payload) (prio : Weight) :
    packQ o present pay prio &&& 0xFF00000000000000#64 = o.code ++ 0#56 := by
  apply BitVec.eq_of_getLsbD_eq
  intro k hk
  rw [packQ, BitVec.getLsbD_and, BitVec.getLsbD_append, BitVec.getLsbD_append, BitVec.getLsbD_append, BitVec.getLsbD_append]
  interval_cases k <;> simp

theorem nop : Statement .nop := by unfold Statement; decide
theorem freqClear : Statement .freqClear := by unfold Statement; decide
theorem freqWrite (sym : Imm16) (count : Count) : Statement (.freqWrite sym count) := packF_masked .freqWrite sym count
theorem freqRead (sym : Imm16) : Statement (.freqRead sym) := packS_masked .freqRead sym
theorem build : Statement .build := by unfold Statement; decide
theorem nodeRead (handle : Imm16) : Statement (.nodeRead handle) := packS_masked .nodeRead handle
theorem encode (sym : Imm16) : Statement (.encode sym) := packS_masked .encode sym
theorem statRead (sym : Imm16) : Statement (.statRead sym) := packS_masked .statRead sym
theorem pqInsert (present : Bool) (pay : Payload) (prio : Weight) : Statement (.pqInsert present pay prio) :=
  packQ_masked .pqInsert present pay prio
theorem pqRemoveMin : Statement .pqRemoveMin := by unfold Statement; decide
theorem pqSize : Statement .pqSize := by unfold Statement; decide
theorem pqClear : Statement .pqClear := by unfold Statement; decide

end Sys2Proof.Laws.TableRow
end

