-- ==== Sys2Proof/Laws/Ports.lean ====
section
/-! SUPPORT. Which of the host's acts the block takes next (spec/20_memory.md R64): once, all that `nextAct` can do. -/

namespace Sys2Proof.Machine

open Sys2Proof

@[simp] theorem takeUnheld_offer (w : Word) (rest : List HostAct) :
    takeUnheld (.offer w :: rest) = (takeUnheld rest).map fun r => (r.1, .offer w :: r.2) := by
  rw [takeUnheld]
  cases takeUnheld rest <;> rfl

/-- An act taken past held words is no offer, stood behind offers alone, and leaves every offered word in its place. -/
theorem takeUnheld_spec (acts : List HostAct) (a : HostAct) (acts' : List HostAct)
    (h : takeUnheld acts = some (a, acts')) :
    (∀ w, a ≠ .offer w) ∧ offeredWords acts' = offeredWords acts ∧
      ∃ (held : List Word) (rest : List HostAct), acts = held.map HostAct.offer ++ a :: rest ∧ acts' = held.map HostAct.offer ++ rest := by
  induction acts generalizing acts' with
  | nil => simp [takeUnheld] at h
  | cons b acts ih =>
    cases b with
    | offer w =>
      rw [takeUnheld_offer, Option.map_eq_some_iff] at h
      obtain ⟨⟨a', r⟩, hr, heq⟩ := h
      obtain ⟨rfl, rfl⟩ := Prod.mk.injEq .. ▸ heq
      obtain ⟨h1, h2, held, rest, rfl, rfl⟩ := ih r hr
      exact ⟨h1, by simp only [offeredWords, h2], w :: held, rest, rfl, rfl⟩
    | read index =>
      simp only [takeUnheld, Option.some.injEq, Prod.mk.injEq] at h
      obtain ⟨rfl, rfl⟩ := h
      exact ⟨by simp, rfl, [], acts, rfl, rfl⟩
    | sink k =>
      simp only [takeUnheld, Option.some.injEq, Prod.mk.injEq] at h
      obtain ⟨rfl, rfl⟩ := h
      exact ⟨by simp, rfl, [], acts, rfl, rfl⟩
    | rst level =>
      simp only [takeUnheld, Option.some.injEq, Prod.mk.injEq] at h
      obtain ⟨rfl, rfl⟩ := h
      exact ⟨by simp, rfl, [], acts, rfl, rfl⟩

/-- Taking an act changes the host's list alone, and takes an offered word only when the block is ready (R64). -/
theorem nextAct_spec (s s' : State) (a : HostAct) (h : nextAct s = some (a, s')) :
    s' = { s with host := s'.host } ∧
      ((∃ w, a = .offer w ∧ s.cmdReady = true ∧ s.host = .offer w :: s'.host) ∨
        ((∀ w, a ≠ .offer w) ∧ offeredWords s'.host = offeredWords s.host)) := by
  unfold nextAct at h
  cases hr : s.cmdReady with
  | true =>
    rw [hr, if_pos rfl] at h
    cases hh : s.host with
    | nil => simp [hh] at h
    | cons b rest =>
      simp only [hh, Option.some.injEq, Prod.mk.injEq] at h
      obtain ⟨rfl, rfl⟩ := h
      refine ⟨rfl, ?_⟩
      cases b with
      | offer w => exact .inl ⟨w, rfl, rfl, rfl⟩
      | read index => exact .inr ⟨by simp, rfl⟩
      | sink k => exact .inr ⟨by simp, rfl⟩
      | rst level => exact .inr ⟨by simp, rfl⟩
  | false =>
    rw [hr] at h
    simp only [Bool.false_eq_true, if_false] at h
    cases ht : takeUnheld s.host with
    | none => simp [ht] at h
    | some r =>
      obtain ⟨a', rest⟩ := r
      simp only [ht, Option.some.injEq, Prod.mk.injEq] at h
      obtain ⟨rfl, rfl⟩ := h
      obtain ⟨h1, h2, -⟩ := takeUnheld_spec _ _ _ ht
      exact ⟨rfl, .inr ⟨h1, h2⟩⟩

end Sys2Proof.Machine
end

