-- ==== Sys2Proof/Laws/State.lean ====
section
/-! SUPPORT. One lemma per field of State per named update, so that no later proof unfolds a record update. -/

namespace Sys2Proof.Machine

open Sys2Proof

/-! ### State.done -/

@[simp] theorem State.done_params (s : State) : s.done.params = s.params := rfl
@[simp] theorem State.done_busy (s : State) : s.done.busy = s.busy := rfl
@[simp] theorem State.done_ftv (s : State) : s.done.ftv = s.ftv := rfl
@[simp] theorem State.done_av (s : State) : s.done.av = s.av := rfl
@[simp] theorem State.done_built (s : State) : s.done.built = s.built := rfl
@[simp] theorem State.done_err (s : State) : s.done.err = 0#4 := rfl
@[simp] theorem State.done_queue (s : State) : s.done.queue = s.queue := rfl
@[simp] theorem State.done_result (s : State) : s.done.result = s.result := rfl
@[simp] theorem State.done_code (s : State) : s.done.code = s.code := rfl
@[simp] theorem State.done_root (s : State) : s.done.root = s.root := rfl
@[simp] theorem State.done_rootNone (s : State) : s.done.rootNone = s.rootNone := rfl
@[simp] theorem State.done_nleaf (s : State) : s.done.nleaf = s.nleaf := rfl
@[simp] theorem State.done_nnode (s : State) : s.done.nnode = s.nnode := rfl
@[simp] theorem State.done_freq (s : State) : s.done.freq = s.freq := rfl
@[simp] theorem State.done_node (s : State) : s.done.node = s.node := rfl
@[simp] theorem State.done_ct (s : State) : s.done.ct = s.ct := rfl
@[simp] theorem State.done_pending (s : State) : s.done.pending = s.pending := rfl
@[simp] theorem State.done_out (s : State) : s.done.out = s.out := rfl
@[simp] theorem State.done_rst (s : State) : s.done.rst = s.rst := rfl
@[simp] theorem State.done_sink (s : State) : s.done.sink = s.sink := rfl
@[simp] theorem State.done_host (s : State) : s.done.host = s.host := rfl
@[simp] theorem State.done_reads (s : State) : s.done.reads = s.reads := rfl

/-! ### State.raise -/

@[simp] theorem State.raise_params (e : ErrorKind) (s : State) : (s.raise e).params = s.params := rfl
@[simp] theorem State.raise_busy (e : ErrorKind) (s : State) : (s.raise e).busy = s.busy := rfl
@[simp] theorem State.raise_ftv (e : ErrorKind) (s : State) : (s.raise e).ftv = s.ftv := rfl
@[simp] theorem State.raise_av (e : ErrorKind) (s : State) : (s.raise e).av = s.av := rfl
@[simp] theorem State.raise_built (e : ErrorKind) (s : State) : (s.raise e).built = s.built := rfl
@[simp] theorem State.raise_err (e : ErrorKind) (s : State) : (s.raise e).err = errorCode e := rfl
@[simp] theorem State.raise_queue (e : ErrorKind) (s : State) : (s.raise e).queue = s.queue := rfl
@[simp] theorem State.raise_result (e : ErrorKind) (s : State) : (s.raise e).result = s.result := rfl
@[simp] theorem State.raise_code (e : ErrorKind) (s : State) : (s.raise e).code = s.code := rfl
@[simp] theorem State.raise_root (e : ErrorKind) (s : State) : (s.raise e).root = s.root := rfl
@[simp] theorem State.raise_rootNone (e : ErrorKind) (s : State) : (s.raise e).rootNone = s.rootNone := rfl
@[simp] theorem State.raise_nleaf (e : ErrorKind) (s : State) : (s.raise e).nleaf = s.nleaf := rfl
@[simp] theorem State.raise_nnode (e : ErrorKind) (s : State) : (s.raise e).nnode = s.nnode := rfl
@[simp] theorem State.raise_freq (e : ErrorKind) (s : State) : (s.raise e).freq = s.freq := rfl
@[simp] theorem State.raise_node (e : ErrorKind) (s : State) : (s.raise e).node = s.node := rfl
@[simp] theorem State.raise_ct (e : ErrorKind) (s : State) : (s.raise e).ct = s.ct := rfl
@[simp] theorem State.raise_pending (e : ErrorKind) (s : State) : (s.raise e).pending = s.pending := rfl
@[simp] theorem State.raise_out (e : ErrorKind) (s : State) : (s.raise e).out = s.out := rfl
@[simp] theorem State.raise_rst (e : ErrorKind) (s : State) : (s.raise e).rst = s.rst := rfl
@[simp] theorem State.raise_sink (e : ErrorKind) (s : State) : (s.raise e).sink = s.sink := rfl
@[simp] theorem State.raise_host (e : ErrorKind) (s : State) : (s.raise e).host = s.host := rfl
@[simp] theorem State.raise_reads (e : ErrorKind) (s : State) : (s.raise e).reads = s.reads := rfl

/-! ### State.setResult -/

@[simp] theorem State.setResult_params (v : Word) (s : State) : (s.setResult v).params = s.params := rfl
@[simp] theorem State.setResult_busy (v : Word) (s : State) : (s.setResult v).busy = s.busy := rfl
@[simp] theorem State.setResult_ftv (v : Word) (s : State) : (s.setResult v).ftv = s.ftv := rfl
@[simp] theorem State.setResult_av (v : Word) (s : State) : (s.setResult v).av = s.av := rfl
@[simp] theorem State.setResult_built (v : Word) (s : State) : (s.setResult v).built = s.built := rfl
@[simp] theorem State.setResult_err (v : Word) (s : State) : (s.setResult v).err = s.err := rfl
@[simp] theorem State.setResult_queue (v : Word) (s : State) : (s.setResult v).queue = s.queue := rfl
@[simp] theorem State.setResult_result (v : Word) (s : State) : (s.setResult v).result = v := rfl
@[simp] theorem State.setResult_code (v : Word) (s : State) : (s.setResult v).code = s.code := rfl
@[simp] theorem State.setResult_root (v : Word) (s : State) : (s.setResult v).root = s.root := rfl
@[simp] theorem State.setResult_rootNone (v : Word) (s : State) : (s.setResult v).rootNone = s.rootNone := rfl
@[simp] theorem State.setResult_nleaf (v : Word) (s : State) : (s.setResult v).nleaf = s.nleaf := rfl
@[simp] theorem State.setResult_nnode (v : Word) (s : State) : (s.setResult v).nnode = s.nnode := rfl
@[simp] theorem State.setResult_freq (v : Word) (s : State) : (s.setResult v).freq = s.freq := rfl
@[simp] theorem State.setResult_node (v : Word) (s : State) : (s.setResult v).node = s.node := rfl
@[simp] theorem State.setResult_ct (v : Word) (s : State) : (s.setResult v).ct = s.ct := rfl
@[simp] theorem State.setResult_pending (v : Word) (s : State) : (s.setResult v).pending = s.pending := rfl
@[simp] theorem State.setResult_out (v : Word) (s : State) : (s.setResult v).out = s.out := rfl
@[simp] theorem State.setResult_rst (v : Word) (s : State) : (s.setResult v).rst = s.rst := rfl
@[simp] theorem State.setResult_sink (v : Word) (s : State) : (s.setResult v).sink = s.sink := rfl
@[simp] theorem State.setResult_host (v : Word) (s : State) : (s.setResult v).host = s.host := rfl
@[simp] theorem State.setResult_reads (v : Word) (s : State) : (s.setResult v).reads = s.reads := rfl

/-! ### State.setCode -/

@[simp] theorem State.setCode_params (v : CodeBits) (s : State) : (s.setCode v).params = s.params := rfl
@[simp] theorem State.setCode_busy (v : CodeBits) (s : State) : (s.setCode v).busy = s.busy := rfl
@[simp] theorem State.setCode_ftv (v : CodeBits) (s : State) : (s.setCode v).ftv = s.ftv := rfl
@[simp] theorem State.setCode_av (v : CodeBits) (s : State) : (s.setCode v).av = s.av := rfl
@[simp] theorem State.setCode_built (v : CodeBits) (s : State) : (s.setCode v).built = s.built := rfl
@[simp] theorem State.setCode_err (v : CodeBits) (s : State) : (s.setCode v).err = s.err := rfl
@[simp] theorem State.setCode_queue (v : CodeBits) (s : State) : (s.setCode v).queue = s.queue := rfl
@[simp] theorem State.setCode_result (v : CodeBits) (s : State) : (s.setCode v).result = s.result := rfl
@[simp] theorem State.setCode_code (v : CodeBits) (s : State) : (s.setCode v).code = v := rfl
@[simp] theorem State.setCode_root (v : CodeBits) (s : State) : (s.setCode v).root = s.root := rfl
@[simp] theorem State.setCode_rootNone (v : CodeBits) (s : State) : (s.setCode v).rootNone = s.rootNone := rfl
@[simp] theorem State.setCode_nleaf (v : CodeBits) (s : State) : (s.setCode v).nleaf = s.nleaf := rfl
@[simp] theorem State.setCode_nnode (v : CodeBits) (s : State) : (s.setCode v).nnode = s.nnode := rfl
@[simp] theorem State.setCode_freq (v : CodeBits) (s : State) : (s.setCode v).freq = s.freq := rfl
@[simp] theorem State.setCode_node (v : CodeBits) (s : State) : (s.setCode v).node = s.node := rfl
@[simp] theorem State.setCode_ct (v : CodeBits) (s : State) : (s.setCode v).ct = s.ct := rfl
@[simp] theorem State.setCode_pending (v : CodeBits) (s : State) : (s.setCode v).pending = s.pending := rfl
@[simp] theorem State.setCode_out (v : CodeBits) (s : State) : (s.setCode v).out = s.out := rfl
@[simp] theorem State.setCode_rst (v : CodeBits) (s : State) : (s.setCode v).rst = s.rst := rfl
@[simp] theorem State.setCode_sink (v : CodeBits) (s : State) : (s.setCode v).sink = s.sink := rfl
@[simp] theorem State.setCode_host (v : CodeBits) (s : State) : (s.setCode v).host = s.host := rfl
@[simp] theorem State.setCode_reads (v : CodeBits) (s : State) : (s.setCode v).reads = s.reads := rfl

/-! ### State.setFreq -/

@[simp] theorem State.setFreq_params (y : Symbol) (c : Count) (s : State) : (s.setFreq y c).params = s.params := rfl
@[simp] theorem State.setFreq_busy (y : Symbol) (c : Count) (s : State) : (s.setFreq y c).busy = s.busy := rfl
@[simp] theorem State.setFreq_ftv (y : Symbol) (c : Count) (s : State) : (s.setFreq y c).ftv = s.ftv := rfl
@[simp] theorem State.setFreq_av (y : Symbol) (c : Count) (s : State) : (s.setFreq y c).av = s.av := rfl
@[simp] theorem State.setFreq_built (y : Symbol) (c : Count) (s : State) : (s.setFreq y c).built = s.built := rfl
@[simp] theorem State.setFreq_err (y : Symbol) (c : Count) (s : State) : (s.setFreq y c).err = s.err := rfl
@[simp] theorem State.setFreq_queue (y : Symbol) (c : Count) (s : State) : (s.setFreq y c).queue = s.queue := rfl
@[simp] theorem State.setFreq_result (y : Symbol) (c : Count) (s : State) : (s.setFreq y c).result = s.result := rfl
@[simp] theorem State.setFreq_code (y : Symbol) (c : Count) (s : State) : (s.setFreq y c).code = s.code := rfl
@[simp] theorem State.setFreq_root (y : Symbol) (c : Count) (s : State) : (s.setFreq y c).root = s.root := rfl
@[simp] theorem State.setFreq_rootNone (y : Symbol) (c : Count) (s : State) :
    (s.setFreq y c).rootNone = s.rootNone := rfl
@[simp] theorem State.setFreq_nleaf (y : Symbol) (c : Count) (s : State) : (s.setFreq y c).nleaf = s.nleaf := rfl
@[simp] theorem State.setFreq_nnode (y : Symbol) (c : Count) (s : State) : (s.setFreq y c).nnode = s.nnode := rfl
@[simp] theorem State.setFreq_freq (y : Symbol) (c : Count) (s : State) :
    (s.setFreq y c).freq = s.freq.set y.toNat c y.isLt := rfl
@[simp] theorem State.setFreq_node (y : Symbol) (c : Count) (s : State) : (s.setFreq y c).node = s.node := rfl
@[simp] theorem State.setFreq_ct (y : Symbol) (c : Count) (s : State) : (s.setFreq y c).ct = s.ct := rfl
@[simp] theorem State.setFreq_pending (y : Symbol) (c : Count) (s : State) : (s.setFreq y c).pending = s.pending := rfl
@[simp] theorem State.setFreq_out (y : Symbol) (c : Count) (s : State) : (s.setFreq y c).out = s.out := rfl
@[simp] theorem State.setFreq_rst (y : Symbol) (c : Count) (s : State) : (s.setFreq y c).rst = s.rst := rfl
@[simp] theorem State.setFreq_sink (y : Symbol) (c : Count) (s : State) : (s.setFreq y c).sink = s.sink := rfl
@[simp] theorem State.setFreq_host (y : Symbol) (c : Count) (s : State) : (s.setFreq y c).host = s.host := rfl
@[simp] theorem State.setFreq_reads (y : Symbol) (c : Count) (s : State) : (s.setFreq y c).reads = s.reads := rfl

/-! ### State.markTable -/

@[simp] theorem State.markTable_params (s : State) : s.markTable.params = s.params := rfl
@[simp] theorem State.markTable_busy (s : State) : s.markTable.busy = s.busy := rfl
@[simp] theorem State.markTable_ftv (s : State) : s.markTable.ftv = true := rfl
@[simp] theorem State.markTable_av (s : State) : s.markTable.av = s.av := rfl
@[simp] theorem State.markTable_built (s : State) : s.markTable.built = s.built := rfl
@[simp] theorem State.markTable_err (s : State) : s.markTable.err = s.err := rfl
@[simp] theorem State.markTable_queue (s : State) : s.markTable.queue = s.queue := rfl
@[simp] theorem State.markTable_result (s : State) : s.markTable.result = s.result := rfl
@[simp] theorem State.markTable_code (s : State) : s.markTable.code = s.code := rfl
@[simp] theorem State.markTable_root (s : State) : s.markTable.root = s.root := rfl
@[simp] theorem State.markTable_rootNone (s : State) : s.markTable.rootNone = s.rootNone := rfl
@[simp] theorem State.markTable_nleaf (s : State) : s.markTable.nleaf = s.nleaf := rfl
@[simp] theorem State.markTable_nnode (s : State) : s.markTable.nnode = s.nnode := rfl
@[simp] theorem State.markTable_freq (s : State) : s.markTable.freq = s.freq := rfl
@[simp] theorem State.markTable_node (s : State) : s.markTable.node = s.node := rfl
@[simp] theorem State.markTable_ct (s : State) : s.markTable.ct = s.ct := rfl
@[simp] theorem State.markTable_pending (s : State) : s.markTable.pending = s.pending := rfl
@[simp] theorem State.markTable_out (s : State) : s.markTable.out = s.out := rfl
@[simp] theorem State.markTable_rst (s : State) : s.markTable.rst = s.rst := rfl
@[simp] theorem State.markTable_sink (s : State) : s.markTable.sink = s.sink := rfl
@[simp] theorem State.markTable_host (s : State) : s.markTable.host = s.host := rfl
@[simp] theorem State.markTable_reads (s : State) : s.markTable.reads = s.reads := rfl

/-! ### State.markViolation -/

@[simp] theorem State.markViolation_params (s : State) : s.markViolation.params = s.params := rfl
@[simp] theorem State.markViolation_busy (s : State) : s.markViolation.busy = s.busy := rfl
@[simp] theorem State.markViolation_ftv (s : State) : s.markViolation.ftv = s.ftv := rfl
@[simp] theorem State.markViolation_av (s : State) : s.markViolation.av = true := rfl
@[simp] theorem State.markViolation_built (s : State) : s.markViolation.built = s.built := rfl
@[simp] theorem State.markViolation_err (s : State) : s.markViolation.err = s.err := rfl
@[simp] theorem State.markViolation_queue (s : State) : s.markViolation.queue = s.queue := rfl
@[simp] theorem State.markViolation_result (s : State) : s.markViolation.result = s.result := rfl
@[simp] theorem State.markViolation_code (s : State) : s.markViolation.code = s.code := rfl
@[simp] theorem State.markViolation_root (s : State) : s.markViolation.root = s.root := rfl
@[simp] theorem State.markViolation_rootNone (s : State) : s.markViolation.rootNone = s.rootNone := rfl
@[simp] theorem State.markViolation_nleaf (s : State) : s.markViolation.nleaf = s.nleaf := rfl
@[simp] theorem State.markViolation_nnode (s : State) : s.markViolation.nnode = s.nnode := rfl
@[simp] theorem State.markViolation_freq (s : State) : s.markViolation.freq = s.freq := rfl
@[simp] theorem State.markViolation_node (s : State) : s.markViolation.node = s.node := rfl
@[simp] theorem State.markViolation_ct (s : State) : s.markViolation.ct = s.ct := rfl
@[simp] theorem State.markViolation_pending (s : State) : s.markViolation.pending = s.pending := rfl
@[simp] theorem State.markViolation_out (s : State) : s.markViolation.out = s.out := rfl
@[simp] theorem State.markViolation_rst (s : State) : s.markViolation.rst = s.rst := rfl
@[simp] theorem State.markViolation_sink (s : State) : s.markViolation.sink = s.sink := rfl
@[simp] theorem State.markViolation_host (s : State) : s.markViolation.host = s.host := rfl
@[simp] theorem State.markViolation_reads (s : State) : s.markViolation.reads = s.reads := rfl

/-! ### State.clearTable -/

@[simp] theorem State.clearTable_params (s : State) : s.clearTable.params = s.params := rfl
@[simp] theorem State.clearTable_busy (s : State) : s.clearTable.busy = s.busy := rfl
@[simp] theorem State.clearTable_ftv (s : State) : s.clearTable.ftv = true := rfl
@[simp] theorem State.clearTable_av (s : State) : s.clearTable.av = false := rfl
@[simp] theorem State.clearTable_built (s : State) : s.clearTable.built = false := rfl
@[simp] theorem State.clearTable_err (s : State) : s.clearTable.err = s.err := rfl
@[simp] theorem State.clearTable_queue (s : State) : s.clearTable.queue = s.queue := rfl
@[simp] theorem State.clearTable_result (s : State) : s.clearTable.result = s.result := rfl
@[simp] theorem State.clearTable_code (s : State) : s.clearTable.code = s.code := rfl
@[simp] theorem State.clearTable_root (s : State) : s.clearTable.root = 0#9 := rfl
@[simp] theorem State.clearTable_rootNone (s : State) : s.clearTable.rootNone = true := rfl
@[simp] theorem State.clearTable_nleaf (s : State) : s.clearTable.nleaf = 0#9 := rfl
@[simp] theorem State.clearTable_nnode (s : State) : s.clearTable.nnode = 0#10 := rfl
@[simp] theorem State.clearTable_freq (s : State) : s.clearTable.freq = Vector.replicate 256 0#32 := rfl
@[simp] theorem State.clearTable_node (s : State) : s.clearTable.node = s.node := rfl
@[simp] theorem State.clearTable_ct (s : State) : s.clearTable.ct = s.ct := rfl
@[simp] theorem State.clearTable_pending (s : State) : s.clearTable.pending = s.pending := rfl
@[simp] theorem State.clearTable_out (s : State) : s.clearTable.out = s.out := rfl
@[simp] theorem State.clearTable_rst (s : State) : s.clearTable.rst = s.rst := rfl
@[simp] theorem State.clearTable_sink (s : State) : s.clearTable.sink = s.sink := rfl
@[simp] theorem State.clearTable_host (s : State) : s.clearTable.host = s.host := rfl
@[simp] theorem State.clearTable_reads (s : State) : s.clearTable.reads = s.reads := rfl

/-! ### State.setQueue -/

@[simp] theorem State.setQueue_params (q : Queue) (s : State) : (s.setQueue q).params = s.params := rfl
@[simp] theorem State.setQueue_busy (q : Queue) (s : State) : (s.setQueue q).busy = s.busy := rfl
@[simp] theorem State.setQueue_ftv (q : Queue) (s : State) : (s.setQueue q).ftv = s.ftv := rfl
@[simp] theorem State.setQueue_av (q : Queue) (s : State) : (s.setQueue q).av = s.av := rfl
@[simp] theorem State.setQueue_built (q : Queue) (s : State) : (s.setQueue q).built = s.built := rfl
@[simp] theorem State.setQueue_err (q : Queue) (s : State) : (s.setQueue q).err = s.err := rfl
@[simp] theorem State.setQueue_queue (q : Queue) (s : State) : (s.setQueue q).queue = q := rfl
@[simp] theorem State.setQueue_result (q : Queue) (s : State) : (s.setQueue q).result = s.result := rfl
@[simp] theorem State.setQueue_code (q : Queue) (s : State) : (s.setQueue q).code = s.code := rfl
@[simp] theorem State.setQueue_root (q : Queue) (s : State) : (s.setQueue q).root = s.root := rfl
@[simp] theorem State.setQueue_rootNone (q : Queue) (s : State) : (s.setQueue q).rootNone = s.rootNone := rfl
@[simp] theorem State.setQueue_nleaf (q : Queue) (s : State) : (s.setQueue q).nleaf = s.nleaf := rfl
@[simp] theorem State.setQueue_nnode (q : Queue) (s : State) : (s.setQueue q).nnode = s.nnode := rfl
@[simp] theorem State.setQueue_freq (q : Queue) (s : State) : (s.setQueue q).freq = s.freq := rfl
@[simp] theorem State.setQueue_node (q : Queue) (s : State) : (s.setQueue q).node = s.node := rfl
@[simp] theorem State.setQueue_ct (q : Queue) (s : State) : (s.setQueue q).ct = s.ct := rfl
@[simp] theorem State.setQueue_pending (q : Queue) (s : State) : (s.setQueue q).pending = s.pending := rfl
@[simp] theorem State.setQueue_out (q : Queue) (s : State) : (s.setQueue q).out = s.out := rfl
@[simp] theorem State.setQueue_rst (q : Queue) (s : State) : (s.setQueue q).rst = s.rst := rfl
@[simp] theorem State.setQueue_sink (q : Queue) (s : State) : (s.setQueue q).sink = s.sink := rfl
@[simp] theorem State.setQueue_host (q : Queue) (s : State) : (s.setQueue q).host = s.host := rfl
@[simp] theorem State.setQueue_reads (q : Queue) (s : State) : (s.setQueue q).reads = s.reads := rfl

/-! ### State.emit -/

@[simp] theorem State.emit_params (bits : List Bool) (s : State) : (s.emit bits).params = s.params := rfl
@[simp] theorem State.emit_busy (bits : List Bool) (s : State) :
    (s.emit bits).busy = decide (s.sink.accepts bits.length < bits.length) := rfl
@[simp] theorem State.emit_ftv (bits : List Bool) (s : State) : (s.emit bits).ftv = s.ftv := rfl
@[simp] theorem State.emit_av (bits : List Bool) (s : State) : (s.emit bits).av = s.av := rfl
@[simp] theorem State.emit_built (bits : List Bool) (s : State) : (s.emit bits).built = s.built := rfl
@[simp] theorem State.emit_err (bits : List Bool) (s : State) :
    (s.emit bits).err = if s.sink.accepts bits.length < bits.length then s.err else 0#4 := rfl
@[simp] theorem State.emit_queue (bits : List Bool) (s : State) : (s.emit bits).queue = s.queue := rfl
@[simp] theorem State.emit_result (bits : List Bool) (s : State) : (s.emit bits).result = s.result := rfl
@[simp] theorem State.emit_code (bits : List Bool) (s : State) : (s.emit bits).code = s.code := rfl
@[simp] theorem State.emit_root (bits : List Bool) (s : State) : (s.emit bits).root = s.root := rfl
@[simp] theorem State.emit_rootNone (bits : List Bool) (s : State) : (s.emit bits).rootNone = s.rootNone := rfl
@[simp] theorem State.emit_nleaf (bits : List Bool) (s : State) : (s.emit bits).nleaf = s.nleaf := rfl
@[simp] theorem State.emit_nnode (bits : List Bool) (s : State) : (s.emit bits).nnode = s.nnode := rfl
@[simp] theorem State.emit_freq (bits : List Bool) (s : State) : (s.emit bits).freq = s.freq := rfl
@[simp] theorem State.emit_node (bits : List Bool) (s : State) : (s.emit bits).node = s.node := rfl
@[simp] theorem State.emit_ct (bits : List Bool) (s : State) : (s.emit bits).ct = s.ct := rfl
@[simp] theorem State.emit_pending (bits : List Bool) (s : State) :
    (s.emit bits).pending = bits.drop (s.sink.accepts bits.length) := rfl
@[simp] theorem State.emit_out (bits : List Bool) (s : State) :
    (s.emit bits).out = s.out ++ bits.take (s.sink.accepts bits.length) := rfl
@[simp] theorem State.emit_rst (bits : List Bool) (s : State) : (s.emit bits).rst = s.rst := rfl
@[simp] theorem State.emit_sink (bits : List Bool) (s : State) :
    (s.emit bits).sink = s.sink.after (s.sink.accepts bits.length) := rfl
@[simp] theorem State.emit_host (bits : List Bool) (s : State) : (s.emit bits).host = s.host := rfl
@[simp] theorem State.emit_reads (bits : List Bool) (s : State) : (s.emit bits).reads = s.reads := rfl

/-! ### State.assertReset -/

@[simp] theorem State.assertReset_params (s : State) : s.assertReset.params = s.params := rfl
@[simp] theorem State.assertReset_busy (s : State) : s.assertReset.busy = false := rfl
@[simp] theorem State.assertReset_ftv (s : State) : s.assertReset.ftv = false := rfl
@[simp] theorem State.assertReset_av (s : State) : s.assertReset.av = false := rfl
@[simp] theorem State.assertReset_built (s : State) : s.assertReset.built = false := rfl
@[simp] theorem State.assertReset_err (s : State) : s.assertReset.err = 0#4 := rfl
@[simp] theorem State.assertReset_queue (s : State) : s.assertReset.queue = (State.resetOf s.params).queue := rfl
@[simp] theorem State.assertReset_result (s : State) : s.assertReset.result = 0#64 := rfl
@[simp] theorem State.assertReset_code (s : State) : s.assertReset.code = 0#256 := rfl
@[simp] theorem State.assertReset_root (s : State) : s.assertReset.root = 0#9 := rfl
@[simp] theorem State.assertReset_rootNone (s : State) : s.assertReset.rootNone = true := rfl
@[simp] theorem State.assertReset_nleaf (s : State) : s.assertReset.nleaf = 0#9 := rfl
@[simp] theorem State.assertReset_nnode (s : State) : s.assertReset.nnode = 0#10 := rfl
@[simp] theorem State.assertReset_freq (s : State) : s.assertReset.freq = Vector.replicate 256 0#32 := rfl
@[simp] theorem State.assertReset_node (s : State) : s.assertReset.node = Vector.replicate 511 NodeEntry.zero := rfl
@[simp] theorem State.assertReset_ct (s : State) : s.assertReset.ct = Vector.replicate 256 CtEntry.absent := rfl
@[simp] theorem State.assertReset_pending (s : State) : s.assertReset.pending = [] := rfl
@[simp] theorem State.assertReset_out (s : State) : s.assertReset.out = s.out := rfl
@[simp] theorem State.assertReset_rst (s : State) : s.assertReset.rst = true := rfl
@[simp] theorem State.assertReset_sink (s : State) : s.assertReset.sink = s.sink := rfl
@[simp] theorem State.assertReset_host (s : State) : s.assertReset.host = s.host := rfl
@[simp] theorem State.assertReset_reads (s : State) : s.assertReset.reads = s.reads := rfl

/-! ### State.logRead -/

@[simp] theorem State.logRead_params (i : BitVec 8) (s : State) : (s.logRead i).params = s.params := rfl
@[simp] theorem State.logRead_busy (i : BitVec 8) (s : State) : (s.logRead i).busy = s.busy := rfl
@[simp] theorem State.logRead_ftv (i : BitVec 8) (s : State) : (s.logRead i).ftv = s.ftv := rfl
@[simp] theorem State.logRead_av (i : BitVec 8) (s : State) : (s.logRead i).av = s.av := rfl
@[simp] theorem State.logRead_built (i : BitVec 8) (s : State) : (s.logRead i).built = s.built := rfl
@[simp] theorem State.logRead_err (i : BitVec 8) (s : State) : (s.logRead i).err = s.err := rfl
@[simp] theorem State.logRead_queue (i : BitVec 8) (s : State) : (s.logRead i).queue = s.queue := rfl
@[simp] theorem State.logRead_result (i : BitVec 8) (s : State) : (s.logRead i).result = s.result := rfl
@[simp] theorem State.logRead_code (i : BitVec 8) (s : State) : (s.logRead i).code = s.code := rfl
@[simp] theorem State.logRead_root (i : BitVec 8) (s : State) : (s.logRead i).root = s.root := rfl
@[simp] theorem State.logRead_rootNone (i : BitVec 8) (s : State) : (s.logRead i).rootNone = s.rootNone := rfl
@[simp] theorem State.logRead_nleaf (i : BitVec 8) (s : State) : (s.logRead i).nleaf = s.nleaf := rfl
@[simp] theorem State.logRead_nnode (i : BitVec 8) (s : State) : (s.logRead i).nnode = s.nnode := rfl
@[simp] theorem State.logRead_freq (i : BitVec 8) (s : State) : (s.logRead i).freq = s.freq := rfl
@[simp] theorem State.logRead_node (i : BitVec 8) (s : State) : (s.logRead i).node = s.node := rfl
@[simp] theorem State.logRead_ct (i : BitVec 8) (s : State) : (s.logRead i).ct = s.ct := rfl
@[simp] theorem State.logRead_pending (i : BitVec 8) (s : State) : (s.logRead i).pending = s.pending := rfl
@[simp] theorem State.logRead_out (i : BitVec 8) (s : State) : (s.logRead i).out = s.out := rfl
@[simp] theorem State.logRead_rst (i : BitVec 8) (s : State) : (s.logRead i).rst = s.rst := rfl
@[simp] theorem State.logRead_sink (i : BitVec 8) (s : State) : (s.logRead i).sink = s.sink := rfl
@[simp] theorem State.logRead_host (i : BitVec 8) (s : State) : (s.logRead i).host = s.host := rfl
@[simp] theorem State.logRead_reads (i : BitVec 8) (s : State) :
    (s.logRead i).reads = s.reads ++ [s.readPort (Config.busyRead s.reads.length) i] := rfl

/-! ### State.buildTables -/

@[simp] theorem State.buildTables_params (s : State) : s.buildTables.params = s.params := rfl
@[simp] theorem State.buildTables_busy (s : State) : s.buildTables.busy = s.busy := rfl
@[simp] theorem State.buildTables_ftv (s : State) : s.buildTables.ftv = s.ftv := rfl
@[simp] theorem State.buildTables_av (s : State) : s.buildTables.av = s.av := rfl
@[simp] theorem State.buildTables_built (s : State) : s.buildTables.built = true := rfl
@[simp] theorem State.buildTables_err (s : State) : s.buildTables.err = s.err := rfl
@[simp] theorem State.buildTables_result (s : State) : s.buildTables.result = s.result := rfl
@[simp] theorem State.buildTables_code (s : State) : s.buildTables.code = s.code := rfl
@[simp] theorem State.buildTables_freq (s : State) : s.buildTables.freq = s.freq := rfl
@[simp] theorem State.buildTables_pending (s : State) : s.buildTables.pending = s.pending := rfl
@[simp] theorem State.buildTables_out (s : State) : s.buildTables.out = s.out := rfl
@[simp] theorem State.buildTables_rst (s : State) : s.buildTables.rst = s.rst := rfl
@[simp] theorem State.buildTables_sink (s : State) : s.buildTables.sink = s.sink := rfl
@[simp] theorem State.buildTables_host (s : State) : s.buildTables.host = s.host := rfl
@[simp] theorem State.buildTables_reads (s : State) : s.buildTables.reads = s.reads := rfl

end Sys2Proof.Machine
end

