-- ==== Sys2Proof/Laws/Walk.lean ====
section
/-! SUPPORT. What the code generator's walk writes (spec/41_huffman_tree_builder.md R152, R153, R159), said over the tree
that the node store spells out from a handle. -/

namespace Sys2Proof.Machine

open Sys2Proof

/-- A binary tree with symbols at its leaves: what the code table depends on. -/
inductive CodeTree where
  | leaf (y : Symbol)
  | node (l r : CodeTree)
  deriving DecidableEq, Repr

/-- The longest path of a tree. -/
def CodeTree.depth : CodeTree → Nat
  | .leaf _ => 0
  | .node l r => max l.depth r.depth + 1

/-- Each leaf's symbol with the path to it, in pre-order, left (0) first (R153). -/
def CodeTree.codes : CodeTree → List (Symbol × List Bool)
  | .leaf y => [(y, [])]
  | .node l r =>
    (l.codes.map fun c => (c.1, false :: c.2)) ++ r.codes.map fun c => (c.1, true :: c.2)

/-- The node store spells out the tree from handle h. -/
def Spells (node : Vector NodeEntry 511) : Nat → CodeTree → Prop
  | h, .leaf y => ∃ w, nodeAt node h = .leaf w y
  | h, .node l r => ∃ w a b, nodeAt node h = .internal w a b ∧ Spells node a.toNat l ∧ Spells node b.toNat r

/-- The bits of a path after the bits of another: `(path << 1) | b` for each (R152). -/
def appendBits (path : CodeBits) : List Bool → CodeBits
  | [] => path
  | b :: bs => appendBits (path <<< 1 ||| (if b then 1#256 else 0#256)) bs

/-- The code table after the walk has written some leaves. -/
def writeCodes (path : CodeBits) (len : BitVec 9) (codes : List (Symbol × List Bool)) (ct : Vector CtEntry 256) :
    Vector CtEntry 256 :=
  codes.foldl (fun ct c => setCt ct c.1
    { present := true, len := len + BitVec.ofNat 9 c.2.length, bits := appendBits path c.2 }) ct

theorem writeCodes_append (path : CodeBits) (len : BitVec 9) (xs ys : List (Symbol × List Bool))
    (ct : Vector CtEntry 256) :
    writeCodes path len (xs ++ ys) ct = writeCodes path len ys (writeCodes path len xs ct) := by
  simp [writeCodes, List.foldl_append]

/-- Codes that all begin with one bit are the codes without it after a path one bit longer. -/
theorem writeCodes_cons (path : CodeBits) (len : BitVec 9) (b : Bool) (cs : List (Symbol × List Bool))
    (ct : Vector CtEntry 256) :
    writeCodes path len (cs.map fun c => (c.1, b :: c.2)) ct =
      writeCodes (path <<< 1 ||| (if b then 1#256 else 0#256)) (len + 1#9) cs ct := by
  unfold writeCodes
  rw [List.foldl_map]
  congr 1
  funext ct c
  have hl : len + BitVec.ofNat 9 (c.2.length + 1) = len + 1#9 + BitVec.ofNat 9 c.2.length := by
    rw [BitVec.ofNat_add, BitVec.add_assoc, BitVec.add_comm (BitVec.ofNat 9 c.2.length)]
  simp [appendBits, hl]

/-- The walk from h writes exactly the codes of the tree that stands there (R152, R153). -/
theorem walk_spec (node : Vector NodeEntry 511) (t : CodeTree) (fuel : Nat) (h : Handle) (path : CodeBits)
    (len : BitVec 9) (ct : Vector CtEntry 256) (ht : Spells node h.toNat t) (hf : t.depth < fuel) :
    walk node fuel h path len ct = writeCodes path len t.codes ct := by
  induction t generalizing fuel h path len ct with
  | leaf y =>
    obtain ⟨w, hw⟩ := ht
    obtain ⟨fuel, rfl⟩ : ∃ n, fuel = n + 1 := ⟨fuel - 1, by omega⟩
    simp [walk, hw, writeCodes, CodeTree.codes, appendBits]
  | node l r ihl ihr =>
    obtain ⟨w, a, b, hn, hl, hr⟩ := ht
    simp only [CodeTree.depth] at hf
    obtain ⟨fuel, rfl⟩ : ∃ n, fuel = n + 1 := ⟨fuel - 1, by omega⟩
    simp only [walk, hn, CodeTree.codes, writeCodes_append, writeCodes_cons]
    rw [ihl fuel a _ _ _ hl (by omega), ihr fuel b _ _ _ hr (by omega)]
    rfl

/-- Where every child's handle is below its parent's (R147), a tree stands at each handle, no deeper than the handle. -/
theorem exists_codeTree (node : Vector NodeEntry 511) (n : Nat)
    (hn : ∀ h, h < n → (∃ w y, nodeAt node h = .leaf w y) ∨
      ∃ w l r, nodeAt node h = .internal w l r ∧ l.toNat < h ∧ r.toNat < h) :
    ∀ h, h < n → ∃ t, Spells node h t ∧ t.depth ≤ h := by
  intro h
  induction h using Nat.strongRecOn with
  | _ h ih =>
    intro hh
    obtain ⟨w, y, hl⟩ | ⟨w, l, r, hi, hl, hr⟩ := hn h hh
    · exact ⟨.leaf y, ⟨w, hl⟩, Nat.zero_le _⟩
    · obtain ⟨tl, sl, dl⟩ := ih l.toNat hl (by omega)
      obtain ⟨tr, sr, dr⟩ := ih r.toNat hr (by omega)
      refine ⟨.node tl tr, ⟨w, l, r, hi, sl, sr⟩, ?_⟩
      simp only [CodeTree.depth]; omega

/-- The tree at a handle is one tree. -/
theorem Spells.unique {node : Vector NodeEntry 511} {h : Nat} {t u : CodeTree} (ht : Spells node h t)
    (hu : Spells node h u) : t = u := by
  induction t generalizing h u with
  | leaf y =>
    obtain ⟨w, hw⟩ := ht
    cases u with
    | leaf z => obtain ⟨v, hv⟩ := hu; rw [hw] at hv; injection hv with _ h2; rw [h2]
    | node l r => obtain ⟨_, _, _, hv, -, -⟩ := hu; rw [hw] at hv; exact absurd hv (by simp)
  | node l r ihl ihr =>
    obtain ⟨w, a, b, hn, hl, hr⟩ := ht
    cases u with
    | leaf z => obtain ⟨v, hv⟩ := hu; rw [hn] at hv; exact absurd hv (by simp)
    | node l' r' =>
      obtain ⟨w', a', b', hn', hl', hr'⟩ := hu
      rw [hn] at hn'
      injection hn' with _ h2 h3
      subst h2; subst h3
      rw [ihl hl hl', ihr hr hr']

/-- Every code of a tree is the path to its leaf (R153). -/
theorem followPath_of_mem_codes {node : Vector NodeEntry 511} {t : CodeTree} {h : Handle} (ht : Spells node h.toNat t)
    {c : Symbol × List Bool} (hc : c ∈ t.codes) : ∃ w, followPath node h c.2 = some (.leaf w c.1) := by
  induction t generalizing h c with
  | leaf y =>
    obtain ⟨w, hw⟩ := ht
    rw [CodeTree.codes, List.mem_singleton] at hc
    subst hc
    exact ⟨w, by simp [followPath, hw]⟩
  | node l r ihl ihr =>
    obtain ⟨w, a, b, hn, hl, hr⟩ := ht
    simp only [CodeTree.codes, List.mem_append, List.mem_map] at hc
    rcases hc with ⟨c, hc, rfl⟩ | ⟨c, hc, rfl⟩
    · obtain ⟨v, hv⟩ := ihl hl hc
      exact ⟨v, by simpa [followPath, hn] using hv⟩
    · obtain ⟨v, hv⟩ := ihr hr hc
      exact ⟨v, by simpa [followPath, hn] using hv⟩

/-- Two places of a tree's code list hold codes of which neither begins with the other (R163). -/
theorem CodeTree.codes_pairwise (t : CodeTree) :
    t.codes.Pairwise fun c d => ¬ c.2.IsPrefix d.2 ∧ ¬ d.2.IsPrefix c.2 := by
  induction t with
  | leaf y => simp [CodeTree.codes]
  | node l r ihl ihr =>
    rw [CodeTree.codes, List.pairwise_append, List.pairwise_map, List.pairwise_map]
    refine ⟨ihl.imp fun h => ?_, ihr.imp fun h => ?_, ?_⟩
    · simpa [List.cons_prefix_cons] using h
    · simpa [List.cons_prefix_cons] using h
    · intro c hc d hd
      obtain ⟨c, -, rfl⟩ := List.mem_map.1 hc
      obtain ⟨d, -, rfl⟩ := List.mem_map.1 hd
      simp [List.cons_prefix_cons]

/-- The Kraft sum of a tree's codes is exactly 1, in units of 2^-n for any n of at least its depth (R164). -/
theorem CodeTree.kraft (t : CodeTree) (n : Nat) (hn : t.depth ≤ n) :
    (t.codes.map fun c => 2 ^ (n - c.2.length)).sum = 2 ^ n := by
  induction t generalizing n with
  | leaf y => simp [CodeTree.codes]
  | node l r ihl ihr =>
    simp only [CodeTree.depth] at hn
    obtain ⟨n, rfl⟩ : ∃ m, n = m + 1 := ⟨n - 1, by omega⟩
    have hl := ihl n (by omega)
    have hr := ihr n (by omega)
    simp only [CodeTree.codes, List.map_append, List.map_map, List.sum_append, Function.comp_def, List.length_cons,
      Nat.add_sub_add_right, hl, hr]
    omega

/-! ### The table that the walk writes -/

theorem getElem_setCt (ct : Vector CtEntry 256) (y z : Symbol) (e : CtEntry) :
    (setCt ct y e)[z.toNat]'z.isLt = if z = y then e else ct[z.toNat]'z.isLt := by
  unfold setCt
  rw [Vector.getElem_set]
  by_cases h : z = y
  · subst h; simp
  · have : ¬ y.toNat = z.toNat := fun hh => h (BitVec.eq_of_toNat_eq hh.symm)
    simp [h, this]

/-- A symbol that no code names keeps its entry. -/
theorem writeCodes_of_not_mem (path : CodeBits) (len : BitVec 9) (cs : List (Symbol × List Bool))
    (ct : Vector CtEntry 256) (z : Symbol) (hz : z ∉ cs.map (·.1)) :
    (writeCodes path len cs ct)[z.toNat]'z.isLt = ct[z.toNat]'z.isLt := by
  induction cs generalizing ct with
  | nil => rfl
  | cons c cs ih =>
    simp only [List.map_cons, List.mem_cons, not_or] at hz
    show (writeCodes path len cs (setCt ct c.1 _))[z.toNat]'z.isLt = _
    rw [ih _ hz.2, getElem_setCt, if_neg hz.1]

/-- A symbol that one code names gets it. -/
theorem writeCodes_of_mem (path : CodeBits) (len : BitVec 9) (cs : List (Symbol × List Bool)) (ct : Vector CtEntry 256)
    (hnd : (cs.map (·.1)).Nodup) (c : Symbol × List Bool) (hc : c ∈ cs) :
    (writeCodes path len cs ct)[c.1.toNat]'c.1.isLt =
      { present := true, len := len + BitVec.ofNat 9 c.2.length, bits := appendBits path c.2 } := by
  induction cs generalizing ct with
  | nil => simp at hc
  | cons d cs ih =>
    rw [List.map_cons, List.nodup_cons] at hnd
    show (writeCodes path len cs (setCt ct d.1 _))[c.1.toNat]'c.1.isLt = _
    rcases List.mem_cons.1 hc with rfl | hc
    · rw [writeCodes_of_not_mem _ _ _ _ _ hnd.1, getElem_setCt, if_pos rfl]
    · exact ih _ hnd.2 hc

/-- The value of a path's bits: each appended bit doubles it and adds itself (R152, R159). -/
theorem appendBits_toNat (bs : List Bool) (path : CodeBits) (n : Nat) (hp : path.toNat < 2 ^ n)
    (hn : n + bs.length ≤ 256) :
    (appendBits path bs).toNat = bs.foldl (fun v b => 2 * v + b.toNat) path.toNat ∧
      (appendBits path bs).toNat < 2 ^ (n + bs.length) := by
  induction bs generalizing path n with
  | nil => exact ⟨rfl, by simpa [appendBits] using hp⟩
  | cons b bs ih =>
    rw [List.length_cons] at hn
    have hpow : 2 ^ (n + 1) ≤ 2 ^ 256 := Nat.pow_le_pow_right (by omega) (by omega)
    have hpow' : 2 ^ (n + 1) = 2 * 2 ^ n := by rw [Nat.pow_succ]; omega
    have hstep : (path <<< 1 ||| (if b then 1#256 else 0#256)).toNat = 2 * path.toNat + b.toNat := by
      have hsh : (path <<< 1).toNat = 2 * path.toNat := by
        rw [BitVec.toNat_shiftLeft, Nat.shiftLeft_eq, Nat.mod_eq_of_lt] <;> omega
      rw [BitVec.toNat_or, hsh]
      cases b with
      | false => simp
      | true =>
        have := Nat.two_pow_add_eq_or_of_lt (i := 1) (b := 1) (by omega) path.toNat
        simp only [Nat.pow_one] at this
        simpa using this.symm
    have hb : b.toNat ≤ 1 := by cases b <;> simp
    obtain ⟨h1, h2⟩ := ih _ (n + 1) (by rw [hstep]; omega) (by omega)
    rw [hstep] at h1
    refine ⟨h1, ?_⟩
    rw [List.length_cons, show n + (bs.length + 1) = n + 1 + bs.length by omega]
    exact h2

end Sys2Proof.Machine
end

