-- ==== Sys2Proof/Tests/Slice0.lean ====
section
/-! SUPPORT. The model's own tests: the WellFormed smoke test, decoding of words written out from spec/30_encoding.md,
one step of each command with the results of spec/95_test_vectors.md, and a witness for the hypotheses of each statement. -/

namespace Sys2Proof.Tests

open Sys2Proof Sys2Proof.Machine

/-! ### Helpers -/

/-- The state after one step on the word w, or s if the step does not answer one. -/
def ran (s : State) (w : Nat) : State := (nextState? (step (s.withFetchWord 64 w))).getD s

/-- The state after one step on the host's next act. -/
def stepped (s : State) : State := (nextState? (step s)).getD s

/-- The first n elements of the heap as (PRIO, PAY) pairs. -/
def heapOf (s : State) : List (Nat × Nat) := s.queue.live.map fun e => (e.prio.toNat, e.pay.toNat)

/-- A queue of capacity 16 with the given (PRIO, PAY) pairs. -/
def queueOf (xs : List (Nat × Nat)) : Queue :=
  { slots := xs.map (fun x => { prio := BitVec.ofNat 40 x.1, pay := BitVec.ofNat 15 x.2 }) ++
      List.replicate (256 - xs.length) HeapEntry.zero
    hsize := BitVec.ofNat 16 xs.length
    hcap := 16#16 }

/-- After reset with those elements in the heap. -/
def withHeap (xs : List (Nat × Nat)) : State := { State.reset with queue := queueOf xs }

/-- A loaded, not yet built table: the classic frequencies of spec/95 W1. -/
def classicTable : State :=
  (((((State.reset.setFreq 0x61#8 5#32).setFreq 0x62#8 9#32).setFreq 0x63#8 12#32).setFreq 0x64#8 13#32).setFreq
    0x65#8 16#32).setFreq 0x66#8 45#32 |>.markTable

/-- A loaded table of one symbol (spec/95 B3): 'x' seven times. -/
def singleTable : State := (State.reset.setFreq 0x78#8 7#32).markTable

/-- A built state in which 'a' has the code "1100" (spec/95 W1) and the store holds node 10 of N1. -/
def builtA : State :=
  { State.reset with
    ftv := true
    built := true
    freq := State.reset.freq.set 0x61 5#32
    ct := State.reset.ct.set 0x61 { present := true, len := 4#9, bits := 0xC#256 }
    node := setNode (setNode State.reset.node 0 (.leaf 5#40 0x61#8)) 10 (.internal 100#40 5#9 9#9)
    root := 10#9
    rootNone := false
    nleaf := 6#9
    nnode := 11#10 }

/-- builtA with ENCODE 'a' waiting after its first bit. -/
def waitingA : State := { builtA with busy := true, pending := [true, false, false], out := [true], sink := .upTo 0 }

/-! ### WellFormed (R89, R92) -/

theorem test_wf_missing_element : (Instr.pqInsert false 0#15 9#40).wf = true := by decide
theorem test_wf_refuses_missing_element_with_payload : (Instr.pqInsert false 5#15 9#40).wf = false := by decide

/-! ### Decoding: words written out from the formats of R81 to R86 -/

theorem test_decode_nop : decode 0b0000000000000000000000000000000000000000000000000000000000000000#64 = .command .nop := by decide
theorem test_decode_freqClear : decode 0b0000000100000000000000000000000000000000000000000000000000000000#64 = .command .freqClear := by decide
theorem test_decode_freqWrite :
    decode 0b0000001000000001001011000000000000000000000000000000000000000101#64 = .command (.freqWrite 300#16 5#32) := by decide
theorem test_decode_freqRead :
    decode 0b0000001100000000011000010000000000000000000000000000000000000000#64 = .command (.freqRead 0x61#16) := by decide
theorem test_decode_build : decode 0b0001000000000000000000000000000000000000000000000000000000000000#64 = .command .build := by decide
theorem test_decode_nodeRead :
    decode 0b0001000100000000000010100000000000000000000000000000000000000000#64 = .command (.nodeRead 10#16) := by decide
theorem test_decode_encode :
    decode 0b0010000011111111111111110000000000000000000000000000000000000000#64 = .command (.encode 0xFFFF#16) := by decide
theorem test_decode_statRead :
    decode 0b0010000100000000011000010000000000000000000000000000000000000000#64 = .command (.statRead 0x61#16) := by decide
theorem test_decode_pqInsert :
    decode 0b0011000010000000000001110000000000000000000000000000000001100100#64 = .command (.pqInsert true 7#15 100#40) := by decide
theorem test_decode_pqInsert_missing :
    decode 0b0011000000000000000001010000000000000000000000000000000000001001#64 = .command (.pqInsert false 0#15 9#40) := by decide
theorem test_decode_pqRemoveMin : decode 0b0011000100000000000000000000000000000000000000000000000000000000#64 = .command .pqRemoveMin := by decide
theorem test_decode_pqSize : decode 0b0011001000000000000000000000000000000000000000000000000000000000#64 = .command .pqSize := by decide
theorem test_decode_pqClear : decode 0b0011001100000000000000000000000000000000000000000000000000000000#64 = .command .pqClear := by decide
theorem test_decode_unassigned : decode 0x0400000000000000#64 = .illegal .unassignedOpcode := by decide
theorem test_decode_reserved : decode 0x0201000100000005#64 = .illegal .reservedNonzero := by decide
theorem test_encode_pqInsert : encode (.pqInsert true 7#15 100#40) = 0x3080070000000064#64 := by decide
theorem test_encode_freqWrite : encode (.freqWrite 0x61#16 5#32) = 0x0200610000000005#64 := by decide
theorem test_bytes : wordOfBytes (wordBytes 0x0102030405060708#64) = some 0x0102030405060708#64 ∧
    (wordBytes 0x0102030405060708#64).head? = some 0x08#8 := by decide

/-! ### The assembler (R89, R90) -/

theorem test_assemble_pseudo :
    assemble ["t:  BUILD_CODE 'a':5, 0x62:9 ; table".toList, "ENCODE_SEQ".toList, "PQ_DRAIN 2".toList] =
      some [0x0100000000000000#64, 0x0200610000000005#64, 0x0200620000000009#64, 0x1000000000000000#64,
        0x3100000000000000#64, 0x3100000000000000#64] := by decide +kernel
theorem test_assemble_forms :
    assemble ["PQ_INSERT nil, 9".toList, ".word 0xFF00000000000000".toList, "ENCODE 'a'".toList] =
      some [0x3000000000000009#64, 0xFF00000000000000#64, 0x2000610000000000#64] ∧
    parseLine "PQ_INSERT 0x8000, 1".toList = none := by decide +kernel

/-! ### One step of each command (spec/95_test_vectors.md) -/

/-- G1: NOP replaces ERR = 3 by 0. -/
theorem test_nop : (ran { State.reset with err := 3#4 } 0x0000000000000000).statusWord = 0x0000001000000000#64 := by decide +kernel
/-- G1: an unassigned opcode. -/
theorem test_illegal : (ran State.reset 0xFF00000000000000).statusWord = 0x0000001000000500#64 := by decide +kernel
/-- R140's example. -/
theorem test_freqClear : (ran State.reset 0x0100000000000000).statusWord = 0x0000001000000002#64 := by decide +kernel
/-- F1: FREQ_WRITE 'a', 5. -/
theorem test_freqWrite : (ran State.reset 0x0200610000000005).freqAt 0x61#8 = 5#32 ∧
    (ran State.reset 0x0200610000000005).statusWord = 0x0000001000000002#64 := by decide +kernel
/-- F1: FREQ_WRITE 300, 5 sets AV. -/
theorem test_freqWrite_violation : (ran State.reset 0x02012C0000000005).statusWord = 0x0000001000000006#64 := by decide +kernel
/-- F1: FREQ_READ 'a'. -/
theorem test_freqRead : (ran classicTable 0x0300610000000000).result = 5#64 := by decide +kernel
/-- F1: FREQ_READ 300. -/
theorem test_freqRead_violation : (ran State.reset 0x03012C0000000000).statusWord = 0x0000001000000400#64 := by decide +kernel
/-- B1: TREE after the classic BUILD. -/
theorem test_build_registers : (ran classicTable 0x1000000000000000).treeWord = 0x0000000B0006000A#64 := by decide +kernel
/-- W1: the code of 'a' is "1100". -/
theorem test_build_codes : (ran classicTable 0x1000000000000000).codeOf 0x61#8 = [true, true, false, false] := by decide +kernel
/-- N1: NODE_READ 0 and NODE_READ 10. -/
theorem test_nodeRead : (ran builtA 0x1100000000000000).result = 0x0000610000000005#64 ∧
    (ran builtA 0x11000A0000000000).result = 0x8012050000000064#64 := by decide +kernel
/-- N1: NODE_READ 11 is out of range. -/
theorem test_nodeRead_range : (ran builtA 0x11000B0000000000).statusWord = 0x000000100000020A#64 := by decide +kernel
/-- E2, E4: ENCODE 'a' emits 1, 1, 0, 0. -/
theorem test_encode : (ran builtA 0x2000610000000000).out = [true, true, false, false] := by decide +kernel
/-- E2: ENCODE 'g' has no code. -/
theorem test_encode_unknown : (ran builtA 0x2000670000000000).statusWord = 0x000000100000030A#64 := by decide +kernel
/-- R66, R245: a sink that accepts one bit leaves the ENCODE waiting with BUSY = 1. -/
theorem test_encode_waits : (ran { builtA with sink := .upTo 1 } 0x2000610000000000).out = [true] ∧
    (ran { builtA with sink := .upTo 1 } 0x2000610000000000).pending = [true, false, false] ∧
    (ran { builtA with sink := .upTo 1 } 0x2000610000000000).busy = true := by decide +kernel
/-- E1: STAT_READ 'a'. -/
theorem test_statRead : (ran builtA 0x2100610000000000).result = 0x8000000400000005#64 ∧
    (ran builtA 0x2100610000000000).code = 0xC#256 := by decide +kernel
/-- E1: STAT_READ of a symbol without a code. -/
theorem test_statRead_absent : (ran builtA 0x2100670000000000).result = 0#64 ∧
    (ran builtA 0x2100670000000000).err = 0#4 := by decide +kernel
/-- Q2, fourth insert: two levels of sift-up. -/
theorem test_pqInsert : heapOf (ran (withHeap [(20, 2), (50, 1), (40, 3)]) 0x308004000000000A) =
    [(10, 4), (20, 2), (40, 3), (50, 1)] := by decide +kernel
/-- Q5: the 17th insert doubles HCAP. -/
theorem test_pqInsert_grows : (ran (withHeap ((List.range 16).map fun i => (i + 2, i))) 0x3080100000000001).statusWord =
    0x0000002000110000#64 := by decide +kernel
/-- Q2, first removal. -/
theorem test_pqRemoveMin : heapOf (ran (withHeap [(10, 4), (20, 2), (40, 3), (50, 1), (30, 5)]) 0x3100000000000000) =
    [(20, 2), (30, 5), (40, 3), (50, 1)] ∧
    (ran (withHeap [(10, 4), (20, 2), (40, 3), (50, 1), (30, 5)]) 0x3100000000000000).result = 0x000004000000000A#64 := by decide +kernel
/-- Q3: equal children, the left one wins. -/
theorem test_pqRemoveMin_ties : heapOf (ran (withHeap [(5, 1), (5, 2), (5, 3)]) 0x3100000000000000) = [(5, 3), (5, 2)] := by decide +kernel
/-- Q2: PQ_SIZE. -/
theorem test_pqSize : (ran (withHeap [(10, 4), (20, 2), (40, 3), (50, 1), (30, 5)]) 0x3200000000000000).result = 5#64 := by decide +kernel
/-- Q5: PQ_CLEAR. -/
theorem test_pqClear : (ran (withHeap [(10, 4)]) 0x3300000000000000).statusWord = 0x0000001000000000#64 := by decide +kernel

/-! ### The ports -/

/-- R62: STATUS after reset through the register port. -/
theorem test_read_status : (stepped { State.reset with host := [.read 0#8] }).reads = [0x0000001000000000#64] := by decide +kernel
/-- R66: the waiting ENCODE goes on when the sink opens. -/
theorem test_sink_opens : (stepped { waitingA with host := [.offer 0#64, .sink .always] }).out = [true, true, false, false] ∧
    (stepped { waitingA with host := [.offer 0#64, .sink .always] }).host = [.offer 0#64] := by decide +kernel
/-- R241: reset withdraws the offered bit and keeps the accepted one. -/
theorem test_reset_keeps_out : (stepped { waitingA with host := [.rst true] }).out = [true] ∧
    (stepped { waitingA with host := [.rst true] }).pending = [] ∧
    (stepped { waitingA with host := [.rst true] }).treeWord = 0x8000#64 := by decide +kernel
/-- R44: TREE after reset. -/
theorem test_reset_tree : State.reset.treeWord = 0x0000000000008000#64 := by decide

/-! ### Witnesses: a concrete state and operands for the hypotheses of each statement (Certificates/Slice0/Obligations) -/

/-- Ready to accept a word. -/
def offering (w : Word) (s : State) : State := { s with host := [.offer w, .read 0#8] }

theorem witness_EncodedCommandDecodesBack : (Instr.pqInsert false 0#15 (BitVec.ofNat 40 (2 ^ 40 - 1))).wf = true := by decide
theorem witness_DecodedCommandEncodesBack : decode 0x30FFFFFFFFFFFFFF#64 = .command (.pqInsert true 0x7FFF#15 0xFFFFFFFFFF#40) ∧
    decode 0x3000050000000009#64 = .command (.pqInsert false 0#15 9#40) := by decide
theorem witness_IllegalWordSetsErrOnly : (offering 0x0400000000000000#64 State.reset).cmdReady = true ∧
    (offering 0x0400000000000000#64 State.reset).host = .offer 0x0400000000000000#64 :: [.read 0#8] ∧
    IllegalWord 0x0400000000000000#64 ∧ IllegalWord 0x3400000000000000#64 ∧ IllegalWord 0x0000000000000001#64 ∧
    IllegalWord 0x2000610000000001#64 ∧ IllegalWord 0x0201000100000005#64 ∧ ¬ IllegalWord 0x3300000000000000#64 := by
  refine ⟨rfl, rfl, ?_, ?_, ?_, ?_, ?_, ?_⟩ <;> unfold IllegalWord <;> decide
theorem witness_AssembledCommandIsWellFormed :
    commandOf .pqInsert [.missing, .number 9] = some (.pqInsert false 0#15 9#40) := by decide
theorem witness_StepRunsAcceptedCommand : (offering 0x1000000000000000#64 classicTable).cmdReady = true ∧
    (offering 0x1000000000000000#64 classicTable).host = .offer 0x1000000000000000#64 :: [.read 0#8] ∧
    decode 0x1000000000000000#64 = .command .build := ⟨rfl, rfl, by decide⟩
theorem witness_OfferedWordsWaitWhileNotReady : (offering 0#64 waitingA).cmdReady = false := rfl
theorem witness_IdleBlockHoldsState : builtA.busy = false ∧ builtA.host = [] := ⟨rfl, rfl⟩
theorem witness_EncodeStaysBusyBehindClosedSink : (offering 0#64 waitingA).busy = true ∧
    (offering 0#64 waitingA).pending ≠ [] ∧ (offering 0#64 waitingA).sink = .upTo 0 ∧
    NoRelease (offering 0#64 waitingA).host := ⟨rfl, by decide, rfl, trivial⟩
theorem witness_WaitingEncodeGoesOn : waitingA.busy = true ∧ 2 < waitingA.pending.length ∧ waitingA.pending.length ≤ 3 ∧
    nextAct { waitingA with host := [.offer 0#64, .sink (.upTo 2), .offer 1#64] } =
      some (.sink (.upTo 2), { waitingA with host := [.offer 0#64, .offer 1#64] }) ∧
    nextAct { waitingA with host := [.offer 0#64, .sink .always] } = some (.sink .always, { waitingA with host := [.offer 0#64] }) ∧
    nextAct { builtA with host := [.sink (.upTo 0)] } = some (.sink (.upTo 0), { builtA with host := [] }) ∧
    builtA.busy = false := ⟨rfl, by decide, by decide, rfl, rfl, rfl, rfl⟩
theorem witness_RegisterReadHasNoSideEffect :
    nextAct { waitingA with host := [.offer 0#64, .read 0#8] } = some (.read 0#8, { waitingA with host := [.offer 0#64] }) ∧
    nextAct { builtA with host := [.read 255#8] } = some (.read 255#8, { builtA with host := [] }) ∧
    waitingA.busy = true ∧ builtA.busy = false := ⟨rfl, rfl, rfl, rfl⟩
theorem witness_RegisterPortMap : 7 ≤ (7#8).toNat ∧ 7 ≤ (255#8).toNat := by decide
theorem witness_ResetValues : Params.standard.wf = true ∧ ({ heapMaxLog := 15, initCapLog := 0 } : Params).wf = true ∧
    ({ heapMaxLog := 8, initCapLog := 8 } : Params).wf = true := by decide
theorem witness_ResetAbortsAndKeepsOut :
    nextAct { waitingA with host := [.offer 0#64, .rst true, .rst false] } =
      some (.rst true, { waitingA with host := [.offer 0#64, .rst false] }) ∧
    nextAct { State.reset with rst := true, host := [.offer 0#64, .rst false] } =
      some (.rst false, { State.reset with rst := true, host := [.offer 0#64] }) := ⟨rfl, rfl⟩
/-- builtA about to run ENCODE 'a' into a sink that accepts m bits, and then to be reset. -/
def encodeThenReset (m : Nat) : State :=
  { builtA with sink := .upTo m, host := [.offer 0x2000610000000000#64, .rst true, .rst false] }

/-- For m = 0, a part of the code, and the whole code of 4 bits. -/
theorem witness_ResetDuringEncodeLeavesPrefix : ∀ m, m ∈ [0, 1, 4] →
    (encodeThenReset m).cmdReady = true ∧ (encodeThenReset m).built = true ∧
    (encodeThenReset m).hasCode 0x61#8 = true ∧ m ≤ ((encodeThenReset m).codeOf 0x61#8).length ∧
    (encodeThenReset m).sink = .upTo m ∧
    (encodeThenReset m).host = .offer (encode (.encode ((0x61#8 : Symbol).setWidth 16))) :: .rst true :: [.rst false] := by
  decide +kernel
theorem witness_NopClearsErrOnly : (offering 0#64 builtA).cmdReady = true ∧ (offering 0#64 builtA).host = .offer 0#64 :: [.read 0#8] ∧
    (0x0000000000000001#64).extractLsb' 56 8 = 0#8 ∧ (0x0000000000000001#64 : Word) ≠ 0#64 := ⟨rfl, rfl, by decide, by decide⟩
theorem witness_FreqWriteStoresOrMarksViolation : builtA.built = true ∧ State.reset.built = false ∧
    256 ≤ (256#16).toNat ∧ Names 255#16 255#8 := ⟨rfl, rfl, by decide, by unfold Names; decide⟩
theorem witness_FreqReadReturnsCount : 256 ≤ (256#16).toNat ∧ Names 255#16 255#8 := ⟨by decide, by unfold Names; decide⟩
theorem witness_LoadTableLoadsCounts : State.reset.cmdReady = true ∧
    ({ State.reset with host := offers (AsmLine.loadTable [(0x61#16, 5#32), (256#16, 1#32)]).words ++ [.read 0#8] } : State).host =
      offers (AsmLine.loadTable [(0x61#16, 5#32), (256#16, 1#32)]).words ++ [.read 0#8] := ⟨rfl, rfl⟩
theorem witness_BuildChecksInOrder : State.reset.ftv = false ∧ (builtA.ftv = true ∧ builtA.built = true) ∧
    (classicTable.markViolation.ftv = true ∧ classicTable.markViolation.built = false ∧ classicTable.markViolation.av = true) :=
  ⟨rfl, ⟨rfl, rfl⟩, rfl, rfl, rfl⟩
/-- BuildReady, for every statement about what BUILD makes. -/
theorem witness_BuildReady : classicTable.BuildReady := ⟨by decide, by decide +kernel, rfl, rfl, rfl⟩
theorem witness_BuildGrowsCapacityForLeaves : State.reset.markTable.BuildReady := ⟨by decide, by decide +kernel, rfl, rfl, rfl⟩
theorem witness_EmptyTableBuildsEmptyTree : State.reset.markTable.BuildReady ∧ ∀ y, State.reset.markTable.freqAt y = 0#32 :=
  ⟨⟨by decide, by decide +kernel, rfl, rfl, rfl⟩, fun _ => Vector.getElem_replicate _⟩
theorem witness_OneSymbolBuildsOneBitCode : singleTable.BuildReady ∧ singleTable.freqAt 0x78#8 ≠ 0#32 ∧
    ∀ z, z ≠ 0x78#8 → singleTable.freqAt z = 0#32 :=
  ⟨⟨by decide, by decide +kernel, rfl, rfl, rfl⟩, by decide +kernel, fun z hz => by
    have hne : (0x78#8 : Symbol).toNat ≠ z.toNat := fun h => hz (BitVec.eq_of_toNat_eq h.symm)
    simp only [singleTable, State.markTable, State.setFreq, State.freqAt, State.reset, State.resetOf]
    rw [Vector.getElem_set_ne _ _ hne, Vector.getElem_replicate]⟩
theorem witness_BuiltCodeIsComplete : 2 ≤ (presentSymbols classicTable.freq).length ∧
    (presentSymbols singleTable.freq).length = 1 := by decide +kernel
/-- A prefix code on the classic symbols, and one of length at least 1 on the single one. -/
theorem witness_BuiltCodeIsOptimal : PrefixFree (fun y => y == 0x61#8 || y == 0x62#8) (fun y => [y == 0x62#8]) ∧
    ∀ y : Symbol, (y == 0x78#8) = true → 1 ≤ ([true] : List Bool).length := by
  refine ⟨?_, fun _ _ => by decide⟩
  intro y z hyz hy hz
  simp only [Bool.or_eq_true, beq_iff_eq] at hy hz
  rcases hy with rfl | rfl <;> rcases hz with rfl | rfl <;> first | exact absurd rfl hyz | decide
/-- Two ready states of one table that differ in their parameters and in the host's earlier heap use. -/
theorem witness_BuildDependsOnFreqAlone : classicTable.BuildReady ∧
    ({ State.resetOf { heapMaxLog := 9, initCapLog := 0 } with freq := classicTable.freq, ftv := true } : State).BuildReady ∧
    classicTable.freq = ({ State.resetOf { heapMaxLog := 9, initCapLog := 0 } with freq := classicTable.freq, ftv := true } : State).freq :=
  ⟨⟨by decide, by decide +kernel, rfl, rfl, rfl⟩, ⟨by decide, by decide +kernel, rfl, rfl, rfl⟩, rfl⟩
theorem witness_ReferenceDecoderInvertsBuiltCode :
    ∀ y : Symbol, y ∈ [0x66#8, 0x61#8] → classicTable.freqAt y ≠ 0#32 := by
  intro y hy
  simp only [List.mem_cons, List.not_mem_nil, or_false] at hy
  rcases hy with rfl | rfl <;> decide +kernel
theorem witness_NodeReadReturnsNode : builtA.nnode.toNat ≤ 511 ∧ State.reset.built = false ∧ builtA.built = true ∧
    builtA.nnode.toNat ≤ (11#16).toNat ∧ (10#16).toNat < builtA.nnode.toNat := by decide
theorem witness_EncodeEmitsCode : Names 0x61#16 0x61#8 ∧ builtA.built = true ∧ builtA.hasCode 0x61#8 = true ∧
    builtA.sink.Accepts (builtA.ctAt 0x61#8).len.toNat ∧ (Sink.upTo 4).Accepts (builtA.ctAt 0x61#8).len.toNat :=
  ⟨by unfold Names; decide, rfl, by decide +kernel, rfl, by unfold Sink.Accepts; decide +kernel⟩
theorem witness_EncodeStaysBusyWhenSinkWithholds : Names 0x61#16 0x61#8 ∧ builtA.built = true ∧ builtA.hasCode 0x61#8 = true ∧
    ({ builtA with sink := .upTo 3 } : State).sink = .upTo 3 ∧ 3 < (builtA.codeOf 0x61#8).length :=
  ⟨by unfold Names; decide, rfl, by decide +kernel, rfl, by decide +kernel⟩
theorem witness_EncodeFailsWithoutCode : State.reset.built = false ∧ builtA.built = true ∧ 256 ≤ (256#16).toNat ∧
    Names 255#16 255#8 ∧ builtA.hasCode 255#8 = false := ⟨rfl, rfl, by decide, by unfold Names; decide, by decide +kernel⟩
theorem witness_StatReadReturnsCodeAndCount : State.reset.built = false ∧ builtA.built = true ∧ 256 ≤ (256#16).toNat ∧
    Names 255#16 255#8 := ⟨rfl, rfl, by decide, by unfold Names; decide⟩
/-- The fresh queue of the standard part is sound. -/
theorem fresh_queue_ok : State.reset.queue.Ok Params.standard :=
  ⟨by decide +kernel, by decide, by decide, ⟨0, by decide⟩, fun i _ h => absurd h (by simp [State.reset, State.resetOf])⟩
/-- builtA meets the invariant. -/
theorem builtA_inv : builtA.Inv :=
  ⟨by decide, fresh_queue_ok, fun _ => ⟨rfl, rfl⟩, fun h => absurd h (by decide), by decide, by decide, fun _ => rfl,
    fun h => absurd h (by decide), fun h => absurd h (by decide)⟩
theorem witness_EncodeSequenceConcatenatesCodes : builtA.Inv ∧ builtA.cmdReady = true ∧ builtA.built = true ∧
    builtA.sink = .always ∧ ([0x61#8] ++ [0x67#8]).getLast? = some 0x67#8 ∧ builtA.hasCode 0x61#8 = true ∧
    builtA.hasCode 0x67#8 = false := ⟨builtA_inv, rfl, rfl, rfl, rfl, by decide +kernel, by decide +kernel⟩
theorem witness_PqInsertFailures :
    ({ queueOf [] with hsize := 256#16, hcap := 256#16 } : Queue).hcap.toNat = Params.standard.heapMax := by decide
/-- A heap of two elements is sound. -/
theorem two_element_queue_ok : (withHeap [(10, 4), (20, 2)]).queue.Ok Params.standard :=
  ⟨by decide +kernel, by decide, by decide, ⟨0, by decide⟩, by
    intro i h1 h2
    have h2' : i < 2 := h2
    obtain rfl : i = 1 := by omega
    decide⟩
/-- For PqInsertRisesPastGreaterOnly too. -/
theorem witness_PqInsertAddsElement : (withHeap [(10, 4), (20, 2)]).params.wf = true ∧
    (withHeap [(10, 4), (20, 2)]).queue.Ok (withHeap [(10, 4), (20, 2)]).params ∧
    (withHeap [(10, 4), (20, 2)]).queue.hsize.toNat < (withHeap [(10, 4), (20, 2)]).params.heapMax :=
  ⟨by decide, two_element_queue_ok, by decide⟩
theorem witness_PqRemoveMinReturnsMinimum : (withHeap [(10, 4), (20, 2)]).params.wf = true ∧
    (withHeap [(10, 4), (20, 2)]).queue.Ok (withHeap [(10, 4), (20, 2)]).params ∧
    (withHeap [(10, 4), (20, 2)]).queue.hsize ≠ 0#16 := ⟨by decide, two_element_queue_ok, by decide⟩
theorem witness_PqRemoveMinSignalsEmpty : State.reset.queue.hsize = 0#16 ∧ (withHeap [(0, 0)]).queue.hsize ≠ 0#16 :=
  ⟨rfl, by decide⟩
theorem witness_FailingCommandChangesErrOnly : (∃ t, exec (.freqRead 256#16) builtA = .next t ∧ t.busy = false ∧ t.err ≠ 0#4) ∧
    ∃ t, runWord 0xFF00000000000000#64 builtA = .next t ∧ t.busy = false ∧ t.err ≠ 0#4 :=
  ⟨⟨builtA.raise .alphabetViolation, rfl, rfl, by decide⟩, builtA.raise .illegalCommand, rfl, rfl, by decide⟩
theorem witness_FirstCauseIsReported : (∃ t, builtA.nnode.toNat ≤ 511 ∧ runWord (encode (.nodeRead 11#16)) builtA = .next t ∧
    t.busy = false) ∧ (∃ t, runWord 0xFF00000000000000#64 builtA = .next t ∧ t.busy = false) ∧
    IllegalWord 0xFF00000000000000#64 :=
  ⟨⟨builtA.raise .invalidArgument, by decide, rfl, rfl⟩, ⟨builtA.raise .illegalCommand, rfl, rfl⟩, by unfold IllegalWord; decide⟩
theorem witness_FlagWriters : ∃ t, exec .freqClear builtA = .next t ∧ t.built ≠ builtA.built :=
  ⟨builtA.clearTable.done, rfl, by decide⟩
theorem witness_ResultAndCodeWriters : ∃ t, exec .pqRemoveMin builtA = .next t ∧ t.result ≠ builtA.result :=
  ⟨(builtA.setResult resultOfEmpty).done, rfl, by decide⟩
theorem witness_ReadOnlyCommandsRepeat : ∃ t, isReadOnly .pqSize = true ∧ exec .pqSize builtA = .next t :=
  ⟨(builtA.setResult 0#64).done, rfl, rfl⟩
theorem witness_BuiltTablesAreImmutable : ∃ t, builtA.built = true ∧ step builtA = .next t ∧ t.built = true := ⟨builtA, rfl, rfl, rfl⟩
theorem witness_EveryCommandCompletes : builtA.busy = false := rfl
theorem witness_StepKeepsInvariant : ∃ t, builtA.Inv ∧ step builtA = .next t := ⟨builtA, builtA_inv, rfl⟩
theorem witness_OtherPortsGoOnPastHeldWords : builtA.cmdReady = true ∧ waitingA.cmdReady = false ∧
    (∀ w, HostAct.read 0#8 ≠ .offer w) ∧
    ({ waitingA with host := [.offer 0#64, .offer 1#64, .read 0#8, .rst true] } : State).host =
      offers [0#64, 1#64] ++ .read 0#8 :: [.rst true] ∧
    ({ waitingA with host := [.offer 0#64] } : State).host = offers [0#64] := ⟨rfl, rfl, by simp, rfl, rfl⟩
theorem witness_PqRemoveMinSinksTowardSmallerChild : (withHeap [(10, 4), (20, 2)]).params.wf = true ∧
    (withHeap [(10, 4), (20, 2)]).queue.Ok (withHeap [(10, 4), (20, 2)]).params ∧
    (withHeap [(10, 4), (20, 2)]).queue.hsize.toNat = 1 + 1 := ⟨by decide, two_element_queue_ok, by decide⟩
/-- An empty tree that has been built (R148). -/
def builtEmpty : State := { State.reset with ftv := true, built := true }

theorem builtEmpty_inv : builtEmpty.Inv :=
  ⟨by decide, fresh_queue_ok, fun _ => ⟨rfl, rfl⟩, fun h => absurd h (by decide), by decide, by decide, fun _ => rfl,
    fun h => absurd h (by decide), fun h => absurd h (by decide)⟩

theorem builtEmpty_freqAt (y : Symbol) : builtEmpty.freqAt y = 0#32 := Vector.getElem_replicate _

theorem builtEmpty_present : presentSymbols builtEmpty.freq = [] :=
  List.filter_eq_nil_iff.2 fun y _ => by
    rw [show freqOf builtEmpty.freq y = 0#32 from builtEmpty_freqAt y]
    decide

theorem builtEmpty_ctAt (y : Symbol) : builtEmpty.ctAt y = CtEntry.absent := Vector.getElem_replicate _

/-- A built state, of the empty table, meets both invariants. -/
theorem witness_StepKeepsTablesSound : ∃ t, builtEmpty.Inv ∧ builtEmpty.built = true ∧ builtEmpty.TablesOk ∧
    step builtEmpty = .next t := by
  refine ⟨builtEmpty, builtEmpty_inv, rfl, fun _ => ⟨⟨?_, ?_, ?_, ?_, ?_, ?_, ?_, ?_, ?_, ?_, ?_⟩, ⟨?_, ?_, ?_, ?_, ?_, ?_⟩⟩, rfl⟩
  · rw [builtEmpty_present]; rfl
  · rw [builtEmpty_present]; rfl
  · rw [builtEmpty_present]; rfl
  · rw [builtEmpty_present]; rfl
  · rw [builtEmpty_present]; intro j y h; exact absurd h (by simp)
  · intro k _ h; exact absurd h (Nat.not_lt_zero k)
  · intro k _ _ _ h; exact absurd h (Nat.not_lt_zero k)
  · intro _ k' _ _ h; exact absurd h (Nat.not_lt_zero k')
  · intro k h; exact absurd h (Nat.not_lt_zero k)
  · intro k h; exact absurd h (Nat.not_lt_zero k)
  · intro h; exact absurd rfl h
  · intro y _; exact builtEmpty_ctAt y
  · intro y h; exact absurd (builtEmpty_freqAt y) h
  · intro y; rw [builtEmpty_ctAt]; decide
  · rw [builtEmpty_present]; intro y h; exact absurd h (by simp)
  · rw [builtEmpty_present]; intro h; exact absurd h (by decide)
  · rw [builtEmpty_present]; intro h; exact absurd h (by decide)

end Sys2Proof.Tests
end

section
/-! PROOFS. What a command and a step can do, each said once (spec/60_exceptions.md R214, spec/20_memory.md R61 to R66). -/

namespace Sys2Proof.Machine

open Sys2Proof

/-! ### What a command can do -/

theorem symbolOf_eq_none_iff (imm : Imm16) : symbolOf imm = none ↔ 256 ≤ imm.toNat := by
  simp [symbolOf]

/-- The commands that can write RESULT and leave every table, every flag and CODE alone (R33). -/
def ReadsIntoResult (i : Instr) : Prop :=
  i = .pqRemoveMin ∨ i = .pqSize ∨ (∃ x, i = .freqRead x) ∨ ∃ x, i = .nodeRead x

/-- The next state that a command can answer, with the guards under which it does: one constructor for each shape of
update, not for each command. Which error a failing command reports, and the value of RESULT, it leaves open. -/
inductive Effect (s : State) : Instr → State → Prop where
  | fails (i : Instr) (e : ErrorKind) (he : e ≠ .ok) : Effect s i (s.raise e)
  | succeeds (i : Instr) (hi : i = .nop ∨ i = .build) : Effect s i s.done
  | clears : Effect s .freqClear s.clearTable.done
  | marks (sym : Imm16) (count : Count) (hb : s.built = false) (hsym : 256 ≤ sym.toNat) :
      Effect s (.freqWrite sym count) s.markViolation.markTable.done
  | stores (sym : Imm16) (count : Count) (y : Symbol) (hb : s.built = false) (hy : symbolOf sym = some y) :
      Effect s (.freqWrite sym count) (s.setFreq y count).markTable.done
  | builds (hf : s.ftv = true) (hb : s.built = false) (ha : s.av = false) : Effect s .build s.buildTables.done
  | reads (i : Instr) (v : Word) (hi : ReadsIntoResult i) : Effect s i (s.setResult v).done
  | readsStat (sym : Imm16) (v : Word) (c : CodeBits) : Effect s (.statRead sym) ((s.setResult v).setCode c).done
  | emits (sym : Imm16) (y : Symbol) (hb : s.built = true) (hy : symbolOf sym = some y)
      (hp : (s.ctAt y).present = true) : Effect s (.encode sym) (s.emit (codeBits (s.ctAt y)))
  | inserts (pay : Payload) (prio : Weight) (q : Queue)
      (hq : s.queue.insert s.params { prio := prio, pay := pay } = some q) :
      Effect s (.pqInsert true pay prio) (s.setQueue q).done
  | removes (e : HeapEntry) (q : Queue) (hq : s.queue.removeMin = some (e, q)) :
      Effect s .pqRemoveMin ((s.setQueue q).setResult (resultOfElement e)).done
  | empties : Effect s .pqClear (s.setQueue (s.queue.fresh s.params)).done

theorem execFreqWrite_effect (sym : Imm16) (count : Count) (s t : State) (h : execFreqWrite sym count s = .next t) :
    Effect s (.freqWrite sym count) t := by
  unfold execFreqWrite at h
  split at h
  · cases h; exact .fails _ _ (by decide)
  · next hb =>
    rw [Bool.not_eq_true] at hb
    split at h
    · next hy => cases h; exact .marks sym count hb ((symbolOf_eq_none_iff sym).1 hy)
    · next y hy => cases h; exact .stores sym count y hb hy

theorem execFreqRead_effect (sym : Imm16) (s t : State) (h : execFreqRead sym s = .next t) :
    Effect s (.freqRead sym) t := by
  unfold execFreqRead at h
  split at h <;> cases h
  · exact .fails _ _ (by decide)
  · exact .reads _ _ (.inr (.inr (.inl ⟨sym, rfl⟩)))

theorem execBuild_effect (s t : State) (h : execBuild s = .next t) : Effect s .build t := by
  unfold execBuild at h
  split at h
  · cases h; exact .fails _ _ (by decide)
  · next hf =>
    split at h
    · cases h; exact .succeeds _ (.inr rfl)
    · next hb =>
      split at h <;> cases h
      · exact .fails _ _ (by decide)
      · next ha => exact .builds (by simpa using hf) (by simpa using hb) (by simpa using ha)

theorem execNodeRead_effect (handle : Imm16) (s t : State) (h : execNodeRead handle s = .next t) :
    Effect s (.nodeRead handle) t := by
  unfold execNodeRead at h
  split at h
  · cases h; exact .fails _ _ (by decide)
  · split at h <;> cases h
    · exact .fails _ _ (by decide)
    · exact .reads _ _ (.inr (.inr (.inr ⟨handle, rfl⟩)))

theorem execEncode_effect (sym : Imm16) (s t : State) (h : execEncode sym s = .next t) : Effect s (.encode sym) t := by
  unfold execEncode at h
  split at h
  · cases h; exact .fails _ _ (by decide)
  · next hb =>
    split at h
    · cases h; exact .fails _ _ (by decide)
    · next y hy =>
      split at h <;> cases h
      · next hp => exact .emits sym y (by simpa using hb) hy hp
      · exact .fails _ _ (by decide)

theorem execStatRead_effect (sym : Imm16) (s t : State) (h : execStatRead sym s = .next t) :
    Effect s (.statRead sym) t := by
  unfold execStatRead at h
  split at h
  · cases h; exact .fails _ _ (by decide)
  · split at h <;> cases h
    · exact .fails _ _ (by decide)
    · exact .readsStat sym _ _

theorem execPqInsert_effect (present : Bool) (pay : Payload) (prio : Weight) (s t : State)
    (h : execPqInsert present pay prio s = .next t) : Effect s (.pqInsert present pay prio) t := by
  unfold execPqInsert at h
  split at h
  · next hp =>
    subst hp
    split at h <;> cases h
    · next hq => exact .inserts pay prio _ hq
    · exact .fails _ _ (by decide)
  · cases h; exact .fails _ _ (by decide)

theorem execPqRemoveMin_effect (s t : State) (h : execPqRemoveMin s = .next t) : Effect s .pqRemoveMin t := by
  unfold execPqRemoveMin at h
  split at h <;> cases h
  · next hq => exact .removes _ _ hq
  · exact .reads _ _ (.inl rfl)

/-- All that a command can do. -/
theorem exec_effect (i : Instr) (s t : State) (h : exec i s = .next t) : Effect s i t := by
  cases i with
  | nop => cases h; exact .succeeds _ (.inl rfl)
  | freqClear => cases h; exact .clears
  | freqWrite sym count => exact execFreqWrite_effect sym count s t h
  | freqRead sym => exact execFreqRead_effect sym s t h
  | build => exact execBuild_effect s t h
  | nodeRead handle => exact execNodeRead_effect handle s t h
  | encode sym => exact execEncode_effect sym s t h
  | statRead sym => exact execStatRead_effect sym s t h
  | pqInsert present pay prio => exact execPqInsert_effect present pay prio s t h
  | pqRemoveMin => exact execPqRemoveMin_effect s t h
  | pqSize => cases h; exact .reads _ _ (.inr (.inl rfl))
  | pqClear => cases h; exact .empties

/-! ### What a step can do -/

/-- An accepted word has the effect of its command, or fails as an illegal one (R87, R201). -/
theorem runWord_effect (w : Word) (s t : State) (h : runWord w s = .next t) :
    (∃ i, Effect s i t) ∨ t = s.raise .illegalCommand := by
  unfold runWord at h
  split at h
  · next i _ => exact .inl ⟨i, exec_effect i s t h⟩
  · cases h; exact .inr rfl

/-- The block accepts a word only outside reset and while no command runs (R61, R240). -/
theorem State.cmdReady_iff (s : State) : s.cmdReady = true ↔ s.busy = false ∧ s.rst = false := by
  simp [State.cmdReady]

/-- A property that each thing a step is made of keeps. -/
structure KeptByStep (P : State → Prop) : Prop where
  host : ∀ s acts, P s → P { s with host := acts }
  output : ∀ s, P s → P s.continueOutput
  illegal : ∀ s, s.cmdReady = true → P s → P (s.raise .illegalCommand)
  command : ∀ s i t, s.cmdReady = true → P s → Effect s i t → P t
  read : ∀ s index, P s → P (s.logRead index)
  sink : ∀ s k, P s → P { s with sink := k }
  reset : ∀ s, P s → P s.assertReset
  release : ∀ s, P s → P { s with rst := false }

/-- Such a property is kept by the step, whatever the host does. -/
theorem KeptByStep.step {P : State → Prop} (kept : KeptByStep P) {s t : State} (hs : P s) (h : step s = .next t) :
    P t := by
  unfold Machine.step at h
  split at h
  · cases h; exact kept.output s hs
  · next w s' ha =>
    obtain ⟨hhost, ⟨-, -, hready, -⟩ | ⟨hno, -⟩⟩ := nextAct_spec _ _ _ ha
    · have hs' : P s' := hhost ▸ kept.host s _ hs
      have hready' : s'.cmdReady = true := by rw [hhost]; exact hready
      obtain ⟨i, hi⟩ | rfl := runWord_effect w s' t h
      · exact kept.command s' i t hready' hs' hi
      · exact kept.illegal s' hready' hs'
    · exact absurd rfl (hno w)
  · next index s' ha =>
    cases h
    exact kept.read s' index ((nextAct_spec _ _ _ ha).1 ▸ kept.host s _ hs)
  · next k s' ha =>
    cases h
    exact kept.output _ (kept.sink s' k ((nextAct_spec _ _ _ ha).1 ▸ kept.host s _ hs))
  · next level s' ha =>
    have hs' : P s' := (nextAct_spec _ _ _ ha).1 ▸ kept.host s _ hs
    cases h
    cases level with
    | true => exact kept.reset s' hs'
    | false => exact kept.release s' hs'

end Sys2Proof.Machine
end

section
/-! PROOFS. Who writes the flags, RESULT and CODE (spec/10_state.md R29, R33, R34), the bits of STATUS (R23) and the
values after reset (R44). -/

namespace Sys2Proof.Machine

open Sys2Proof

/-! ### O48, O49: the writers -/

/-- Settles O48, along the shapes of update that a command can make. -/
theorem flagWriters : Obligations.FlagWriters := by
  intro i s t h
  cases exec_effect i s t h with
  | marks sym count _ hsym => simp [hsym]
  | clears | stores | builds => simp
  | fails | succeeds | reads | readsStat | emits | inserts | removes | empties => simp

/-- Settles O49, along the shapes of update that a command can make. -/
theorem resultAndCodeWriters : Obligations.ResultAndCodeWriters := by
  intro i s t h
  cases exec_effect i s t h with
  | reads i v hi =>
    unfold ReadsIntoResult at hi
    exact ⟨fun _ => ⟨rfl, by tauto⟩, fun hc => absurd rfl hc⟩
  | readsStat | removes => simp
  | fails | succeeds | clears | marks | stores | builds | emits | inserts | empties => simp

/-! ### O13: the bits of STATUS -/

/-- Settles O13: each field is cut out past the fields below it. -/
theorem statusWordLayout : Obligations.StatusWordLayout := by
  intro s
  refine ⟨rfl, ?_, ?_, ?_, ?_, ?_, ?_, ?_, ?_, ?_, ?_⟩
  iterate 4 · simp only [State.statusWord, BitVec.getLsbD_append]; simp
  all_goals
    unfold State.statusWord
    repeat rw [BitVec.extractLsb'_append_eq_of_le (by decide)]
  iterate 5 · exact BitVec.extractLsb'_append_eq_right
  · exact BitVec.extractLsb'_eq_self

/-! ### O15: the values after reset -/

/-- After reset STATUS shows HCAP alone (R44). -/
theorem State.resetOf_statusWord (p : Params) :
    (State.resetOf p).statusWord = BitVec.ofNat 64 (p.initCap * 2 ^ 32) := by
  have hcap := p.initCap_le
  apply BitVec.eq_of_toNat_eq
  unfold State.statusWord
  iterate 9 rw [BitVec.toNat_append]
  simp [State.resetOf, Nat.shiftLeft_eq]
  omega

/-- Settles O15. -/
theorem resetValues : Obligations.ResetValues := by
  intro p _
  have htree : (State.resetOf p).treeWord = 0x8000#64 := by
    show State.reset.treeWord = 0x8000#64
    decide
  exact ⟨State.resetOf_statusWord p, rfl, rfl, htree, fun y => Vector.getElem_replicate _, rfl, rfl⟩

end Sys2Proof.Machine
end

section
/-! PROOFS. The machine's invariant (spec/10_state.md R28, R35, R37, spec/40 R100, spec/60 R210, spec/70 R240): it holds
after reset, and each thing a step is made of keeps it. -/

namespace Sys2Proof.Machine

open Sys2Proof

/-! ### The heap commands keep the heap sound -/

theorem Queue.Ok.insert {p : Params} {q q' : Queue} {e : HeapEntry} (hq : q.Ok p) (h : q.insert p e = some q') :
    q'.Ok p := by
  have hlt : q.hsize.toNat < p.heapMax := by
    by_contra hge
    have h1 := hq.hsize_le
    have h2 := hq.hcap_le
    have hfull : q.hsize = q.hcap := BitVec.eq_of_toNat_eq (by omega)
    have hmax : q.hcap.toNat = p.heapMax := by omega
    simp [Queue.insert, hfull, hmax] at h
  obtain ⟨q'', hq'', hok, -⟩ := Queue.insert_spec q e hq hlt
  rw [hq''] at h
  exact Option.some.inj h ▸ hok

theorem Queue.Ok.removeMin {p : Params} {q q' : Queue} {e : HeapEntry} (hq : q.Ok p)
    (h : q.removeMin = some (e, q')) : q'.Ok p := by
  have hne : q.hsize ≠ 0#16 := fun h0 => by simp [Queue.removeMin_empty q h0] at h
  obtain ⟨e', q'', hq'', hok, -⟩ := Queue.removeMin_spec q hq hne
  rw [hq''] at h
  exact (Prod.mk.inj (Option.some.inj h)).2 ▸ hok

/-! ### Reset -/

theorem State.resetOf_inv {p : Params} (hp : p.wf = true) : (State.resetOf p).Inv where
  params_wf := hp
  queue_ok := Queue.fresh_ok hp (State.resetOf p).queue List.length_replicate
  built_table := by simp [State.resetOf]
  unbuilt_tree := fun _ => ⟨rfl, rfl, rfl, rfl⟩
  nnode_le := Nat.zero_le _
  err_code := Nat.zero_le _
  idle_output := fun _ => rfl
  busy_output := by simp [State.resetOf]
  held_in_reset := by simp [State.resetOf]

theorem State.resetOf_tablesOk (p : Params) : (State.resetOf p).TablesOk := by
  simp [State.TablesOk, State.resetOf]

/-- Settles O53. -/
theorem resetMeetsInvariant : Obligations.ResetMeetsInvariant :=
  have hp : Params.standard.wf = true := by decide
  ⟨fun p hp => ⟨State.resetOf_inv hp, State.resetOf_tablesOk p⟩, State.resetOf_inv hp, State.resetOf_tablesOk _⟩

theorem State.Inv.assertReset {s : State} (hs : s.Inv) : s.assertReset.Inv where
  __ := State.resetOf_inv hs.params_wf
  held_in_reset := fun _ => rfl

/-! ### What keeps the invariant -/

theorem State.Inv.rst_of_busy {s : State} (hs : s.Inv) (hb : s.busy = true) : s.rst = false := by
  by_contra hr
  rw [hs.held_in_reset (by simpa using hr)] at hb
  exact absurd hb (by simp)

theorem State.Inv.withHost {s : State} (hs : s.Inv) (acts : List HostAct) : ({ s with host := acts } : State).Inv where
  __ := hs
  held_in_reset := fun hr => congrArg (fun t : State => { t with host := acts }) (hs.held_in_reset hr)

theorem State.Inv.withSink {s : State} (hs : s.Inv) (k : Sink) : ({ s with sink := k } : State).Inv where
  __ := hs
  held_in_reset := fun hr => congrArg (fun t : State => { t with sink := k }) (hs.held_in_reset hr)

theorem State.Inv.release {s : State} (hs : s.Inv) : ({ s with rst := false } : State).Inv where
  __ := hs
  held_in_reset := by simp

theorem State.Inv.logRead {s : State} (hs : s.Inv) (index : BitVec 8) : (s.logRead index).Inv where
  __ := hs
  held_in_reset := fun hr => congrArg
    (fun t : State => { t with reads := s.reads ++ [s.readPort (Config.busyRead s.reads.length) index] })
    (hs.held_in_reset hr)

/-- A command that changes at most the queue, RESULT, CODE and ERR keeps the invariant if it keeps the queue sound. -/
theorem State.Inv.withRegisters {s : State} (hs : s.Inv) (hr : s.rst = false) {q : Queue} (hq : q.Ok s.params)
    (result : Word) (code : CodeBits) {err : BitVec 4} (he : err.toNat ≤ 6) :
    ({ s with queue := q, result := result, code := code, err := err } : State).Inv where
  __ := hs
  queue_ok := hq
  err_code := he
  held_in_reset := by simp [hr]

theorem errorCode_le (e : ErrorKind) : (errorCode e).toNat ≤ 6 := by cases e <;> decide

/-- The output port is at rest between commands, and busy with a bit to offer otherwise (R41, R66). -/
theorem State.Inv.emit {s : State} (hs : s.Inv) (hr : s.rst = false) (hb : s.built = true) (bits : List Bool) :
    (s.emit bits).Inv := by
  obtain ⟨-, heq⟩ | ⟨n, -, hn, heq⟩ := State.emit_cases s bits
  · rw [heq]
    exact { hs with
      err_code := Nat.zero_le _
      idle_output := fun _ => rfl
      busy_output := by simp
      held_in_reset := by simp [hr] }
  · rw [heq]
    exact { hs with
      idle_output := by simp
      busy_output := fun _ => ⟨by simpa using hn, hb⟩
      held_in_reset := by simp [hr] }

theorem State.Inv.continueOutput {s : State} (hs : s.Inv) : s.continueOutput.Inv := by
  unfold State.continueOutput
  split
  · next hb => exact hs.emit (hs.rst_of_busy hb) (hs.busy_output hb).2 _
  · exact hs

theorem State.Inv.clearTable {s : State} (hs : s.Inv) (hr : s.rst = false) (hb : s.busy = false) :
    s.clearTable.done.Inv where
  __ := hs
  built_table := by simp
  unbuilt_tree := by simp
  nnode_le := by simp
  err_code := by simp
  busy_output := by simp [hb]
  held_in_reset := by simp [hr]

/-- FREQ_WRITE while nothing is built (R141). -/
theorem State.Inv.writeTable {s : State} (hs : s.Inv) (hr : s.rst = false) (hb : s.built = false)
    (freq : Vector Count 256) (av : Bool) :
    ({ s with freq := freq, ftv := true, av := av, err := 0#4 } : State).Inv where
  __ := hs
  built_table := by simp [hb]
  err_code := by simp
  held_in_reset := by simp [hr]

theorem State.Inv.buildReady {s : State} (hs : s.Inv) (hf : s.ftv = true) (hb : s.built = false) (ha : s.av = false) :
    s.BuildReady :=
  ⟨hs.params_wf, hs.queue_ok.slots_length, hf, hb, ha⟩

end Sys2Proof.Machine
end

section
/-! PROOFS. The tree that BUILD makes (spec/41_huffman_tree_builder.md R144 to R147, R156, R157): the forest of phase 2,
and what one merge keeps of it. -/

namespace Sys2Proof.Machine

open Sys2Proof

/-! ### One merge, seen from the node store -/

/-- One turn of `build_merge` (R145), from `b` with the handles `hs` in the queue to `b'`: x and y are taken, the next
handle's node stands over them. -/
structure Merges (b : Builder) (hs : List Nat) (x y : Nat) (hs' : List Nat) (b' : Builder) : Prop where
  room : b.k < 511
  nodup : hs.Nodup
  used : ∀ h, h ∈ hs → h < b.k
  perm : hs.Perm (x :: y :: hs')
  first : ∀ z, z ∈ hs → (nodeAt b.node x).weight ≤ (nodeAt b.node z).weight
  second : ∀ z, z ∈ hs' → (nodeAt b.node y).weight ≤ (nodeAt b.node z).weight
  node : b'.node = setNode b.node b.k (.internal ((nodeAt b.node x).weight + (nodeAt b.node y).weight)
    (BitVec.ofNat 9 x) (BitVec.ofNat 9 y))
  k : b'.k = b.k + 1

section
variable {b b' : Builder} {hs hs' : List Nat} {x y : Nat} (m : Merges b hs x y hs' b')
include m

theorem Merges.mem_iff (h : Nat) : h ∈ hs ↔ h = x ∨ h = y ∨ h ∈ hs' := by simp [m.perm.mem_iff]

theorem Merges.nodup_taken : x ≠ y ∧ x ∉ hs' ∧ y ∉ hs' := by
  have := m.perm.nodup_iff.1 m.nodup
  simp only [List.nodup_cons, List.mem_cons, not_or] at this
  exact ⟨this.1.1, this.1.2, this.2.1⟩

theorem Merges.x_lt : x < b.k := m.used x (by simp [m.mem_iff])

theorem Merges.y_lt : y < b.k := m.used y (by simp [m.mem_iff])

theorem Merges.x_toNat : (BitVec.ofNat 9 x).toNat = x := by
  have := m.x_lt
  have := m.room
  rw [BitVec.toNat_ofNat]; omega

theorem Merges.y_toNat : (BitVec.ofNat 9 y).toNat = y := by
  have := m.y_lt
  have := m.room
  rw [BitVec.toNat_ofNat]; omega

theorem Merges.nodeAt_old {h : Nat} (hh : h < b.k) : nodeAt b'.node h = nodeAt b.node h := by
  rw [m.node, nodeAt_setNode _ _ _ _ m.room, if_neg (by omega)]

theorem Merges.nodeAt_new : nodeAt b'.node b.k =
    .internal ((nodeAt b.node x).weight + (nodeAt b.node y).weight) (BitVec.ofNat 9 x) (BitVec.ofNat 9 y) := by
  rw [m.node, nodeAt_setNode _ _ _ _ m.room, if_pos rfl]

theorem Merges.isChildOf_old (h : Nat) {k : Nat} (hk : k < b.k) : IsChildOf b'.node h k ↔ IsChildOf b.node h k := by
  simp [IsChildOf, m.nodeAt_old hk]

theorem Merges.isChildOf_new (h : Nat) : IsChildOf b'.node h b.k ↔ h = x ∨ h = y := by
  simp only [IsChildOf, m.nodeAt_new, NodeEntry.internal.injEq]
  constructor
  · rintro ⟨_, _, _, ⟨-, rfl, rfl⟩, hc⟩
    rw [m.x_toNat, m.y_toNat] at hc
    exact hc.imp Eq.symm Eq.symm
  · rintro hc
    exact ⟨_, _, _, ⟨rfl, rfl, rfl⟩, by rw [m.x_toNat, m.y_toNat]; exact hc.imp Eq.symm Eq.symm⟩

/-- A handle below b'.k is an old one or the new one. -/
theorem Merges.lt_iff (h : Nat) : h < b'.k ↔ h < b.k ∨ h = b.k := by rw [m.k]; omega

end

/-! ### The forest of phase 2 -/

/-- BUILD in phase 2 with the handles `hs` in the queue: the clauses of `State.TreeOk` for the nodes made so far, where
the handles in the queue are those of the parentless nodes. -/
structure Forest (freq : Vector Count 256) (b : Builder) (hs : List Nat) : Prop where
  /-- Each merge makes one node and takes one off the queue (R147). -/
  count : b.k + hs.length = 2 * (presentSymbols freq).length
  newest : ∃ k, b.k = k + 1 ∧ k ∈ hs
  leaves : ∀ j y, (presentSymbols freq)[j]? = some y → nodeAt b.node j = .leaf (weightOfCount (freqOf freq y)) y
  internals : ∀ k, (presentSymbols freq).length ≤ k → k < b.k →
    ∃ w l r, nodeAt b.node k = .internal w l r ∧ l.toNat < k ∧ r.toNat < k ∧ l ≠ r ∧
      w.toNat = (nodeAt b.node l.toNat).weight.toNat + (nodeAt b.node r.toNat).weight.toNat
  greedy : ∀ k w l r, k < b.k → nodeAt b.node k = .internal w l r →
    (nodeAt b.node l.toNat).weight ≤ (nodeAt b.node r.toNat).weight ∧
    ∀ h, h < k → h ≠ l.toNat → h ≠ r.toNat → (∀ j, j < k → ¬ IsChildOf b.node h j) →
      (nodeAt b.node r.toNat).weight ≤ (nodeAt b.node h).weight
  rising : ∀ k k', (presentSymbols freq).length ≤ k → k ≤ k' → k' < b.k →
    (nodeAt b.node k).weight ≤ (nodeAt b.node k').weight
  /-- Why the weights rise: no Internal node is heavier than two trees in the queue. -/
  halved : ∀ k h, (presentSymbols freq).length ≤ k → k < b.k → h ∈ hs →
    (nodeAt b.node k).weight.toNat ≤ 2 * (nodeAt b.node h).weight.toNat
  one_parent : ∀ h, h < b.k → h ∉ hs → ∃ k, k < b.k ∧ IsChildOf b.node h k ∧
    ∀ k', k' < b.k → IsChildOf b.node h k' → k' = k
  parentless : ∀ h, h ∈ hs → ∀ k, k < b.k → ¬ IsChildOf b.node h k
  total : (hs.map fun h => (nodeAt b.node h).weight.toNat).sum = totalCount freq

/-! ### The start of phase 2 -/

/-- All 256 counts of 32 bits together fit a weight of 40 bits (R38). -/
theorem totalCount_lt (freq : Vector Count 256) : totalCount freq < 2 ^ 40 := by
  have h := List.sum_le_card_nsmul (allSymbols.map fun y => (freqOf freq y).toNat) (2 ^ 32 - 1) (by
    simp only [List.mem_map, forall_exists_index, and_imp]
    rintro _ y - rfl
    have := (freqOf freq y).isLt
    omega)
  simp at h
  unfold totalCount
  omega

theorem sum_map_filter_of_zero {α : Type} (l : List α) (p : α → Bool) (f : α → Nat) (hf : ∀ a, p a = false → f a = 0) :
    ((l.filter p).map f).sum = (l.map f).sum := by
  induction l with
  | nil => rfl
  | cons a l ih =>
    cases ha : p a with
    | true => simp [ha, ih]
    | false => simp [ha, ih, hf a ha]

theorem totalCount_eq (freq : Vector Count 256) :
    totalCount freq = ((presentSymbols freq).map fun y => (freqOf freq y).toNat).sum :=
  (sum_map_filter_of_zero _ _ _ (by simp +contextual)).symm

/-- Handles that are all different, all below n, and n in number, are the first n. -/
theorem perm_range_of_nodup {hs : List Nat} (hnd : hs.Nodup) (hlt : ∀ h, h ∈ hs → h < hs.length) :
    hs.Perm (List.range hs.length) :=
  (List.subperm_of_subset hnd fun h hh => List.mem_range.2 (hlt h hh)).perm_of_length_le (by simp)

theorem not_isChildOf_leaf {node : Vector NodeEntry 511} {k : Nat} {w : Weight} {y : Symbol}
    (hk : nodeAt node k = .leaf w y) (h : Nat) : ¬ IsChildOf node h k := by
  rintro ⟨_, _, _, hi, -⟩
  simp [hk] at hi

/-- What the first n nodes hold, in the order of their handles, is what the present symbols give in theirs. -/
theorem map_range_leaves {α : Type} {freq : Vector Count 256} {node : Vector NodeEntry 511}
    (hl : ∀ j y, (presentSymbols freq)[j]? = some y → nodeAt node j = .leaf (weightOfCount (freqOf freq y)) y)
    (f : NodeEntry → α) :
    (List.range (presentSymbols freq).length).map (fun h => f (nodeAt node h)) =
      (presentSymbols freq).map fun y => f (.leaf (weightOfCount (freqOf freq y)) y) := by
  apply List.ext_getElem
  · simp
  · intro j h1 h2
    have hj : j < (presentSymbols freq).length := by simpa using h1
    simp [hl j _ (List.getElem?_eq_getElem hj)]

/-- Phase 1 leaves the forest of the n leaves (R144). -/
theorem Forest.start {p : Params} {freq : Vector Count 256} {b : Builder} {hs : List Nat} (h : b.Holds p hs)
    (hn : (presentSymbols freq).length ≠ 0) (hk : b.k = (presentSymbols freq).length)
    (hlen : hs.length = (presentSymbols freq).length)
    (hl : ∀ j y, (presentSymbols freq)[j]? = some y → nodeAt b.node j = .leaf (weightOfCount (freqOf freq y)) y) :
    Forest freq b hs := by
  have hperm : hs.Perm (List.range (presentSymbols freq).length) :=
    hlen ▸ perm_range_of_nodup h.nodup fun i hi => by have := h.used i hi; omega
  have hleaf : ∀ k, k < b.k → ∃ w y, nodeAt b.node k = .leaf w y := fun k hkb =>
    ⟨_, _, hl k _ (List.getElem?_eq_getElem (hk ▸ hkb))⟩
  have hchild : ∀ i k, k < b.k → ¬ IsChildOf b.node i k := fun i k hkb => by
    obtain ⟨w, y, he⟩ := hleaf k hkb
    exact not_isChildOf_leaf he i
  exact {
    count := by omega
    newest := ⟨b.k - 1, by omega, hperm.mem_iff.2 (List.mem_range.2 (by omega))⟩
    leaves := hl
    internals := fun k _ _ => by omega
    greedy := fun k w l r hkb hi => absurd ⟨w, l, r, hi, .inl rfl⟩ (hchild l.toNat k hkb)
    rising := fun k k' _ _ _ => by omega
    halved := fun k i _ _ => by omega
    one_parent := fun i hi hni => absurd (hperm.mem_iff.2 (List.mem_range.2 (hk ▸ hi))) hni
    parentless := fun i _ => hchild i
    total := by
      rw [(hperm.map _).sum_eq, map_range_leaves hl fun e => e.weight.toNat, totalCount_eq]
      simp only [NodeEntry.weight, weightOfCount_toNat] }

/-! ### What a merge keeps -/

section
variable {freq : Vector Count 256} {b b' : Builder} {hs hs' : List Nat} {x y : Nat}

/-- Children have smaller handles than their parent (R147). -/
theorem Forest.children_lt (f : Forest freq b hs) {k : Nat} {w : Weight} {l r : Handle} (hk : k < b.k)
    (hi : nodeAt b.node k = .internal w l r) : l.toNat < k ∧ r.toNat < k := by
  by_cases hn : (presentSymbols freq).length ≤ k
  · obtain ⟨_, _, _, hi', hl, hr, -⟩ := f.internals k hn hk
    rw [hi] at hi'
    injection hi' with _ h2 h3
    subst h2; subst h3
    exact ⟨hl, hr⟩
  · have := f.leaves k _ (List.getElem?_eq_getElem (Nat.lt_of_not_le hn))
    simp [hi] at this

theorem Forest.present_le (f : Forest freq b hs) (m : Merges b hs x y hs' b') : (presentSymbols freq).length ≤ b.k := by
  have hlen := m.perm.length_eq
  have hle : hs.length ≤ b.k := by
    have := (List.subperm_of_subset m.nodup fun h hh => List.mem_range.2 (m.used h hh)).length_le
    simpa using this
  have := f.count
  omega

/-- The sum of two trees' weights fits 40 bits, for it is at most the sum of all counts (R38). -/
theorem Forest.sum_toNat (f : Forest freq b hs) (m : Merges b hs x y hs' b') :
    ((nodeAt b.node x).weight + (nodeAt b.node y).weight).toNat =
      (nodeAt b.node x).weight.toNat + (nodeAt b.node y).weight.toNat := by
  have hsum := (m.perm.map fun h => (nodeAt b.node h).weight.toNat).sum_eq
  rw [f.total] at hsum
  have := totalCount_lt freq
  simp only [List.map_cons, List.sum_cons] at hsum
  rw [BitVec.toNat_add, Nat.mod_eq_of_lt]
  omega

theorem Forest.weight_new (f : Forest freq b hs) (m : Merges b hs x y hs' b') :
    (nodeAt b'.node b.k).weight.toNat = (nodeAt b.node x).weight.toNat + (nodeAt b.node y).weight.toNat := by
  rw [m.nodeAt_new]
  exact f.sum_toNat m

theorem Forest.internals_merge (f : Forest freq b hs) (m : Merges b hs x y hs' b') (k : Nat)
    (hn : (presentSymbols freq).length ≤ k) (hk : k < b'.k) :
    ∃ w l r, nodeAt b'.node k = .internal w l r ∧ l.toNat < k ∧ r.toNat < k ∧ l ≠ r ∧
      w.toNat = (nodeAt b'.node l.toNat).weight.toNat + (nodeAt b'.node r.toNat).weight.toNat := by
  rcases (m.lt_iff k).1 hk with hk | rfl
  · obtain ⟨w, l, r, hi, hl, hr, hne, hw⟩ := f.internals k hn hk
    refine ⟨w, l, r, by rw [m.nodeAt_old hk, hi], hl, hr, hne, ?_⟩
    rw [m.nodeAt_old (by omega), m.nodeAt_old (by omega), hw]
  · refine ⟨_, _, _, m.nodeAt_new, ?_, ?_, ?_, ?_⟩
    · rw [m.x_toNat]; exact m.x_lt
    · rw [m.y_toNat]; exact m.y_lt
    · intro h
      have := congrArg BitVec.toNat h
      rw [m.x_toNat, m.y_toNat] at this
      exact m.nodup_taken.1 this
    · rw [m.x_toNat, m.y_toNat, m.nodeAt_old m.x_lt, m.nodeAt_old m.y_lt]
      exact f.sum_toNat m

/-- The node of the merge stands over the first and the second of the parentless ones (R145). -/
theorem Forest.greedy_merge (f : Forest freq b hs) (m : Merges b hs x y hs' b') (k : Nat) (w : Weight) (l r : Handle)
    (hk : k < b'.k) (hi : nodeAt b'.node k = .internal w l r) :
    (nodeAt b'.node l.toNat).weight ≤ (nodeAt b'.node r.toNat).weight ∧
    ∀ h, h < k → h ≠ l.toNat → h ≠ r.toNat → (∀ j, j < k → ¬ IsChildOf b'.node h j) →
      (nodeAt b'.node r.toNat).weight ≤ (nodeAt b'.node h).weight := by
  rcases (m.lt_iff k).1 hk with hk | rfl
  · rw [m.nodeAt_old hk] at hi
    obtain ⟨hlt, hrt⟩ := f.children_lt hk hi
    obtain ⟨h1, h2⟩ := f.greedy k w l r hk hi
    rw [m.nodeAt_old (by omega), m.nodeAt_old (by omega)]
    refine ⟨h1, fun h hh hhl hhr hno => ?_⟩
    rw [m.nodeAt_old (by omega)]
    exact h2 h hh hhl hhr fun j hj hc => hno j hj ((m.isChildOf_old h (by omega)).2 hc)
  · rw [m.nodeAt_new] at hi
    injection hi with _ h2 h3
    subst h2; subst h3
    rw [m.x_toNat, m.y_toNat, m.nodeAt_old m.x_lt, m.nodeAt_old m.y_lt]
    refine ⟨m.first y (by simp [m.mem_iff]), fun h hh hhx hhy hno => ?_⟩
    have hmem : h ∈ hs := by
      by_contra hni
      obtain ⟨j, hj, hc, -⟩ := f.one_parent h hh hni
      exact hno j hj ((m.isChildOf_old h hj).2 hc)
    rw [m.nodeAt_old hh]
    exact m.second h (by simpa [m.mem_iff, hhx, hhy] using hmem)

/-- No Internal node is heavier than the node of the merge: it is no heavier than twice the lighter of the two trees. -/
theorem Forest.rising_merge (f : Forest freq b hs) (m : Merges b hs x y hs' b') (k k' : Nat)
    (hn : (presentSymbols freq).length ≤ k) (hkk : k ≤ k') (hk' : k' < b'.k) :
    (nodeAt b'.node k).weight ≤ (nodeAt b'.node k').weight := by
  rcases (m.lt_iff k').1 hk' with hk' | rfl
  · rw [m.nodeAt_old (by omega), m.nodeAt_old hk']
    exact f.rising k k' hn hkk hk'
  · rcases Nat.lt_or_eq_of_le hkk with hk | rfl
    · have h1 := f.halved k x hn hk (by simp [m.mem_iff])
      have h2 := BitVec.le_def.1 (m.first y (by simp [m.mem_iff]))
      rw [m.nodeAt_old hk, BitVec.le_def, f.weight_new m]
      omega
    · exact BitVec.le_refl _

theorem Forest.halved_merge (f : Forest freq b hs) (m : Merges b hs x y hs' b') (k h : Nat)
    (hn : (presentSymbols freq).length ≤ k) (hk : k < b'.k) (hh : h ∈ b.k :: hs') :
    (nodeAt b'.node k).weight.toNat ≤ 2 * (nodeAt b'.node h).weight.toNat := by
  rcases List.mem_cons.1 hh with rfl | hh
  · have := BitVec.le_def.1 (f.rising_merge m k b.k hn (by have := m.k; omega) (by have := m.k; omega))
    omega
  · have hmem : h ∈ hs := (m.mem_iff h).2 (.inr (.inr hh))
    rw [m.nodeAt_old (m.used h hmem)]
    rcases (m.lt_iff k).1 hk with hk | rfl
    · rw [m.nodeAt_old hk]
      exact f.halved k h hn hk hmem
    · have h1 := BitVec.le_def.1 (m.first y (by simp [m.mem_iff]))
      have h2 := BitVec.le_def.1 (m.second h hh)
      rw [f.weight_new m]
      omega

theorem Forest.one_parent_merge (f : Forest freq b hs) (m : Merges b hs x y hs' b') (h : Nat) (hh : h < b'.k)
    (hni : h ∉ b.k :: hs') :
    ∃ k, k < b'.k ∧ IsChildOf b'.node h k ∧ ∀ k', k' < b'.k → IsChildOf b'.node h k' → k' = k := by
  simp only [List.mem_cons, not_or] at hni
  have hlt : h < b.k := by have := (m.lt_iff h).1 hh; omega
  by_cases hmem : h ∈ hs
  · have hxy : h = x ∨ h = y := by
      rcases (m.mem_iff h).1 hmem with hx | hy | hm
      · exact .inl hx
      · exact .inr hy
      · exact absurd hm hni.2
    refine ⟨b.k, by have := m.k; omega, (m.isChildOf_new h).2 hxy, fun k' hk' hc => ?_⟩
    rcases (m.lt_iff k').1 hk' with hk' | rfl
    · exact absurd ((m.isChildOf_old h hk').1 hc) (f.parentless h hmem k' hk')
    · rfl
  · obtain ⟨k, hk, hc, hu⟩ := f.one_parent h hlt hmem
    refine ⟨k, by have := m.k; omega, (m.isChildOf_old h hk).2 hc, fun k' hk' hc' => ?_⟩
    rcases (m.lt_iff k').1 hk' with hk' | rfl
    · exact hu k' hk' ((m.isChildOf_old h hk').1 hc')
    · exact absurd ((m.mem_iff h).2 (by have := (m.isChildOf_new h).1 hc'; tauto)) hmem

theorem Forest.parentless_merge (f : Forest freq b hs) (m : Merges b hs x y hs' b') (h : Nat) (hh : h ∈ b.k :: hs')
    (k : Nat) (hk : k < b'.k) : ¬ IsChildOf b'.node h k := by
  obtain ⟨-, hx, hy⟩ := m.nodup_taken
  rcases (m.lt_iff k).1 hk with hk | rfl
  · rw [m.isChildOf_old h hk]
    rcases List.mem_cons.1 hh with rfl | hh
    · rintro ⟨w, l, r, hi, hc⟩
      have := f.children_lt hk hi
      omega
    · exact f.parentless h ((m.mem_iff h).2 (.inr (.inr hh))) k hk
  · rw [m.isChildOf_new h]
    have hxk := m.x_lt
    have hyk := m.y_lt
    rcases List.mem_cons.1 hh with rfl | hh
    · omega
    · rintro (rfl | rfl)
      · exact hx hh
      · exact hy hh

theorem Forest.total_merge (f : Forest freq b hs) (m : Merges b hs x y hs' b') :
    ((b.k :: hs').map fun h => (nodeAt b'.node h).weight.toNat).sum = totalCount freq := by
  have hold : (hs'.map fun h => (nodeAt b'.node h).weight.toNat) = hs'.map fun h => (nodeAt b.node h).weight.toNat :=
    List.map_congr_left fun h hh => by rw [m.nodeAt_old (m.used h ((m.mem_iff h).2 (.inr (.inr hh))))]
  rw [← f.total, (m.perm.map fun h => (nodeAt b.node h).weight.toNat).sum_eq]
  simp only [List.map_cons, List.sum_cons, hold, f.weight_new m]
  omega

/-- A merge keeps the forest (R145, R147). -/
theorem Forest.merge (f : Forest freq b hs) (m : Merges b hs x y hs' b') : Forest freq b' (b.k :: hs') where
  count := by
    have h1 := f.count
    have h2 := m.perm.length_eq
    have h3 := m.k
    simp only [List.length_cons] at h2 ⊢
    omega
  newest := ⟨b.k, m.k, List.mem_cons_self⟩
  leaves := fun j y hj => by
    obtain ⟨hlt, -⟩ := List.getElem?_eq_some_iff.1 hj
    rw [m.nodeAt_old (by have := f.present_le m; omega)]
    exact f.leaves j y hj
  internals := f.internals_merge m
  greedy := f.greedy_merge m
  rising := f.rising_merge m
  halved := f.halved_merge m
  one_parent := f.one_parent_merge m
  parentless := f.parentless_merge m
  total := f.total_merge m

end

end Sys2Proof.Machine
end

section
/-! PROOFS. What a ready BUILD leaves (spec/41_huffman_tree_builder.md R143 to R146), and that its tree is sound (R38,
R145, R147, R156, R157). -/

namespace Sys2Proof.Machine

open Sys2Proof

/-! ### The symbols of the trees in the queue -/

/-- The symbols at a tree's leaves, left to right. -/
def CodeTree.symbols (t : CodeTree) : List Symbol := t.codes.map (·.1)

@[simp] theorem CodeTree.symbols_leaf (y : Symbol) : (CodeTree.leaf y).symbols = [y] := rfl

@[simp] theorem CodeTree.symbols_node (l r : CodeTree) : (CodeTree.node l r).symbols = l.symbols ++ r.symbols := by
  simp [CodeTree.symbols, CodeTree.codes, Function.comp_def]

/-- Each handle in the queue is the root of a tree, and together these trees have each present symbol at one leaf. -/
def Spelled (freq : Vector Count 256) (b : Builder) (hs : List Nat) : Prop :=
  ∃ tree : Nat → CodeTree, (∀ h, h ∈ hs → Spells b.node h (tree h)) ∧
    (hs.flatMap fun h => (tree h).symbols).Perm (presentSymbols freq)

theorem Spelled.start {p : Params} {freq : Vector Count 256} {b : Builder} {hs : List Nat} (h : b.Holds p hs)
    (hk : b.k = (presentSymbols freq).length) (hlen : hs.length = (presentSymbols freq).length)
    (hl : ∀ j y, (presentSymbols freq)[j]? = some y → nodeAt b.node j = .leaf (weightOfCount (freqOf freq y)) y) :
    Spelled freq b hs := by
  have hperm : hs.Perm (List.range (presentSymbols freq).length) :=
    hlen ▸ perm_range_of_nodup h.nodup fun i hi => by have := h.used i hi; omega
  refine ⟨fun i => .leaf ((presentSymbols freq).getD i 0#8), fun i hi => ?_, ?_⟩
  · have hlt : i < (presentSymbols freq).length := List.mem_range.1 (hperm.mem_iff.1 hi)
    refine ⟨_, hl i _ ?_⟩
    simp [List.getElem?_eq_getElem hlt]
  · refine (hperm.flatMap_right _).trans (.of_eq ?_)
    simp only [CodeTree.symbols_leaf, ← List.map_eq_flatMap]
    apply List.ext_getElem
    · simp
    · intro j _ h2
      simp [h2]

/-- A tree below k stands unchanged when entry k is written, for its nodes are all below k. -/
theorem Spells.setNode {node : Vector NodeEntry 511} {k : Nat} (hk : k < 511)
    (hlow : ∀ i w l r, i < k → nodeAt node i = .internal w l r → l.toNat < i ∧ r.toNat < i) (e : NodeEntry)
    {t : CodeTree} {h : Nat} (hh : h < k) (ht : Spells node h t) : Spells (setNode node k e) h t := by
  induction t generalizing h with
  | leaf y =>
    obtain ⟨w, hw⟩ := ht
    exact ⟨w, by rw [nodeAt_setNode _ _ _ _ hk, if_neg (by omega), hw]⟩
  | node l r ihl ihr =>
    obtain ⟨w, a, b, hn, hl, hr⟩ := ht
    obtain ⟨ha, hb⟩ := hlow h w a b hh hn
    exact ⟨w, a, b, by rw [nodeAt_setNode _ _ _ _ hk, if_neg (by omega), hn], ihl (by omega) hl, ihr (by omega) hr⟩

/-- A merge puts two trees under one node (R145). -/
theorem Spelled.merge {freq : Vector Count 256} {b b' : Builder} {hs hs' : List Nat} {x y : Nat}
    (s : Spelled freq b hs) (f : Forest freq b hs) (m : Merges b hs x y hs' b') : Spelled freq b' (b.k :: hs') := by
  obtain ⟨tree, hsp, hperm⟩ := s
  have hkeep : ∀ h, h ∈ hs → Spells b'.node h (tree h) := fun h hh =>
    m.node ▸ Spells.setNode m.room (fun i w l r hi => f.children_lt hi) _ (m.used h hh) (hsp h hh)
  have hrest : ∀ h, h ∈ hs' → Function.update tree b.k (.node (tree x) (tree y)) h = tree h := fun h hh =>
    Function.update_of_ne (Nat.ne_of_lt (m.used h ((m.mem_iff h).2 (.inr (.inr hh))))) _ _
  refine ⟨Function.update tree b.k (.node (tree x) (tree y)), fun h hh => ?_, ?_⟩
  · rcases List.mem_cons.1 hh with rfl | hh
    · rw [Function.update_self]
      refine ⟨_, _, _, m.nodeAt_new, ?_, ?_⟩
      · rw [m.x_toNat]; exact hkeep x ((m.mem_iff x).2 (.inl rfl))
      · rw [m.y_toNat]; exact hkeep y ((m.mem_iff y).2 (.inr (.inl rfl)))
    · rw [hrest h hh]
      exact hkeep h ((m.mem_iff h).2 (.inr (.inr hh)))
  · have hflat : (hs'.flatMap fun h => (Function.update tree b.k (.node (tree x) (tree y)) h).symbols) =
        hs'.flatMap fun h => (tree h).symbols := by
      rw [List.flatMap_congr fun h hh => by rw [hrest h hh]]
    rw [List.flatMap_cons, hflat, Function.update_self, CodeTree.symbols_node, List.append_assoc]
    exact (m.perm.flatMap_right fun h => (tree h).symbols).symm.trans hperm

/-! ### What BUILD leaves -/

/-- Phase 2 leaves a single tree (R145). -/
theorem Forest.buildMerge {p : Params} (hp : p.wf = true) {freq : Vector Count 256} {b : Builder} {hs : List Nat}
    (h : b.Holds p hs) (hn : (presentSymbols freq).length ≠ 0) (hlen : hs.length = (presentSymbols freq).length)
    (f : Forest freq b hs) (sp : Spelled freq b hs) :
    ∃ r, (buildMerge p b.queue.hsize.toNat b).Holds p [r] ∧
      Forest freq (buildMerge p b.queue.hsize.toNat b) [r] ∧ Spelled freq (buildMerge p b.queue.hsize.toNat b) [r] := by
  have hle := length_presentSymbols_le freq
  have hcount := f.count
  obtain ⟨r, hr, -, hf, hsp⟩ := @buildMerge_induct p hp (fun b hs => Forest freq b hs ∧ Spelled freq b hs)
    (fun b hs x y hs' hh hroom ih hperm h1 h2 hnode hk =>
      have m : Merges b hs x y hs' (b.merge p) := ⟨hroom, hh.nodup, hh.used, hperm, h1, h2, hnode, hk⟩
      ⟨ih.1.merge m, ih.2.merge ih.1 m⟩)
    b.queue.hsize.toNat b hs h (by omega) (by omega) (by rw [h.hsize]; omega) (by omega) ⟨f, sp⟩
  exact ⟨r, hr, hf, hsp⟩

/-- With n > 0 present symbols BUILD leaves an empty, sound queue, and in NODE a single tree, of root r (R143 to R146). -/
theorem State.buildTables_spec {s : State} (hs : s.BuildReady) (hn : (presentSymbols s.freq).length ≠ 0) :
    ∃ (b : Builder) (r : Nat) (q : Queue), Forest s.freq b [r] ∧ Spelled s.freq b [r] ∧ q.Ok s.params ∧
      q.hsize = 0#16 ∧
      s.buildTables = { s with
        queue := q, node := b.node, root := BitVec.ofNat 9 r, rootNone := false,
        nleaf := BitVec.ofNat 9 (presentSymbols s.freq).length, nnode := BitVec.ofNat 10 b.k,
        ct := genCodes b.node (BitVec.ofNat 9 r) (presentSymbols s.freq).length, built := true } := by
  have hle := length_presentSymbols_le s.freq
  obtain ⟨hs₀, hold, hk, hlen, hleaf⟩ := buildLeaves_spec hs.params_wf s.freq s.queue hs.slots_length s.node
  generalize hb : buildLeaves s.params s.freq { queue := s.queue.fresh s.params, node := s.node, k := 0 } = b₀ at *
  obtain ⟨r, hr, hf, hsp⟩ := Forest.buildMerge hs.params_wf hold hn hlen (Forest.start hold hn hk hlen hleaf)
    (Spelled.start hold hk hlen hleaf)
  have hcount := hf.count
  obtain ⟨q, hfin, hok, hempty, -⟩ := buildFinish_spec hr hn (by simp at hcount; omega)
  refine ⟨_, r, q, hf, hsp, hok, hempty, ?_⟩
  unfold State.buildTables
  simp only [hb, hk, hfin]

/-- With no present symbol it leaves the empty tree and the empty code table (R148). -/
theorem State.buildTables_of_empty {s : State} (hs : s.BuildReady) (hn : (presentSymbols s.freq).length = 0) :
    ∃ (node : Vector NodeEntry 511) (q : Queue), q.Ok s.params ∧ q.hsize = 0#16 ∧
      s.buildTables = { s with
        queue := q, node := node, root := 0#9, rootNone := true, nleaf := 0#9, nnode := 0#10,
        ct := Vector.replicate 256 CtEntry.absent, built := true } := by
  obtain ⟨hs₀, hold, hk, hlen, -⟩ := buildLeaves_spec hs.params_wf s.freq s.queue hs.slots_length s.node
  generalize hb : buildLeaves s.params s.freq { queue := s.queue.fresh s.params, node := s.node, k := 0 } = b₀ at *
  have hsize : b₀.queue.hsize.toNat = 0 := by rw [hold.hsize]; omega
  refine ⟨b₀.node, b₀.queue, hold.queue_ok, BitVec.eq_of_toNat_eq hsize, ?_⟩
  unfold State.buildTables
  simp only [hb, hk, hn, hsize, buildMerge, buildFinish_empty]
  rfl

/-- BUILD, its checks passed, keeps the heap sound (R100) and makes at most NODE_MAX nodes (R37). -/
theorem State.buildTables_bounds {s : State} (hs : s.BuildReady) :
    s.buildTables.queue.Ok s.params ∧ s.buildTables.nnode.toNat ≤ 511 := by
  have hle := length_presentSymbols_le s.freq
  by_cases hn : (presentSymbols s.freq).length = 0
  · obtain ⟨node, q, hok, -, heq⟩ := State.buildTables_of_empty hs hn
    rw [heq]
    exact ⟨hok, by simp⟩
  · obtain ⟨b, r, q, hf, -, hok, -, heq⟩ := State.buildTables_spec hs hn
    have := hf.count
    rw [heq]
    refine ⟨hok, ?_⟩
    simp only [List.length_singleton] at this
    simp only [BitVec.toNat_ofNat]
    omega

/-! ### The tree -/

/-- The single tree that is left is rooted in the newest node (R146, R157). -/
theorem Forest.root_eq {freq : Vector Count 256} {b : Builder} {r : Nat} (f : Forest freq b [r]) : b.k = r + 1 := by
  obtain ⟨k, hk, hmem⟩ := f.newest
  rw [List.mem_singleton.1 hmem] at hk
  exact hk

/-- A forest of one tree is a sound tree. -/
theorem Forest.treeOk {s : State} {b : Builder} {r : Nat} (f : Forest s.freq b [r])
    (hnode : s.node = b.node) (hroot : s.root = BitVec.ofNat 9 r) (hnone : s.rootNone = false)
    (hnleaf : s.nleaf = BitVec.ofNat 9 (presentSymbols s.freq).length) (hnnode : s.nnode = BitVec.ofNat 10 b.k) :
    s.TreeOk := by
  have hle := length_presentSymbols_le s.freq
  have hr := f.root_eq
  have hcount : b.k + 1 = 2 * (presentSymbols s.freq).length := f.count
  have hroot' : s.root.toNat = r := by rw [hroot, BitVec.toNat_ofNat]; omega
  have hnnode' : s.nnode.toNat = b.k := by rw [hnnode, BitVec.toNat_ofNat]; omega
  exact {
    nleaf_eq := by rw [hnleaf, BitVec.toNat_ofNat]; omega
    nnode_eq := by omega
    rootNone_eq := by rw [hnone, eq_comm, decide_eq_false_iff_not]; omega
    root_eq := by omega
    leaves := by rw [hnode]; exact f.leaves
    internals := by rw [hnode, hnnode']; exact f.internals
    greedy := by rw [hnode, hnnode']; exact f.greedy
    rising := by rw [hnode, hnnode']; exact f.rising
    one_parent := by
      rw [hnode, hnnode', hroot']
      exact fun h hh hne => f.one_parent h hh (by simpa using hne)
    root_no_parent := by
      rw [hnode, hnnode', hroot']
      exact f.parentless r (by simp)
    root_weight := fun _ => by
      rw [hnode, hroot']
      simpa using f.total }

theorem State.treeOk_of_empty {s : State} (hn : (presentSymbols s.freq).length = 0) (hroot : s.root = 0#9)
    (hnone : s.rootNone = true) (hnleaf : s.nleaf = 0#9) (hnnode : s.nnode = 0#10) : s.TreeOk := by
  have hnil := List.length_eq_zero_iff.1 hn
  constructor <;> simp [hnil, hroot, hnone, hnleaf, hnnode]

theorem State.buildTables_treeOk {s : State} (hs : s.BuildReady) : s.buildTables.TreeOk := by
  by_cases hn : (presentSymbols s.freq).length = 0
  · obtain ⟨node, q, -, -, heq⟩ := State.buildTables_of_empty hs hn
    rw [heq]
    exact State.treeOk_of_empty hn rfl rfl rfl rfl
  · obtain ⟨b, r, q, hf, -, -, -, heq⟩ := State.buildTables_spec hs hn
    rw [heq]
    exact Forest.treeOk hf rfl rfl rfl rfl rfl

/-- The tables of a built tree: all that `TreeOk` and `CodeOk` look at. -/
def State.tables (s : State) :
    Vector Count 256 × Vector NodeEntry 511 × Vector CtEntry 256 × Handle × Bool × BitVec 9 × BitVec 10 :=
  (s.freq, s.node, s.ct, s.root, s.rootNone, s.nleaf, s.nnode)

/-- A state is another with its tables when it has the tables of that one. -/
theorem State.eq_with_tables {s t : State} (h : t.tables = s.tables) :
    t = { t with freq := s.freq, node := s.node, ct := s.ct, root := s.root, rootNone := s.rootNone,
                 nleaf := s.nleaf, nnode := s.nnode } := by
  simp only [State.tables, Prod.mk.injEq] at h
  obtain ⟨h1, h2, h3, h4, h5, h6, h7⟩ := h
  rw [← h1, ← h2, ← h3, ← h4, ← h5, ← h6, ← h7]

theorem State.TreeOk.congr {s t : State} (hs : s.TreeOk) (h : t.tables = s.tables) : t.TreeOk := by
  rw [State.eq_with_tables h]
  exact { hs with }

/-- BUILD of a ready state builds its tables and completes (R143). -/
theorem execBuild_of_ready {s : State} (hs : s.BuildReady) : exec .build s = .next s.buildTables.done := by
  show execBuild s = _
  simp [execBuild, hs.ftv, hs.built, hs.av]

/-- Settles O26: BUILD's last forest is one tree. -/
theorem buildMakesSoundTree : Obligations.BuildMakesSoundTree := fun _ hs =>
  ⟨_, execBuild_of_ready hs, (State.buildTables_treeOk hs).congr rfl⟩

end Sys2Proof.Machine
end

section
/-! PROOFS. The code table that BUILD makes is sound (spec/41_huffman_tree_builder.md R152 to R155, R159, R161). -/

namespace Sys2Proof.Machine

open Sys2Proof

/-! ### Codes of a tree -/

theorem CodeTree.depth_lt_length (t : CodeTree) : t.depth < t.codes.length := by
  induction t with
  | leaf y => simp [CodeTree.depth, CodeTree.codes]
  | node l r ihl ihr =>
    simp only [CodeTree.depth, CodeTree.codes, List.length_append, List.length_map]
    omega

theorem CodeTree.length_le_depth (t : CodeTree) {c : Symbol × List Bool} (hc : c ∈ t.codes) : c.2.length ≤ t.depth := by
  induction t generalizing c with
  | leaf y =>
    rw [CodeTree.codes, List.mem_singleton] at hc
    simp [hc]
  | node l r ihl ihr =>
    simp only [CodeTree.codes, List.mem_append, List.mem_map] at hc
    simp only [CodeTree.depth]
    rcases hc with ⟨c, hc, rfl⟩ | ⟨c, hc, rfl⟩
    · have := ihl hc
      simp only [List.length_cons]; omega
    · have := ihr hc
      simp only [List.length_cons]; omega

/-- In a tree of two leaves or more no code is empty (R161). -/
theorem CodeTree.one_le_length (t : CodeTree) (ht : 2 ≤ t.codes.length) {c : Symbol × List Bool} (hc : c ∈ t.codes) :
    1 ≤ c.2.length := by
  cases t with
  | leaf y => simp [CodeTree.codes] at ht
  | node l r =>
    simp only [CodeTree.codes, List.mem_append, List.mem_map] at hc
    rcases hc with ⟨c, _, rfl⟩ | ⟨c, _, rfl⟩ <;> simp

theorem CodeTree.mem_symbols {t : CodeTree} {y : Symbol} : y ∈ t.symbols ↔ ∃ bits, (y, bits) ∈ t.codes := by
  simp [CodeTree.symbols]

/-! ### The bits that the walk writes -/

/-- The path's bits stand right-aligned, the last one at bit 0, below the bits of the path before them (R152, R159). -/
theorem getLsbD_appendBits (bs : List Bool) (path : CodeBits) (i : Nat) (hi : i < 256) :
    (appendBits path bs).getLsbD i = (bs.reverse[i]?).getD (path.getLsbD (i - bs.length)) := by
  induction bs generalizing path with
  | nil => simp [appendBits]
  | cons b bs ih =>
    rw [appendBits, ih, List.reverse_cons, List.getElem?_append, List.length_reverse]
    rcases Nat.lt_trichotomy i bs.length with hlt | rfl | hgt
    · simp [hlt]
    · cases b <;> simp
    · have hbit : ∀ j, 1 ≤ j → (if b then 1#256 else 0#256).getLsbD j = false := by
        intro j hj
        cases b <;> simp; omega
      rw [BitVec.getLsbD_or, BitVec.getLsbD_shiftLeft, hbit _ (by omega)]
      simp [show ¬ i < bs.length by omega, show i - bs.length ≠ 0 by omega, show i - bs.length < 256 by omega,
        show i - bs.length - 1 = i - (bs.length + 1) by omega]

/-- The entry that the walk writes at the end of a path from the root. -/
def entryOfPath (bs : List Bool) : CtEntry :=
  { present := true, len := BitVec.ofNat 9 bs.length, bits := appendBits 0#256 bs }

theorem entryOfPath_len {bs : List Bool} (h : bs.length ≤ 256) : (entryOfPath bs).len.toNat = bs.length := by
  simp only [entryOfPath, BitVec.toNat_ofNat]; omega

/-- ENCODE emits exactly the path (R153, R159). -/
theorem codeBits_entryOfPath {bs : List Bool} (h : bs.length ≤ 256) : codeBits (entryOfPath bs) = bs := by
  apply List.ext_getElem
  · rw [codeBits_length, entryOfPath_len h]
  · intro i h1 h2
    simp only [codeBits, entryOfPath_len h, List.getElem_map, List.getElem_range]
    simp only [entryOfPath]
    rw [getLsbD_appendBits _ _ _ (by omega), List.getElem?_reverse (by omega),
      show bs.length - 1 - (bs.length - 1 - i) = i by omega, List.getElem?_eq_getElem h2, Option.getD_some]

theorem entryOfPath_high_bits {bs : List Bool} (h : bs.length ≤ 256) :
    (entryOfPath bs).bits.toNat < 2 ^ (entryOfPath bs).len.toNat := by
  have hlt := (appendBits_toNat bs 0#256 0 (by simp) (by omega)).2
  rwa [Nat.zero_add, ← entryOfPath_len h] at hlt

/-! ### The table of two symbols or more -/

/-- A state whose code table spells out a tree of two leaves or more, one for each present symbol. -/
structure State.CodesTree (s : State) (t : CodeTree) : Prop where
  spells : Spells s.node s.root.toNat t
  symbols : t.symbols.Perm (presentSymbols s.freq)
  two : 2 ≤ (presentSymbols s.freq).length
  ct : s.ct = writeCodes 0#256 0#9 t.codes (Vector.replicate 256 CtEntry.absent)

section
variable {s : State} {t : CodeTree} (c : s.CodesTree t)
include c

theorem State.CodesTree.length_codes : t.codes.length = (presentSymbols s.freq).length := by
  simpa [CodeTree.symbols] using c.symbols.length_eq

theorem State.CodesTree.length_le {y : Symbol} {bits : List Bool} (h : (y, bits) ∈ t.codes) :
    1 ≤ bits.length ∧ bits.length ≤ (presentSymbols s.freq).length - 1 := by
  have h1 := t.one_le_length (by rw [c.length_codes]; exact c.two) h
  have h2 := t.length_le_depth h
  have h3 := t.depth_lt_length
  have h4 := c.length_codes
  simp only at h1 h2
  omega

theorem State.CodesTree.length_le_256 {y : Symbol} {bits : List Bool} (h : (y, bits) ∈ t.codes) : bits.length ≤ 256 := by
  have := c.length_le h
  have := length_presentSymbols_le s.freq
  omega

theorem State.CodesTree.ctAt_of_mem {y : Symbol} {bits : List Bool} (h : (y, bits) ∈ t.codes) :
    s.ctAt y = entryOfPath bits := by
  have hnd : (t.codes.map (·.1)).Nodup := c.symbols.nodup_iff.2 (nodup_presentSymbols s.freq)
  have := writeCodes_of_mem 0#256 0#9 t.codes (Vector.replicate 256 CtEntry.absent) hnd _ h
  simp only [State.ctAt, c.ct, this, entryOfPath, BitVec.zero_add]

theorem State.CodesTree.ctAt_of_not_mem {y : Symbol} (h : y ∉ t.symbols) : s.ctAt y = CtEntry.absent := by
  have := writeCodes_of_not_mem 0#256 0#9 t.codes (Vector.replicate 256 CtEntry.absent) y h
  simp only [State.ctAt, c.ct, this, Vector.getElem_replicate]

theorem State.CodesTree.mem_symbols (y : Symbol) : y ∈ t.symbols ↔ s.freqAt y ≠ 0#32 := by
  rw [c.symbols.mem_iff, mem_presentSymbols]; rfl

/-- A present symbol's code is in the tree. -/
theorem State.CodesTree.exists_code {y : Symbol} (h : s.freqAt y ≠ 0#32) : ∃ bits, (y, bits) ∈ t.codes :=
  CodeTree.mem_symbols.1 ((c.mem_symbols y).2 h)

/-- A code table that spells out the tree is sound, if each leaf that a path leads to has its symbol's count. -/
theorem State.CodesTree.codeOk
    (hleaf : ∀ bits w y, followPath s.node s.root bits = some (.leaf w y) → w = weightOfCount (freqOf s.freq y)) :
    s.CodeOk where
  absent y hy := c.ctAt_of_not_mem fun h => (c.mem_symbols y).1 h hy
  present y hy := by
    obtain ⟨bits, hb⟩ := c.exists_code hy
    rw [State.hasCode, c.ctAt_of_mem hb]; rfl
  high_bits y := by
    by_cases hy : y ∈ t.symbols
    · obtain ⟨bits, hb⟩ := CodeTree.mem_symbols.1 hy
      rw [c.ctAt_of_mem hb]
      exact entryOfPath_high_bits (c.length_le_256 hb)
    · rw [c.ctAt_of_not_mem hy]; decide
  single y hy := by
    have := c.two
    simp [hy] at this
  path _ y hy := by
    obtain ⟨bits, hb⟩ := c.exists_code hy
    obtain ⟨w, hw⟩ := followPath_of_mem_codes c.spells hb
    rw [State.codeOf, c.ctAt_of_mem hb, codeBits_entryOfPath (c.length_le_256 hb), hw, hleaf bits w y hw]
    rfl
  lengths _ y hy := by
    obtain ⟨bits, hb⟩ := c.exists_code hy
    rw [c.ctAt_of_mem hb, entryOfPath_len (c.length_le_256 hb)]
    exact c.length_le hb

end

/-! ### The table of one symbol, and of none -/

/-- A code table with the entry of the one present symbol alone is sound (R149, R154). -/
theorem State.codeOk_of_single {s : State} {y : Symbol} (hy : presentSymbols s.freq = [y])
    (hct : s.ct = setCt (Vector.replicate 256 CtEntry.absent) y { present := true, len := 1#9, bits := 0#256 }) :
    s.CodeOk := by
  have hat : ∀ z, s.ctAt z = if z = y then { present := true, len := 1#9, bits := 0#256 } else CtEntry.absent := by
    intro z
    simp only [State.ctAt, hct, getElem_setCt, Vector.getElem_replicate]
  have hone : ∀ z, s.freqAt z ≠ 0#32 ↔ z = y := fun z => by
    have := mem_presentSymbols s.freq z
    rw [hy, List.mem_singleton] at this
    exact this.symm
  have htwo : ¬ 2 ≤ (presentSymbols s.freq).length := by simp [hy]
  exact {
    absent := fun z hz => by rw [hat, if_neg fun h => (hone z).2 h hz]
    present := fun z hz => by rw [State.hasCode, hat, if_pos ((hone z).1 hz)]
    high_bits := fun z => by rw [hat]; split <;> decide
    single := fun z hz => by
      rw [hy] at hz
      rw [hat, if_pos (List.singleton_inj.1 hz).symm]
    path := fun h => absurd h htwo
    lengths := fun h => absurd h htwo }

/-- The code table without an entry is sound for the table without a count (R148). -/
theorem State.codeOk_of_empty {s : State} (hn : (presentSymbols s.freq).length = 0)
    (hct : s.ct = Vector.replicate 256 CtEntry.absent) : s.CodeOk := by
  have hnil := List.length_eq_zero_iff.1 hn
  have hat : ∀ z, s.ctAt z = CtEntry.absent := fun z => by simp only [State.ctAt, hct, Vector.getElem_replicate]
  have hzero : ∀ z, s.freqAt z = 0#32 := fun z => by
    by_contra hz
    have := (mem_presentSymbols s.freq z).2 hz
    simp [hnil] at this
  exact {
    absent := fun z _ => hat z
    present := fun z hz => absurd (hzero z) hz
    high_bits := fun z => by rw [hat]; decide
    single := fun z hz => by simp [hnil] at hz
    path := fun h => by omega
    lengths := fun h => by omega }

/-! ### BUILD -/

/-- Every path from a handle of the forest that ends at a leaf ends at one of the first n nodes, with its symbol's count
(R144, R153). -/
theorem Forest.weight_of_followPath {freq : Vector Count 256} {b : Builder} {hs : List Nat} (f : Forest freq b hs)
    (bits : List Bool) (h : Handle) (hh : h.toNat < b.k) (w : Weight) (y : Symbol)
    (hp : followPath b.node h bits = some (.leaf w y)) : w = weightOfCount (freqOf freq y) := by
  induction bits generalizing h with
  | nil =>
    simp only [followPath, Option.some.injEq] at hp
    by_cases hn : h.toNat < (presentSymbols freq).length
    · have hleaf := f.leaves _ _ (List.getElem?_eq_getElem hn)
      rw [hp] at hleaf
      injection hleaf with h1 h2
      rw [h1, h2]
    · obtain ⟨_, _, _, hi, -⟩ := f.internals h.toNat (by omega) hh
      simp [hp] at hi
  | cons c bits ih =>
    cases hnode : nodeAt b.node h.toNat with
    | leaf _ _ => simp [followPath, hnode] at hp
    | internal v l r =>
      obtain ⟨hl, hr⟩ := f.children_lt hh hnode
      simp only [followPath, hnode] at hp
      cases c with
      | false => exact ih l (by omega) hp
      | true => exact ih r (by omega) hp

/-- The code table that `gen_codes` makes of a single tree is sound. -/
theorem Forest.codeOk {s : State} {b : Builder} {r : Nat} (f : Forest s.freq b [r]) (sp : Spelled s.freq b [r])
    (hnode : s.node = b.node) (hroot : s.root = BitVec.ofNat 9 r)
    (hct : s.ct = genCodes b.node (BitVec.ofNat 9 r) (presentSymbols s.freq).length) : s.CodeOk := by
  have hle := length_presentSymbols_le s.freq
  have hr := f.root_eq
  have hcount : b.k + 1 = 2 * (presentSymbols s.freq).length := f.count
  have hroot' : (BitVec.ofNat 9 r).toNat = r := by rw [BitVec.toNat_ofNat]; omega
  by_cases hone : (presentSymbols s.freq).length = 1
  · obtain ⟨y, hy⟩ := List.length_eq_one_iff.1 hone
    refine State.codeOk_of_single hy ?_
    have hsym : symAt b.node (BitVec.ofNat 9 r) = y := by
      have hleaf := f.leaves 0 y (by simp [hy])
      simp [symAt, show r = 0 by omega, hleaf]
    simp [hct, genCodes, hone, hsym]
  · obtain ⟨tree, hsp, hperm⟩ := sp
    have hspells : Spells b.node (BitVec.ofNat 9 r).toNat (tree r) := hroot'.symm ▸ hsp r (by simp)
    have hsymbols : (tree r).symbols.Perm (presentSymbols s.freq) := by simpa using hperm
    have hdepth : (tree r).depth < nodeMax := by
      have h1 := (tree r).depth_lt_length
      have h2 := hsymbols.length_eq
      simp only [CodeTree.symbols, List.length_map] at h2
      show _ < 511
      omega
    have hwalk : s.ct = writeCodes 0#256 0#9 (tree r).codes (Vector.replicate 256 CtEntry.absent) := by
      rw [hct, genCodes, if_neg (by omega), if_neg hone]
      exact walk_spec _ _ _ _ _ _ _ hspells hdepth
    have hcodes : s.CodesTree (tree r) := ⟨by rw [hnode, hroot]; exact hspells, hsymbols, by omega, hwalk⟩
    refine hcodes.codeOk fun bits w y hp => ?_
    rw [hnode, hroot] at hp
    exact f.weight_of_followPath bits _ (by omega) w y hp

theorem State.buildTables_codeOk {s : State} (hs : s.BuildReady) : s.buildTables.CodeOk := by
  by_cases hn : (presentSymbols s.freq).length = 0
  · obtain ⟨node, q, -, -, heq⟩ := State.buildTables_of_empty hs hn
    rw [heq]
    exact State.codeOk_of_empty hn rfl
  · obtain ⟨b, r, q, hf, hsp, -, -, heq⟩ := State.buildTables_spec hs hn
    rw [heq]
    exact Forest.codeOk hf hsp rfl rfl rfl

theorem State.CodeOk.congr {s t : State} (hs : s.CodeOk) (h : t.tables = s.tables) : t.CodeOk := by
  rw [State.eq_with_tables h]
  exact { hs with }

end Sys2Proof.Machine
end

section
/-! PROOFS. Every step keeps the machine's invariant and the soundness of the built tables (spec/10_state.md R27, R28). -/

namespace Sys2Proof.Machine

open Sys2Proof

/-! ### O54 -/

theorem State.Inv.buildTables {s : State} (hs : s.Inv) (hr : s.rst = false) (hidle : s.busy = false)
    (hf : s.ftv = true) (hb : s.built = false) (ha : s.av = false) : s.buildTables.done.Inv :=
  have hready := hs.buildReady hf hb ha
  { params_wf := hs.params_wf
    queue_ok := (State.buildTables_bounds hready).1
    built_table := fun _ => ⟨hf, ha⟩
    unbuilt_tree := by simp
    nnode_le := (State.buildTables_bounds hready).2
    err_code := by simp
    idle_output := hs.idle_output
    busy_output := by simp [hidle]
    held_in_reset := by simp [hr] }

/-- A command that the block accepts keeps the invariant. -/
theorem State.Inv.command {s t : State} {i : Instr} (hs : s.Inv) (hready : s.cmdReady = true) (he : Effect s i t) :
    t.Inv := by
  obtain ⟨hidle, hr⟩ := s.cmdReady_iff.1 hready
  have hq := hs.queue_ok
  have hok := errorCode_le .ok
  cases he with
  | fails i e => exact hs.withRegisters hr hq _ _ (errorCode_le e)
  | succeeds => exact hs.withRegisters hr hq _ _ hok
  | clears => exact hs.clearTable hr hidle
  | marks _ _ hb => exact hs.writeTable hr hb _ _
  | stores _ _ _ hb _ => exact hs.writeTable hr hb _ _
  | builds hf hb ha => exact hs.buildTables hr hidle hf hb ha
  | reads => exact hs.withRegisters hr hq _ _ hok
  | readsStat => exact hs.withRegisters hr hq _ _ hok
  | emits _ _ hb _ _ => exact hs.emit hr hb _
  | inserts _ _ _ hins => exact hs.withRegisters hr (hq.insert hins) _ _ hok
  | removes _ _ hrem => exact hs.withRegisters hr (hq.removeMin hrem) _ _ hok
  | empties => exact hs.withRegisters hr (Queue.fresh_ok hs.params_wf _ hq.slots_length) _ _ hok

theorem State.Inv.illegal {s : State} (hs : s.Inv) (hready : s.cmdReady = true) : (s.raise .illegalCommand).Inv :=
  hs.command hready (.fails .nop .illegalCommand (by decide))

theorem State.inv_kept : KeptByStep State.Inv where
  host _ acts hs := hs.withHost acts
  output _ hs := hs.continueOutput
  illegal _ hready hs := hs.illegal hready
  command _ _ _ hready hs he := hs.command hready he
  read _ index hs := hs.logRead index
  sink _ k hs := hs.withSink k
  reset _ hs := hs.assertReset
  release _ hs := hs.release

/-- Settles O54. -/
theorem stepKeepsInvariant : Obligations.StepKeepsInvariant := fun _ _ hs h => State.inv_kept.step hs h

/-! ### O55 -/

/-- What leaves BUILT and the tables alone keeps them sound. -/
theorem State.TablesOk.congr {s t : State} (hs : s.TablesOk) (hb : t.built = s.built) (h : t.tables = s.tables) :
    t.TablesOk := fun ht =>
  have ⟨htree, hcode⟩ := hs (hb ▸ ht)
  ⟨htree.congr h, hcode.congr h⟩

theorem State.tablesOk_of_unbuilt {s : State} (hb : s.built = false) : s.TablesOk := fun ht => by simp [hb] at ht

theorem State.buildTables_tablesOk {s : State} (hs : s.BuildReady) : s.buildTables.TablesOk := fun _ =>
  ⟨State.buildTables_treeOk hs, State.buildTables_codeOk hs⟩

theorem State.TablesOk.continueOutput {s : State} (hs : s.TablesOk) : s.continueOutput.TablesOk := by
  unfold State.continueOutput
  split
  · exact hs.congr rfl rfl
  · exact hs

/-- A command leaves the tables alone, clears BUILT, writes FREQ while BUILT = 0, or builds them anew (R160). -/
theorem State.TablesOk.command {s t : State} {i : Instr} (hinv : s.Inv) (hs : s.TablesOk) (he : Effect s i t) :
    t.TablesOk := by
  cases he with
  | clears => exact State.tablesOk_of_unbuilt rfl
  | marks _ _ hb | stores _ _ _ hb _ => exact State.tablesOk_of_unbuilt hb
  | builds hf hb ha => exact (State.buildTables_tablesOk (hinv.buildReady hf hb ha)).congr rfl rfl
  | fails | succeeds | reads | readsStat | emits | inserts | removes | empties => exact hs.congr rfl rfl

/-- The soundness of the tables needs the invariant beside it, for BUILD works on a sound store of slots (R39). -/
theorem State.inv_and_tablesOk_kept : KeptByStep fun s => s.Inv ∧ s.TablesOk where
  host s acts hs := ⟨State.inv_kept.host s acts hs.1, hs.2.congr rfl rfl⟩
  output s hs := ⟨State.inv_kept.output s hs.1, hs.2.continueOutput⟩
  illegal s hready hs := ⟨State.inv_kept.illegal s hready hs.1, hs.2.congr rfl rfl⟩
  command s i t hready hs he := ⟨State.inv_kept.command s i t hready hs.1 he, hs.2.command hs.1 he⟩
  read s index hs := ⟨State.inv_kept.read s index hs.1, hs.2.congr rfl rfl⟩
  sink s k hs := ⟨State.inv_kept.sink s k hs.1, hs.2.congr rfl rfl⟩
  reset s hs := ⟨State.inv_kept.reset s hs.1, State.tablesOk_of_unbuilt rfl⟩
  release s hs := ⟨State.inv_kept.release s hs.1, hs.2.congr rfl rfl⟩

/-- Settles O55. -/
theorem stepKeepsTablesSound : Obligations.StepKeepsTablesSound := fun _ _ hinv hs h =>
  (State.inv_and_tablesOk_kept.step ⟨hinv, hs⟩ h).2

end Sys2Proof.Machine
end

section
/-! PROOFS. One step of the block, act by act (spec/20_memory.md R61 to R66), and the statements about its ports. -/

namespace Sys2Proof.Machine

open Sys2Proof

/-! ### The next act -/

theorem nextAct_of_ready {s : State} {a : HostAct} {rest : List HostAct} (hready : s.cmdReady = true)
    (hhost : s.host = a :: rest) : nextAct s = some (a, { s with host := rest }) := by
  simp [nextAct, hready, hhost]

theorem nextAct_of_held {s : State} (hready : s.cmdReady = false) :
    nextAct s = (takeUnheld s.host).map fun r => (r.1, { s with host := r.2 }) := by
  rw [nextAct, if_neg (by simp [hready])]
  cases takeUnheld s.host <;> rfl

theorem takeUnheld_cons_of_port {a : HostAct} (hport : ∀ w, a ≠ .offer w) (rest : List HostAct) :
    takeUnheld (a :: rest) = some (a, rest) := by
  cases a with
  | offer w => exact absurd rfl (hport w)
  | read | sink | rst => rfl

/-- However many words wait, what is taken is taken past them, and they stay in their places (R64). -/
theorem takeUnheld_offers_append (held : List Word) (acts : List HostAct) :
    takeUnheld (offers held ++ acts) = (takeUnheld acts).map fun r => (r.1, offers held ++ r.2) := by
  induction held with
  | nil => simp [offers]
  | cons w held ih =>
    change takeUnheld (.offer w :: (offers held ++ acts)) = _
    rw [takeUnheld_offer, ih, Option.map_map]
    rfl

theorem takeUnheld_offers (held : List Word) : takeUnheld (offers held) = none := by
  have h := takeUnheld_offers_append held []
  rwa [List.append_nil] at h

/-- Taking an act at another port than the command port changes the host's list alone, and loses no offered word. -/
theorem nextAct_port {s s' : State} {a : HostAct} (ha : nextAct s = some (a, s')) (hport : ∀ w, a ≠ .offer w) :
    ∃ acts, s' = { s with host := acts } ∧ offeredWords acts = offeredWords s.host := by
  obtain ⟨hs', ⟨w, hw, -⟩ | ⟨-, hwords⟩⟩ := nextAct_spec s s' a ha
  · exact absurd hw (hport w)
  · exact ⟨s'.host, hs', hwords⟩

/-! ### One step per act -/

theorem step_of_none {s : State} (ha : nextAct s = none) : step s = .next s.continueOutput := by
  rw [step, ha]

theorem step_of_offer {s s' : State} {w : Word} (ha : nextAct s = some (.offer w, s')) : step s = runWord w s' := by
  rw [step, ha]

theorem step_of_read {s s' : State} {index : BitVec 8} (ha : nextAct s = some (.read index, s')) :
    step s = .next (s'.logRead index) := by
  rw [step, ha]

theorem step_of_sink {s s' : State} {k : Sink} (ha : nextAct s = some (.sink k, s')) :
    step s = .next (s'.changeSink k) := by
  rw [step, ha]

theorem step_of_rst {s s' : State} {level : Bool} (ha : nextAct s = some (.rst level, s')) :
    step s = .next (s'.setRst level) := by
  rw [step, ha]

theorem runWord_of_command {w : Word} {i : Instr} (hw : decode w = .command i) (s : State) :
    runWord w s = exec i s := by
  rw [runWord, hw]

theorem State.continueOutput_idle {s : State} (hb : s.busy = false) : s.continueOutput = s := by
  simp [State.continueOutput, hb]

theorem State.continueOutput_busy {s : State} (hb : s.busy = true) : s.continueOutput = s.emit s.pending := by
  simp [State.continueOutput, hb]

@[simp] theorem State.continueOutput_host (s : State) : s.continueOutput.host = s.host := by
  cases hb : s.busy with
  | true => rw [State.continueOutput_busy hb, State.emit_host]
  | false => rw [State.continueOutput_idle hb]

@[simp] theorem State.changeSink_host (k : Sink) (s : State) : (s.changeSink k).host = s.host :=
  State.continueOutput_host _

@[simp] theorem State.setRst_host (level : Bool) (s : State) : (s.setRst level).host = s.host := by
  cases level <;> rfl

/-- An act at another port than the command port answers a next state and leaves the other acts to the host. -/
theorem step_of_port {s s' : State} {a : HostAct} (ha : nextAct s = some (a, s')) (hport : ∀ w, a ≠ .offer w) :
    ∃ t, step s = .next t ∧ t.host = s'.host := by
  cases a with
  | offer w => exact absurd rfl (hport w)
  | read index => exact ⟨_, step_of_read ha, State.logRead_host index s'⟩
  | sink k => exact ⟨_, step_of_sink ha, State.changeSink_host k s'⟩
  | rst level => exact ⟨_, step_of_rst ha, State.setRst_host level s'⟩

/-! ### O7, O8, O56: the command port -/

/-- Settles O7. -/
theorem stepRunsAcceptedCommand : Obligations.StepRunsAcceptedCommand := by
  intro s w rest i hready hhost hw
  rw [step_of_offer (nextAct_of_ready hready hhost), runWord_of_command hw]

/-- Settles O8: the block goes on by itself, or takes an act that is no offer. -/
theorem offeredWordsWaitWhileNotReady : Obligations.OfferedWordsWaitWhileNotReady := by
  intro s hready
  cases ha : nextAct s with
  | none => exact ⟨_, step_of_none ha, by rw [State.continueOutput_host]⟩
  | some r =>
    obtain ⟨a, s'⟩ := r
    obtain ⟨-, ⟨w, -, hready', -⟩ | ⟨hport, hwords⟩⟩ := nextAct_spec s s' a ha
    · simp [hready] at hready'
    · obtain ⟨t, hstep, hhost⟩ := step_of_port ha hport
      exact ⟨t, hstep, by rw [hhost, hwords]⟩

/-- Settles O56, by induction on the words that wait. -/
theorem otherPortsGoOnPastHeldWords : Obligations.OtherPortsGoOnPastHeldWords := by
  intro s held a rest
  refine ⟨nextAct_of_ready, fun hready hport hhost => ?_, fun hready hhost => ?_⟩
  · rw [nextAct_of_held hready, hhost, takeUnheld_offers_append, takeUnheld_cons_of_port hport]
    rfl
  · rw [nextAct_of_held hready, hhost, takeUnheld_offers]
    rfl

/-! ### O11: the output port -/

theorem State.changeSink_idle {s : State} (hb : s.busy = false) (k : Sink) : s.changeSink k = { s with sink := k } :=
  State.continueOutput_idle hb

theorem State.changeSink_busy {s : State} (hb : s.busy = true) (k : Sink) :
    s.changeSink k = ({ s with sink := k } : State).emit s.pending :=
  State.continueOutput_busy hb

theorem State.changeSink_of_accepts {s : State} {k : Sink} (hb : s.busy = true) (hk : k.Accepts s.pending.length) :
    s.changeSink k = { s with
      sink := k.after s.pending.length, out := s.out ++ s.pending, pending := [], busy := false, err := 0#4 } := by
  rw [State.changeSink_busy hb, State.emit_of_accepts hk]

theorem State.changeSink_of_withholds {s : State} {n : Nat} (hb : s.busy = true) (hn : n < s.pending.length) :
    s.changeSink (.upTo n) =
      { s with sink := .upTo 0, out := s.out ++ s.pending.take n, pending := s.pending.drop n } := by
  rw [State.changeSink_busy hb, State.emit_of_withholds rfl hn, ← hb]

/-- Settles O11: the waiting bits are offered to the new sink, which accepts all of them or the first n. -/
theorem waitingEncodeGoesOn : Obligations.WaitingEncodeGoesOn := by
  intro s s' k ha
  obtain ⟨acts, rfl, hwords⟩ := nextAct_port ha (by simp)
  rw [step_of_sink ha]
  refine ⟨hwords, fun hb => ?_, ?_, ?_⟩
  · exact congrArg _ (State.changeSink_idle (s := { s with host := acts }) hb k)
  · rintro hb rfl
    exact congrArg _ (State.changeSink_of_accepts hb (Sink.accepts_always _))
  · rintro hb n rfl
    exact ⟨fun hn => congrArg _ (State.changeSink_of_withholds hb hn),
      fun hn => congrArg _ (State.changeSink_of_accepts hb (Nat.min_eq_right hn))⟩

/-! ### O12, O14: the register port -/

theorem State.readPort_idle {s : State} (hb : s.busy = false) (draw : Word) (index : BitVec 8) :
    s.readPort draw index = s.portRegister index := by
  simp [State.readPort, hb]

theorem State.readPort_status_busy {s : State} (hb : s.busy = true) (draw : Word) :
    (s.readPort draw 0#8).getLsbD 0 = true := by
  simp [State.readPort, hb]

/-- Settles O12: the value shown is the one that the host's record grows by. -/
theorem registerReadHasNoSideEffect : Obligations.RegisterReadHasNoSideEffect := by
  intro s s' index ha
  obtain ⟨acts, rfl, hwords⟩ := nextAct_port ha (by simp)
  refine ⟨hwords, _, step_of_read ha, fun hb => ?_, fun hb hindex => ?_⟩
  · exact State.readPort_idle (s := { s with host := acts }) hb _ _
  · rw [hindex]
    exact State.readPort_status_busy (s := { s with host := acts }) hb _

theorem State.portRegister_code (s : State) {k : Nat} (hk : k < 4) :
    s.portRegister (BitVec.ofNat 8 (2 + k)) = s.codeWord k := by
  interval_cases k <;> rfl

theorem State.getLsbD_codeWord (s : State) (k : Nat) {j : Nat} (hj : j < 64) :
    (s.codeWord k).getLsbD j = s.code.getLsbD (64 * k + j) := by
  simp [State.codeWord, hj]

theorem State.portRegister_unassigned (s : State) {index : BitVec 8} (h : 7 ≤ index.toNat) :
    s.portRegister index = 0#64 := by
  unfold State.portRegister
  split
  iterate 7 · omega
  · rfl

/-- Settles O14: each field of TREE is cut out past the fields below it. -/
theorem registerPortMap : Obligations.RegisterPortMap := by
  intro s
  have htree : s.portRegister 6#8 = s.treeWord := rfl
  rw [htree]
  refine ⟨rfl, fun k hk j hj => ?_, ?_, ?_, ?_, ?_, ?_, ?_, ?_, fun index h => s.portRegister_unassigned h⟩
  · rw [s.portRegister_code hk, s.getLsbD_codeWord k hj]
  case refine_4 => simp only [State.treeWord, BitVec.getLsbD_append]; simp
  all_goals
    unfold State.treeWord
    repeat rw [BitVec.extractLsb'_append_eq_of_le (by decide)]
  iterate 5 · exact BitVec.extractLsb'_append_eq_right
  · exact BitVec.extractLsb'_eq_self

end Sys2Proof.Machine
end

section
/-! PROOFS. The commands that read, and ENCODE, case by case of their checks (spec/41_huffman_tree_builder.md R142 and
R151, spec/42_huffman_encoder.md R181 and R184), with what repeating a read does (spec/20_memory.md R69) and ENCODE behind
a sink that withholds acceptance (R66). -/

namespace Sys2Proof.Machine

open Sys2Proof

/-! ### The cases of each command -/

theorem exec_freqRead_none {sym : Imm16} (hsym : symbolOf sym = none) (s : State) :
    exec (.freqRead sym) s = .next { s with err := 4#4 } := by
  rw [exec, execFreqRead, hsym]
  rfl

theorem exec_freqRead_some {sym : Imm16} {y : Symbol} (hsym : symbolOf sym = some y) (s : State) :
    exec (.freqRead sym) s = .next { s with result := resultOfFreq (s.freqAt y), err := 0#4 } := by
  rw [exec, execFreqRead, hsym]
  rfl

theorem exec_nodeRead_unbuilt {s : State} (hb : s.built = false) (handle : Imm16) :
    exec (.nodeRead handle) s = .next { s with err := 1#4 } := by
  rw [exec, execNodeRead, if_pos (by simp [hb])]
  rfl

theorem exec_nodeRead_none {s : State} {handle : Imm16} (hb : s.built = true) (hh : handleOf s handle = none) :
    exec (.nodeRead handle) s = .next { s with err := 2#4 } := by
  rw [exec, execNodeRead, if_neg (by simp [hb]), hh]
  rfl

theorem exec_nodeRead_some {s : State} {handle : Imm16} {h : Nat} (hb : s.built = true)
    (hh : handleOf s handle = some h) :
    exec (.nodeRead handle) s = .next { s with result := resultOfNode (nodeAt s.node h), err := 0#4 } := by
  rw [exec, execNodeRead, if_neg (by simp [hb]), hh]
  rfl

theorem exec_statRead_unbuilt {s : State} (hb : s.built = false) (sym : Imm16) :
    exec (.statRead sym) s = .next { s with err := 1#4 } := by
  rw [exec, execStatRead, if_pos (by simp [hb])]
  rfl

theorem exec_statRead_none {s : State} {sym : Imm16} (hb : s.built = true) (hsym : symbolOf sym = none) :
    exec (.statRead sym) s = .next { s with err := 3#4 } := by
  rw [exec, execStatRead, if_neg (by simp [hb]), hsym]
  rfl

theorem exec_statRead_some {s : State} {sym : Imm16} {y : Symbol} (hb : s.built = true) (hsym : symbolOf sym = some y) :
    exec (.statRead sym) s = .next
      { s with result := resultOfStat (s.ctAt y) (s.freqAt y), code := (s.ctAt y).bits, err := 0#4 } := by
  rw [exec, execStatRead, if_neg (by simp [hb]), hsym]
  rfl

theorem exec_encode_hasCode {s : State} {sym : Imm16} {y : Symbol} (hb : s.built = true) (hsym : symbolOf sym = some y)
    (hcode : s.hasCode y = true) : exec (.encode sym) s = .next (s.emit (s.codeOf y)) := by
  rw [exec, execEncode, if_neg (by simp [hb]), hsym]
  exact congrArg _ (if_pos hcode)

/-- An operand that names a symbol is in the alphabet (R85). -/
theorem symbolOf_of_names {sym : Imm16} {y : Symbol} (h : Names sym y) : symbolOf sym = some y := by
  unfold Names at h
  have hy : sym.setWidth 8 = y := by
    apply BitVec.eq_of_toNat_eq
    rw [BitVec.toNat_setWidth, h]
    exact Nat.mod_eq_of_lt y.isLt
  have hlt : sym.toNat < alphabet := h ▸ y.isLt
  rw [symbolOf, if_pos hlt, hy]

/-! ### O50: repeating a read -/

/-- A read-only command writes RESULT, CODE and ERR alone (R69). -/
theorem exec_readOnly_frame {i : Instr} {s t : State} (hi : isReadOnly i = true) (h : exec i s = .next t) :
    t = { s with result := t.result, code := t.code, err := t.err } := by
  cases exec_effect i s t h with
  | fails | succeeds | reads | readsStat => rfl
  | clears | marks | stores | builds | emits | inserts | removes | empties => simp [isReadOnly] at hi

/-- What a command answers is what it answers again, when it does so at its own answer. -/
theorem exec_repeat {i : Instr} {s t u : State} (h : exec i s = .next t) (first : exec i s = .next u)
    (again : exec i u = .next u) : exec i t = .next t := by
  cases first.symm.trans h
  exact again

theorem exec_freqRead_repeat {sym : Imm16} {s t : State} (h : exec (.freqRead sym) s = .next t) :
    exec (.freqRead sym) t = .next t := by
  cases hsym : symbolOf sym with
  | none => exact exec_repeat h (exec_freqRead_none hsym _) (exec_freqRead_none hsym _)
  | some y => exact exec_repeat h (exec_freqRead_some hsym _) (exec_freqRead_some hsym _)

theorem exec_nodeRead_repeat {handle : Imm16} {s t : State} (h : exec (.nodeRead handle) s = .next t) :
    exec (.nodeRead handle) t = .next t := by
  obtain hb | hb := s.built.eq_false_or_eq_true
  · cases hh : handleOf s handle with
    | none => exact exec_repeat h (exec_nodeRead_none hb hh) (exec_nodeRead_none hb hh)
    | some k => exact exec_repeat h (exec_nodeRead_some hb hh) (exec_nodeRead_some hb hh)
  · exact exec_repeat h (exec_nodeRead_unbuilt hb _) (exec_nodeRead_unbuilt hb _)

theorem exec_statRead_repeat {sym : Imm16} {s t : State} (h : exec (.statRead sym) s = .next t) :
    exec (.statRead sym) t = .next t := by
  obtain hb | hb := s.built.eq_false_or_eq_true
  · cases hsym : symbolOf sym with
    | none => exact exec_repeat h (exec_statRead_none hb hsym) (exec_statRead_none hb hsym)
    | some y => exact exec_repeat h (exec_statRead_some hb hsym) (exec_statRead_some hb hsym)
  · exact exec_repeat h (exec_statRead_unbuilt hb _) (exec_statRead_unbuilt hb _)

/-- Settles O50: the first run leaves every check, and every value that the command shows, as it found them. -/
theorem readOnlyCommandsRepeat : Obligations.ReadOnlyCommandsRepeat := by
  intro i s t hi h
  refine ⟨?_, exec_readOnly_frame hi h⟩
  cases i with
  | nop | pqSize => cases h; rfl
  | freqRead => exact exec_freqRead_repeat h
  | nodeRead => exact exec_nodeRead_repeat h
  | statRead => exact exec_statRead_repeat h
  | freqClear | freqWrite | build | encode | pqInsert | pqRemoveMin | pqClear => simp [isReadOnly] at hi

/-! ### O37: ENCODE behind a sink that withholds acceptance -/

/-- Settles O37. -/
theorem encodeStaysBusyWhenSinkWithholds : Obligations.EncodeStaysBusyWhenSinkWithholds := by
  intro sym y m s hname hb hcode hsink hm
  rw [exec_encode_hasCode hb (symbolOf_of_names hname) hcode, State.emit_of_withholds hsink hm]

end Sys2Proof.Machine
end

section
/-! PROOFS. Decoding and encoding are inverse (spec/30_encoding.md R80 to R92): a word is the concatenation of the fields
of any format, a legal word is one whose OP is assigned and whose reserved field is 0, and its command has its fields. -/

namespace Sys2Proof

/-! ### A word and its fields -/

/-- V as a field of one bit (R84). -/
theorem extractLsb'_present (w : Word) : w.extractLsb' 55 1 = BitVec.ofBool (presentField w) := by
  ext k hk
  obtain rfl : k = 0 := by omega
  simp [presentField]

/-- Format N covers the word (R81). -/
theorem fieldsN (w : Word) : opField w ++ w.extractLsb' 0 56 = w :=
  BitVec.extractLsb'_append_extractLsb'

/-- Format S covers the word (R82). -/
theorem fieldsS (w : Word) : opField w ++ immField w ++ w.extractLsb' 0 40 = w := by
  rw [opField, immField, BitVec.extractLsb'_append_extractLsb'_eq_extractLsb' (by rfl)]
  exact BitVec.extractLsb'_append_extractLsb'

/-- Format F covers the word (R83). -/
theorem fieldsF (w : Word) : opField w ++ immField w ++ w.extractLsb' 32 8 ++ countField w = w := by
  rw [opField, immField, BitVec.extractLsb'_append_extractLsb'_eq_extractLsb' (by rfl),
    BitVec.extractLsb'_append_extractLsb'_eq_extractLsb' (by rfl)]
  exact BitVec.extractLsb'_append_extractLsb'

/-- Format Q covers the word (R84). -/
theorem fieldsQ (w : Word) : opField w ++ BitVec.ofBool (presentField w) ++ payloadField w ++ priorityField w = w := by
  rw [← extractLsb'_present, opField, payloadField, BitVec.extractLsb'_append_extractLsb'_eq_extractLsb' (by rfl),
    BitVec.extractLsb'_append_extractLsb'_eq_extractLsb' (by rfl)]
  exact BitVec.extractLsb'_append_extractLsb'

/-! ### Legal words -/

/-- The word is one of the opcode's: it has its OP, and the reserved field of its format is 0 (R92). -/
def LegalFor (o : Op) (w : Word) : Prop := opField w = o.code ∧ reservedZero o.format w = true

/-- The decoder on a word whose OP is assigned. -/
theorem decode_of_opField {o : Op} {w : Word} (h : opField w = o.code) :
    decode w = if reservedZero o.format w then .command (instrOf o w) else .illegal .reservedNonzero := by
  rw [decode, h, opOfCode_code]

theorem decode_of_legal {o : Op} {w : Word} (h : LegalFor o w) : decode w = .command (instrOf o w) := by
  rw [decode_of_opField h.1, if_pos h.2]

/-- All that the decoder can do. -/
theorem decode_cases (w : Word) :
    (opOfCode (opField w) = none ∧ decode w = .illegal .unassignedOpcode) ∨
      ∃ o, opField w = o.code ∧
        (reservedZero o.format w = false ∧ decode w = .illegal .reservedNonzero ∨
          reservedZero o.format w = true ∧ decode w = .command (instrOf o w)) := by
  cases hop : opOfCode (opField w) with
  | none => exact .inl ⟨rfl, by rw [decode, hop]⟩
  | some o =>
    have hcode := opOfCode_eq_some _ _ hop
    refine .inr ⟨o, hcode, ?_⟩
    cases hres : reservedZero o.format w with
    | false => exact .inl ⟨rfl, by rw [decode_of_opField hcode, hres, if_neg (by decide)]⟩
    | true => exact .inr ⟨rfl, decode_of_legal ⟨hcode, hres⟩⟩

theorem decode_eq_command_iff (w : Word) (i : Instr) :
    decode w = .command i ↔ ∃ o, LegalFor o w ∧ instrOf o w = i := by
  constructor
  · intro h
    obtain ⟨-, hw⟩ | ⟨o, hcode, ⟨-, hw⟩ | ⟨hres, hw⟩⟩ := decode_cases w
    · simp [hw] at h
    · simp [hw] at h
    · exact ⟨o, ⟨hcode, hres⟩, by simpa [hw] using h⟩
  · rintro ⟨o, h, rfl⟩
    exact decode_of_legal h

/-! ### O1: from a command to its word and back -/

@[simp] theorem opField_encode (i : Instr) : opField (encode i) = i.op.code := by
  cases i with
  | nop | freqClear | build | pqRemoveMin | pqSize | pqClear => exact opField_packN _
  | freqRead | nodeRead | encode | statRead => exact opField_packS _ _
  | freqWrite => exact opField_packF _ _ _
  | pqInsert => exact opField_packQ _ _ _ _

@[simp] theorem reservedZero_encode (i : Instr) : reservedZero i.op.format (encode i) = true := by
  cases i with
  | nop | freqClear | build | pqRemoveMin | pqSize | pqClear => exact reservedZero_packN _
  | freqRead | nodeRead | encode | statRead => exact reservedZero_packS _ _
  | freqWrite => exact reservedZero_packF _ _ _
  | pqInsert => rfl

theorem legalFor_encode (i : Instr) : LegalFor i.op (encode i) := ⟨opField_encode i, reservedZero_encode i⟩

/-- The word of a command holds its operands; of a missing element's payload the decoder sees nothing (R84). -/
theorem instrOf_encode {i : Instr} (hi : i.wf = true) : instrOf i.op (encode i) = i := by
  cases i with
  | nop | freqClear | build | pqRemoveMin | pqSize | pqClear => rfl
  | freqRead | nodeRead | encode | statRead => simp [Instr.op, encode, instrOf]
  | freqWrite => simp [Instr.op, encode, instrOf]
  | pqInsert present pay prio =>
    cases present with
    | true => simp [Instr.op, encode, instrOf]
    | false =>
      obtain rfl : pay = 0#15 := by simpa [Instr.wf] using hi
      simp [Instr.op, encode, instrOf]

theorem decode_encode {i : Instr} (hi : i.wf = true) : decode (encode i) = .command i := by
  rw [decode_of_legal (legalFor_encode i), instrOf_encode hi]

/-- Settles O1. -/
theorem encodedCommandDecodesBack : Obligations.EncodedCommandDecodesBack := fun _ hi => decode_encode hi

/-! ### O2: from a word to its command and back -/

@[simp] theorem op_instrOf (o : Op) (w : Word) : (instrOf o w).op = o := by cases o <;> rfl

theorem wf_instrOf (o : Op) (w : Word) : (instrOf o w).wf = true := by
  cases o with
  | pqInsert =>
    cases hv : presentField w with
    | true | false => simp [instrOf, Instr.wf, hv]
  | _ => rfl

theorem packN_of_legal {o : Op} {w : Word} (hop : opField w = o.code) (hres : reservedZero .N w = true) :
    packN o = w := by
  rw [reservedZero, beq_iff_eq] at hres
  rw [packN, ← hop, ← hres, fieldsN]

theorem packS_of_legal {o : Op} {w : Word} (hop : opField w = o.code) (hres : reservedZero .S w = true) :
    packS o (immField w) = w := by
  rw [reservedZero, beq_iff_eq] at hres
  rw [packS, ← hop, ← hres, fieldsS]

theorem packF_of_legal {o : Op} {w : Word} (hop : opField w = o.code) (hres : reservedZero .F w = true) :
    packF o (immField w) (countField w) = w := by
  rw [reservedZero, beq_iff_eq] at hres
  rw [packF, ← hop, ← hres, fieldsF]

theorem packQ_of_legal {o : Op} {w : Word} (hop : opField w = o.code) :
    packQ o (presentField w) (payloadField w) (priorityField w) = w := by
  rw [packQ, ← hop, fieldsQ]

/-- A legal word is the word of its command, unless the command is the insertion of a missing element. -/
theorem encode_instrOf {o : Op} {w : Word} (h : LegalFor o w) (hv : o = .pqInsert → presentField w = true) :
    encode (instrOf o w) = w := by
  obtain ⟨hop, hres⟩ := h
  cases o with
  | nop | freqClear | build | pqRemoveMin | pqSize | pqClear => exact packN_of_legal hop hres
  | freqRead | nodeRead | encode | statRead => exact packS_of_legal hop hres
  | freqWrite => exact packF_of_legal hop hres
  | pqInsert =>
    rw [instrOf, if_pos (hv rfl)]
    exact packQ_of_legal hop

theorem instrOf_missing {w : Word} (hv : presentField w = false) :
    instrOf .pqInsert w = .pqInsert false 0#15 (w.extractLsb' 0 40) := by
  rw [instrOf, hv]
  rfl

/-- OP and V of a missing element's word. -/
theorem extractLsb'_missing {w : Word} (hop : opField w = Op.code .pqInsert) (hv : presentField w = false) :
    w.extractLsb' 55 9 = 0b001100000#9 := by
  have happend : opField w ++ w.extractLsb' 55 1 = w.extractLsb' 55 9 :=
    BitVec.extractLsb'_append_extractLsb'_eq_extractLsb' rfl
  rw [← happend, extractLsb'_present, hop, hv]
  rfl

theorem decode_missing (pay : Payload) (prio : Weight) :
    decode (packQ .pqInsert false pay prio) = .command (.pqInsert false 0#15 prio) := by
  have h : LegalFor .pqInsert (packQ .pqInsert false pay prio) := legalFor_encode (.pqInsert false pay prio)
  rw [decode_of_legal h, instrOf, presentField_packQ, priorityField_packQ]
  rfl

/-- Settles O2: the one command that drops bits of its word is the insertion of a missing element. -/
theorem decodedCommandEncodesBack : Obligations.DecodedCommandEncodesBack := by
  refine ⟨fun w i h => ?_, decode_missing⟩
  obtain ⟨o, hlegal, rfl⟩ := (decode_eq_command_iff w i).1 h
  refine ⟨wf_instrOf o w, ?_⟩
  by_cases hmissing : o = .pqInsert ∧ presentField w = false
  · obtain ⟨rfl, hv⟩ := hmissing
    exact .inr ⟨extractLsb'_missing hlegal.1 hv, instrOf_missing hv⟩
  · exact .inl (encode_instrOf hlegal fun ho => by simpa [ho] using hmissing)

/-! ### O4: the match and mask of a row

A mask covers OP and the reserved field of the row's format, so that masking a word keeps whether it is legal. -/

theorem opField_and_mask (o : Op) (w : Word) : opField (w &&& o.mask) = opField w := by
  have hmask : o.mask.extractLsb' 56 8 = BitVec.allOnes 8 := by cases o <;> rfl
  rw [opField, BitVec.extractLsb'_and, hmask, BitVec.and_allOnes, opField]

theorem reservedZero_and_mask (o : Op) (w : Word) : reservedZero o.format (w &&& o.mask) = reservedZero o.format w := by
  cases o with
  | nop | freqClear | build | pqRemoveMin | pqSize | pqClear =>
    exact congrArg (reservedZero .N) (BitVec.and_allOnes (x := w))
  | freqRead | nodeRead | encode | statRead =>
    rw [Op.format, reservedZero, reservedZero, BitVec.extractLsb'_and]
    exact congrArg (· == 0#40) (BitVec.and_allOnes (x := w.extractLsb' 0 40))
  | freqWrite =>
    rw [Op.format, reservedZero, reservedZero, BitVec.extractLsb'_and]
    exact congrArg (· == 0#8) (BitVec.and_allOnes (x := w.extractLsb' 32 8))
  | pqInsert => rfl

theorem legalFor_and_mask (o : Op) (w : Word) : LegalFor o (w &&& o.mask) ↔ LegalFor o w := by
  rw [LegalFor, opField_and_mask, reservedZero_and_mask, LegalFor]

theorem legalFor_pattern (o : Op) : LegalFor o o.pattern := by
  unfold LegalFor
  cases o <;> decide

/-- The word of every command lies in its row. -/
theorem encode_and_mask (i : Instr) : encode i &&& i.op.mask = i.op.pattern := by
  cases i with
  | nop => exact Laws.TableRow.nop
  | freqClear => exact Laws.TableRow.freqClear
  | freqWrite sym count => exact Laws.TableRow.freqWrite sym count
  | freqRead sym => exact Laws.TableRow.freqRead sym
  | build => exact Laws.TableRow.build
  | nodeRead handle => exact Laws.TableRow.nodeRead handle
  | encode sym => exact Laws.TableRow.encode sym
  | statRead sym => exact Laws.TableRow.statRead sym
  | pqInsert present pay prio => exact Laws.TableRow.pqInsert present pay prio
  | pqRemoveMin => exact Laws.TableRow.pqRemoveMin
  | pqSize => exact Laws.TableRow.pqSize
  | pqClear => exact Laws.TableRow.pqClear

/-- A legal word is the word of some term of its opcode; for a missing element that term keeps the payload. -/
theorem exists_encode_eq {o : Op} {w : Word} (h : LegalFor o w) : ∃ i : Instr, i.op = o ∧ encode i = w := by
  by_cases ho : o = .pqInsert
  · subst ho
    exact ⟨.pqInsert (presentField w) (payloadField w) (priorityField w), rfl, packQ_of_legal h.1⟩
  · exact ⟨instrOf o w, op_instrOf o w, encode_instrOf h fun h' => absurd h' ho⟩

theorem and_mask_eq_pattern_iff (o : Op) (w : Word) : w &&& o.mask = o.pattern ↔ LegalFor o w := by
  constructor
  · intro h
    rw [← legalFor_and_mask, h]
    exact legalFor_pattern o
  · intro h
    obtain ⟨i, rfl, rfl⟩ := exists_encode_eq h
    exact encode_and_mask i

theorem exists_decode_op_iff (o : Op) (w : Word) : (∃ i, decode w = .command i ∧ i.op = o) ↔ LegalFor o w := by
  constructor
  · rintro ⟨i, h, rfl⟩
    obtain ⟨o, hlegal, rfl⟩ := (decode_eq_command_iff w i).1 h
    rwa [op_instrOf]
  · intro h
    exact ⟨instrOf o w, decode_of_legal h, op_instrOf o w⟩

/-- Settles O4. -/
theorem decodingFollowsTableMasks : Obligations.DecodingFollowsTableMasks := fun w o =>
  (exists_decode_op_iff o w).trans (and_mask_eq_pattern_iff o w).symm

/-! ### O5: sample words -/

/-- Settles O5, by running the decoder on each word. -/
theorem sampleWordsDecode : Obligations.SampleWordsDecode := by
  unfold Obligations.SampleWordsDecode
  decide

end Sys2Proof
end

section
/-! PROOFS. The illegal words of R87, and the commands that the assembler makes (spec/30_encoding.md R87, R89). -/

namespace Sys2Proof.Machine

open Sys2Proof

/-! ### O3: illegal words -/

/-- The unassigned values of OP (R87 (a)). -/
theorem opOfCode_eq_none_iff (b : BitVec 8) :
    opOfCode b = none ↔ (0x04 ≤ b.toNat ∧ b.toNat ≤ 0x0F) ∨ (0x12 ≤ b.toNat ∧ b.toNat ≤ 0x1F) ∨
      (0x22 ≤ b.toNat ∧ b.toNat ≤ 0x2F) ∨ 0x34 ≤ b.toNat := by
  unfold opOfCode
  split
  case h_13 =>
    simp only [imp_false, true_iff] at *
    omega
  all_goals exact iff_of_false (by simp) (by omega)

theorem illegalWord_of_unassigned {w : Word} (h : opOfCode (opField w) = none) : IllegalWord w := by
  obtain h | h | h | h := (opOfCode_eq_none_iff _).1 h
  · exact .inl h
  · exact .inr (.inl h)
  · exact .inr (.inr (.inl h))
  · exact .inr (.inr (.inr (.inl h)))

/-- With an assigned OP the reserved field of its format alone makes a word illegal (R87 (b)). -/
theorem illegalWord_iff_of_opField {o : Op} {w : Word} (h : opField w = o.code) :
    IllegalWord w ↔ reservedZero o.format w = false := by
  unfold IllegalWord
  rw [← opField, h]
  cases o <;> simp [Op.code, Op.format, reservedZero]

theorem step_of_illegal {s : State} {w : Word} {rest : List HostAct} {why : Illegal} (hready : s.cmdReady = true)
    (hhost : s.host = .offer w :: rest) (hw : decode w = .illegal why) :
    step s = .next { s with host := rest, err := 5#4 } := by
  rw [step_of_offer (nextAct_of_ready hready hhost), runWord, hw]
  rfl

/-- Settles O3, along the three answers of the decoder. -/
theorem illegalWordSetsErrOnly : Obligations.IllegalWordSetsErrOnly := by
  intro s w rest hready hhost
  obtain ⟨hop, hw⟩ | ⟨o, hop, ⟨hres, hw⟩ | ⟨hres, hw⟩⟩ := decode_cases w
  · exact ⟨fun _ => step_of_illegal hready hhost hw, fun h => absurd (illegalWord_of_unassigned hop) h⟩
  · exact ⟨fun _ => step_of_illegal hready hhost hw, fun h => absurd ((illegalWord_iff_of_opField hop).2 hres) h⟩
  · refine ⟨fun h => ?_, fun _ => ⟨_, hw, stepRunsAcceptedCommand s w rest _ hready hhost hw⟩⟩
    simp [(illegalWord_iff_of_opField hop).1 h] at hres

/-! ### O6: the assembler -/

/-- Settles O6: each operand form makes its mnemonic's command, and the form with `nil` one without a payload. -/
theorem assembledCommandIsWellFormed : Obligations.AssembledCommandIsWellFormed := by
  intro o xs i h
  unfold commandOf at h
  split at h
  all_goals simp only [Option.bind_eq_bind, Option.bind_eq_some_iff, Option.some.injEq, reduceCtorEq] at h
  case h_1 | h_2 | h_5 | h_11 | h_12 | h_13 => subst h; exact ⟨rfl, rfl⟩
  case h_4 | h_6 | h_7 | h_8 | h_10 => obtain ⟨_, -, rfl⟩ := h; exact ⟨rfl, rfl⟩
  case h_3 | h_9 => obtain ⟨_, -, _, -, rfl⟩ := h; exact ⟨rfl, rfl⟩

end Sys2Proof.Machine
end

section
/-! PROOFS. Running LOAD_TABLE (spec/30_encoding.md R90, spec/41_huffman_tree_builder.md R140, R141): one step per word
that the host offers, and the table that FREQ_WRITEs leave one after the other. -/

namespace Sys2Proof.Machine

open Sys2Proof

/-! ### Running offered commands -/

theorem run_succ_of_step (M : Host.Core) {s t : M.State} (h : M.step s = .next t) (k : Nat) :
    M.run (k + 1) s = M.run k t := by
  rw [Host.Core.run, h]

/-- A ready block runs the command whose word is offered, and then goes on from what it answers (R64, R67). -/
theorem core_run_offered {s t : State} {i : Instr} {rest : List HostAct} (hi : i.wf = true) (hready : s.cmdReady = true)
    (hhost : s.host = .offer (encode i) :: rest) (h : exec i { s with host := rest } = .next t) (k : Nat) :
    Host.Core.run core (k + 1) s = Host.Core.run core k t :=
  run_succ_of_step core ((stepRunsAcceptedCommand s _ rest i hready hhost (decode_encode hi)).trans h) k

/-! ### One FREQ_WRITE -/

/-- What FREQ_WRITE of the entry `s:c` leaves while BUILT = 0 (R141). -/
def State.writeEntry (s : State) (e : Imm16 × Count) : State :=
  match symbolOf e.1 with
  | none => s.markViolation.markTable.done
  | some y => (s.setFreq y e.2).markTable.done

theorem exec_freqWrite_unbuilt {s : State} (hb : s.built = false) (e : Imm16 × Count) :
    exec (.freqWrite e.1 e.2) s = .next (s.writeEntry e) := by
  rw [exec, execFreqWrite, if_neg (by simp [hb])]
  rfl

/-- The frame of FREQ_WRITE (R141). -/
theorem State.writeEntry_frame (s : State) (e : Imm16 × Count) :
    s.writeEntry e = { s with freq := (s.writeEntry e).freq, ftv := true, av := (s.writeEntry e).av, err := 0#4 } := by
  unfold State.writeEntry
  cases symbolOf e.1 <;> rfl

theorem symbolOf_eq_some_iff (sym : Imm16) (y : Symbol) : symbolOf sym = some y ↔ Names sym y := by
  refine ⟨fun h => ?_, symbolOf_of_names⟩
  unfold symbolOf at h
  split at h
  · next hlt =>
    cases h
    rw [Names, BitVec.toNat_setWidth, Nat.mod_eq_of_lt hlt]
  · cases h

theorem State.freqAt_setFreq (s : State) (x y : Symbol) (c : Count) :
    (s.setFreq x c).freqAt y = if x.toNat = y.toNat then c else s.freqAt y :=
  Vector.getElem_set x.isLt y.isLt

theorem State.writeEntry_freqAt (s : State) (e : Imm16 × Count) (y : Symbol) :
    (s.writeEntry e).freqAt y = if e.1.toNat == y.toNat then e.2 else s.freqAt y := by
  unfold State.writeEntry
  cases hsym : symbolOf e.1 with
  | none =>
    have hlarge := (symbolOf_eq_none_iff _).1 hsym
    have hne : (e.1.toNat == y.toNat) = false := by
      rw [beq_eq_false_iff_ne]
      omega
    rw [hne]
    rfl
  | some x =>
    have hname : e.1.toNat = x.toNat := (symbolOf_eq_some_iff _ _).1 hsym
    simp only [hname, beq_iff_eq]
    exact s.freqAt_setFreq x y e.2

theorem State.writeEntry_av (s : State) (e : Imm16 × Count) :
    (s.writeEntry e).av = true ↔ s.av = true ∨ 256 ≤ e.1.toNat := by
  rw [← symbolOf_eq_none_iff]
  unfold State.writeEntry
  cases symbolOf e.1 <;> simp

@[simp] theorem State.writeEntry_built (s : State) (e : Imm16 × Count) : (s.writeEntry e).built = s.built := by
  rw [State.writeEntry_frame]

@[simp] theorem State.writeEntry_host (s : State) (e : Imm16 × Count) : (s.writeEntry e).host = s.host := by
  rw [State.writeEntry_frame]

@[simp] theorem State.writeEntry_cmdReady (s : State) (e : Imm16 × Count) : (s.writeEntry e).cmdReady = s.cmdReady := by
  rw [State.writeEntry_frame]
  rfl

theorem State.writeEntry_withHost (s : State) (e : Imm16 × Count) (acts : List HostAct) :
    ({ s with host := acts } : State).writeEntry e = { s.writeEntry e with host := acts } := by
  unfold State.writeEntry
  cases symbolOf e.1 <;> rfl

/-! ### One FREQ_WRITE after the other -/

/-- The words of FREQ_WRITEs. -/
def writeWords (entries : List (Imm16 × Count)) : List Word := entries.map fun e => encode (.freqWrite e.1 e.2)

theorem loadTable_words (entries : List (Imm16 × Count)) :
    (AsmLine.loadTable entries).words = encode .freqClear :: writeWords entries := by
  simp [AsmLine.words, loadTableCommands, writeWords, Function.comp_def]

/-- The block runs FREQ_WRITEs that are offered one after the other. -/
theorem core_run_writes (entries : List (Imm16 × Count)) (rest : List HostAct) (s : State) (hready : s.cmdReady = true)
    (hb : s.built = false) (hhost : s.host = offers (writeWords entries) ++ rest) :
    Host.Core.run core entries.length s = .next (entries.foldl State.writeEntry { s with host := rest }) := by
  induction entries generalizing s with
  | nil =>
    have hs : s = { s with host := rest } := by rw [show rest = s.host from hhost.symm]
    exact congrArg _ hs
  | cons e entries ih =>
    let offered : State := { s with host := offers (writeWords entries) ++ rest }
    have hexec := exec_freqWrite_unbuilt (s := offered) hb e
    have hfirst := core_run_offered (i := .freqWrite e.1 e.2) rfl hready hhost hexec
    have hrest := ih (offered.writeEntry e) ((offered.writeEntry_cmdReady e).trans hready)
      ((offered.writeEntry_built e).trans hb) (offered.writeEntry_host e)
    rw [← State.writeEntry_withHost] at hrest
    exact (hfirst entries.length).trans hrest

/-- The last entry of a symbol counts (R90, R141). -/
theorem foldl_writeEntry_freqAt (entries : List (Imm16 × Count)) (s : State) (y : Symbol) :
    (entries.foldl State.writeEntry s).freqAt y =
      ((entries.reverse.find? fun e => e.1.toNat == y.toNat).map (·.2)).getD (s.freqAt y) := by
  induction entries using List.reverseRecOn with
  | nil => rfl
  | append_singleton entries e ih =>
    rw [List.foldl_append, List.foldl_cons, List.foldl_nil, State.writeEntry_freqAt, ih, List.reverse_append,
      List.reverse_singleton, List.singleton_append, List.find?_cons]
    cases e.1.toNat == y.toNat <;> rfl

theorem foldl_writeEntry_av (entries : List (Imm16 × Count)) (s : State) :
    (entries.foldl State.writeEntry s).av = true ↔ s.av = true ∨ ∃ e, e ∈ entries ∧ 256 ≤ e.1.toNat := by
  induction entries generalizing s with
  | nil => simp
  | cons e entries ih =>
    rw [List.foldl_cons, ih, State.writeEntry_av, or_assoc]
    simp

/-- The frame of FREQ_WRITEs over a table that exists, with ERR = 0 before them. -/
theorem foldl_writeEntry_frame (entries : List (Imm16 × Count)) (s : State) (hf : s.ftv = true) (he : s.err = 0#4) :
    entries.foldl State.writeEntry s =
      { s with freq := (entries.foldl State.writeEntry s).freq, av := (entries.foldl State.writeEntry s).av } := by
  induction entries using List.reverseRecOn with
  | nil => rfl
  | append_singleton entries e ih =>
    rw [List.foldl_append, List.foldl_cons, List.foldl_nil]
    generalize entries.foldl State.writeEntry s = t at ih
    rw [State.writeEntry_frame, ih, ← hf, ← he]

/-! ### O22 -/

/-- Settles O22: FREQ_CLEAR leaves the all-zero table, and the FREQ_WRITEs fill it. -/
theorem loadTableLoadsCounts : Obligations.LoadTableLoadsCounts := by
  intro s entries rest hready hhost
  rw [loadTable_words] at hhost
  let cleared : State := ({ s with host := rest } : State).clearTable.done
  have hrun : Host.Core.run core (entries.length + 1) s = .next (entries.foldl State.writeEntry cleared) :=
    (core_run_offered (i := .freqClear) rfl hready hhost rfl entries.length).trans
      (core_run_writes entries rest ({ s with host := offers (writeWords entries) ++ rest } : State).clearTable.done
        hready rfl rfl)
  have hfreq (y : Symbol) := foldl_writeEntry_freqAt entries cleared y
  have hzero (y : Symbol) : cleared.freqAt y = 0#32 := Vector.getElem_replicate _
  have hav := foldl_writeEntry_av entries cleared
  simp only [hzero] at hfreq
  refine ⟨_, hrun, hfreq, ?_, foldl_writeEntry_frame entries cleared rfl rfl⟩
  exact hav.trans (or_iff_right (by simp [cleared]))

end Sys2Proof.Machine
end

section
/-! PROOFS. The priority queue commands (spec/40_priority_queue_heap.md R102 to R111): what each completes with, the
slots that the sifts move (R104, R105, D6), and the capacity that BUILD leaves (R102, R143 to R146). -/

namespace Sys2Proof.Machine

open Sys2Proof

/-! ### What the queue commands answer -/

theorem exec_pqInsert_missing (pay : Payload) (prio : Weight) (s : State) :
    exec (.pqInsert false pay prio) s = .next (s.raise .invalidArgument) := rfl

theorem exec_pqInsert_some {pay : Payload} {prio : Weight} {s : State} {q : Queue}
    (h : s.queue.insert s.params { prio := prio, pay := pay } = some q) :
    exec (.pqInsert true pay prio) s = .next (s.setQueue q).done := by
  rw [exec, execPqInsert, if_pos rfl, h]

theorem exec_pqInsert_none {pay : Payload} {prio : Weight} {s : State}
    (h : s.queue.insert s.params { prio := prio, pay := pay } = none) :
    exec (.pqInsert true pay prio) s = .next (s.raise .capacityExhausted) := by
  rw [exec, execPqInsert, if_pos rfl, h]

theorem exec_pqRemoveMin_some {s : State} {e : HeapEntry} {q : Queue} (h : s.queue.removeMin = some (e, q)) :
    exec .pqRemoveMin s = .next ((s.setQueue q).setResult (resultOfElement e)).done := by
  rw [exec, execPqRemoveMin, h]

theorem exec_pqRemoveMin_none {s : State} (h : s.queue.removeMin = none) :
    exec .pqRemoveMin s = .next (s.setResult resultOfEmpty).done := by
  rw [exec, execPqRemoveMin, h]

theorem Queue.insert_full {p : Params} {q : Queue} (hfull : q.hsize = q.hcap) (hmax : q.hcap.toNat = p.heapMax)
    (e : HeapEntry) : q.insert p e = none := by
  rw [Queue.insert, if_pos hfull, if_pos hmax]

/-! ### RESULT of a removal (R91, R108) -/

theorem resultOfElement_prio (e : HeapEntry) : (resultOfElement e).extractLsb' 0 40 = e.prio :=
  BitVec.extractLsb'_append_eq_right

theorem resultOfElement_pay (e : HeapEntry) : (resultOfElement e).extractLsb' 40 15 = e.pay := by
  rw [resultOfElement, BitVec.extractLsb'_append_eq_of_le (by decide)]
  exact BitVec.extractLsb'_append_eq_right

theorem resultOfElement_high (e : HeapEntry) : (resultOfElement e).extractLsb' 55 9 = 0#9 := by
  rw [resultOfElement, BitVec.extractLsb'_append_eq_of_le (by decide), BitVec.extractLsb'_append_eq_of_le (by decide)]
  exact BitVec.extractLsb'_eq_self

/-- A real element does not look like the empty signal (R109). -/
theorem resultOfElement_not_empty (e : HeapEntry) : (resultOfElement e).getLsbD 63 = false := by
  simpa using congrArg (BitVec.getLsbD · 8) (resultOfElement_high e)

/-! ### The failures, the empty signal, PQ_SIZE and PQ_CLEAR -/

/-- Settles O41: a missing element is reported first, and a full heap at HEAP_MAX takes no insert. -/
theorem pqInsertFailures : Obligations.PqInsertFailures := fun pay prio s =>
  ⟨exec_pqInsert_missing pay prio s, fun hfull hmax => exec_pqInsert_none (Queue.insert_full hfull hmax _)⟩

/-- A removal fails on an empty queue only. -/
theorem Queue.removeMin_eq_some {q : Queue} (hne : q.hsize ≠ 0#16) : ∃ e q', q.removeMin = some (e, q') := by
  rw [Queue.removeMin, if_neg hne]
  exact ⟨_, _, rfl⟩

/-- Settles O44: RESULT[63] of an element is one of its reserved bits. -/
theorem pqRemoveMinSignalsEmpty : Obligations.PqRemoveMinSignalsEmpty := by
  intro s
  refine ⟨fun hempty => exec_pqRemoveMin_none (Queue.removeMin_empty s.queue hempty), fun hne => ?_⟩
  obtain ⟨e, q, hrem⟩ := Queue.removeMin_eq_some hne
  exact ⟨_, exec_pqRemoveMin_some hrem, resultOfElement_not_empty e, rfl⟩

theorem resultOfSize_toNat (n : BitVec 16) : (resultOfSize n).toNat = n.toNat :=
  BitVec.toNat_setWidth_of_le (by decide)

/-- Settles O45: RESULT is HSIZE widened without loss. -/
theorem pqSizeAndClear : Obligations.PqSizeAndClear := fun s =>
  ⟨⟨(s.setResult (resultOfSize s.queue.hsize)).done, rfl, rfl, resultOfSize_toNat s.queue.hsize⟩, rfl⟩

/-! ### The multiset, the order and the size -/

/-- Settles O42, by what `pq_insert` does to a sound queue. -/
theorem pqInsertAddsElement : Obligations.PqInsertAddsElement := by
  intro pay prio s _ hq hlt
  obtain ⟨q, hins, hspec⟩ := Queue.insert_spec s.queue { prio := prio, pay := pay } hq hlt
  exact ⟨_, exec_pqInsert_some hins, rfl, hspec⟩

/-- Settles O43, by what `pq_remove_min` does to a sound queue and the layout of RESULT. -/
theorem pqRemoveMinReturnsMinimum : Obligations.PqRemoveMinReturnsMinimum := by
  intro s _ hq hne
  obtain ⟨e, q, hrem, hok, hsize, hcap, hperm, hmin, hroot⟩ := Queue.removeMin_spec s.queue hq hne
  exact ⟨_, e, exec_pqRemoveMin_some hrem, rfl, hok, hsize, hcap, hperm, hmin, hroot, resultOfElement_prio e,
    resultOfElement_pay e, resultOfElement_high e⟩

/-! ### The path of an insert (R104) -/

theorem Queue.insert_slots {p : Params} {q q' : Queue} {e : HeapEntry} (h : q.insert p e = some q') :
    q'.slots = siftUp q.hsize.toNat (q.slots.set q.hsize.toNat e) q.hsize.toNat := by
  unfold Queue.insert at h
  split at h
  · split at h <;> cases h
    rfl
  · cases h
    rfl

/-- A path of parents never goes up past its start. -/
theorem parentPath_le {d : Nat} {p : Nat → Nat} (hstep : ∀ j, j < d → 0 < p j ∧ p (j + 1) = parentOf (p j))
    {j : Nat} (hj : j ≤ d) : p j ≤ p 0 := by
  induction j with
  | zero => exact le_refl _
  | succ j ih =>
    obtain ⟨hpos, hnext⟩ := hstep j hj
    exact hnext ▸ (parentOf_lt hpos).le.trans (ih (by omega))

/-- Settles O57: the path of `sift_up` from the appended slot, above which the append changed nothing. -/
theorem pqInsertRisesPastGreaterOnly : Obligations.PqInsertRisesPastGreaterOnly := by
  intro pay prio s _ hq hlt
  obtain ⟨q, hins, -⟩ := Queue.insert_spec s.queue { prio := prio, pay := pay } hq hlt
  have hlen : s.queue.hsize.toNat < s.queue.slots.length := hq.slots_length ▸ hlt
  have hset := fun k => slotAt_set s.queue.slots _ { prio := prio, pay := pay } k hlen
  have hslots := Queue.insert_slots hins
  have hlen' : s.queue.hsize.toNat < (s.queue.slots.set s.queue.hsize.toNat { prio := prio, pay := pay }).length := by
    rwa [List.length_set]
  generalize s.queue.slots.set s.queue.hsize.toNat { prio := prio, pay := pay } = h at hset hslots hlen'
  have hself : slotAt h s.queue.hsize.toNat = { prio := prio, pay := pay } := by rw [hset, if_pos rfl]
  have hother : ∀ k, k ≠ s.queue.hsize.toNat → slotAt h k = slotAt s.queue.slots k := fun k hk => by
    rw [hset, if_neg hk]
  obtain ⟨d, p, hstart, hstep, hstop, hend, helse⟩ := siftUp_path _ h _ hlen' (le_refl _)
  simp only [← hslots, hself] at hstep hstop hend helse
  have hbelow : ∀ j, j ≤ d → 0 < p j → parentOf (p j) < s.queue.hsize.toNat := fun j hj hpos => by
    have hle := parentPath_le (fun j hj => ⟨(hstep j hj).1, (hstep j hj).2.1⟩) hj
    exact hstart ▸ (parentOf_lt hpos).trans_le hle
  refine ⟨_, d, p, exec_pqInsert_some hins, hstart, fun j hj => ?_, ?_, hend, fun k hk => ?_⟩
  · obtain ⟨hpos, hnext, hprio, hmoved⟩ := hstep j hj
    rw [hother _ (hnext ▸ (hbelow j hj.le hpos).ne)] at hprio hmoved
    exact ⟨hpos, hnext, hprio, hmoved⟩
  · rcases Nat.eq_zero_or_pos (p d) with hroot | hpos
    · exact .inl hroot
    · refine hstop.imp_right fun hle => ?_
      rw [hother _ (hbelow d (le_refl d) hpos).ne] at hle
      exact BitVec.not_lt.1 hle
  · exact (helse k hk).trans (hother k (hstart ▸ hk 0 (Nat.zero_le d)))

/-! ### The path of a removal (R105, D6) -/

theorem Queue.removeMin_slots {q q' : Queue} {e : HeapEntry} (h : q.removeMin = some (e, q')) :
    q'.slots = siftDown (q.hsize.toNat - 1) (swapSlots q.slots 0 (q.hsize.toNat - 1)) (q.hsize.toNat - 1) 0 := by
  unfold Queue.removeMin at h
  split at h <;> cases h
  rfl

/-- Which child is the smaller (R105): the left one on a tie (D6). -/
theorem smallerChild_cases {h : List HeapEntry} {n i : Nat} :
    (smallerChild h n i = 2 * i + 1 ∧
        (2 * i + 2 < n → (slotAt h (2 * i + 1)).prio ≤ (slotAt h (2 * i + 2)).prio)) ∨
      (smallerChild h n i = 2 * i + 2 ∧ (slotAt h (2 * i + 2)).prio < (slotAt h (2 * i + 1)).prio) := by
  unfold smallerChild
  split
  · next hright => exact .inr ⟨rfl, hright.2⟩
  · next hleft => exact .inl ⟨rfl, fun hn => BitVec.not_lt.1 fun hlt => hleft ⟨hn, hlt⟩⟩

/-- The smaller child depends on the slots of the children alone. -/
theorem smallerChild_congr {h h' : List HeapEntry} {n i : Nat} (heq : ∀ k, 0 < k → k < n → slotAt h k = slotAt h' k) :
    smallerChild h n i = smallerChild h' n i := by
  unfold smallerChild
  by_cases hright : 2 * i + 2 < n
  · rw [heq _ (by omega) hright, heq (2 * i + 1) (by omega) (by omega)]
  · rw [if_neg fun hc => hright hc.1, if_neg fun hc => hright hc.1]

/-- Settles O58: the path of `sift_down` from the root, once the last element stands there and the removed one at n. -/
theorem pqRemoveMinSinksTowardSmallerChild : Obligations.PqRemoveMinSinksTowardSmallerChild := by
  intro s n _ hq hsize hn
  have hne : s.queue.hsize ≠ 0#16 := fun h0 => by simp [h0] at hsize
  obtain ⟨e, q, hrem⟩ := Queue.removeMin_eq_some hne
  have hlen : n < s.queue.slots.length := by
    have := hq.slots_length
    have := hq.hsize_le
    have := hq.hcap_le
    omega
  have hslots := Queue.removeMin_slots hrem
  rw [hsize, Nat.add_sub_cancel] at hslots
  have hswap := fun k => slotAt_swapSlots s.queue.slots 0 n k (by omega) hlen
  have hroot : slotAt (swapSlots s.queue.slots 0 n) 0 = slotAt s.queue.slots n := by
    rw [hswap, if_neg (by omega), if_pos rfl]
  have hother : ∀ k, 0 < k → k ≠ n → slotAt (swapSlots s.queue.slots 0 n) k = slotAt s.queue.slots k :=
    fun k hpos hk => by rw [hswap, if_neg hk, if_neg hpos.ne']
  have hchild : ∀ i, smallerChild (swapSlots s.queue.slots 0 n) n i = smallerChild s.queue.slots n i :=
    fun i => smallerChild_congr fun k hpos hk => hother k hpos hk.ne
  obtain ⟨d, p, hstart, hstep, hstop, hend, helse⟩ := siftDown_path n (swapSlots s.queue.slots 0 n) n 0
    (by simpa using hlen.le) hn (le_refl _)
  simp only [← hslots, hroot, hchild] at hstep hstop hend helse
  refine ⟨_, d, p, exec_pqRemoveMin_some hrem, hstart, fun j hj => ?_, fun c hc hcn => ?_, hend, ?_,
    fun k hk hpath => ?_⟩
  · obtain ⟨hl, hnext, hlt, hprio, hmoved⟩ := hstep j hj
    have hpos : 0 < p (j + 1) := by
      have := (smallerChild_spec s.queue.slots n (p j) hl).1
      omega
    rw [hother _ hpos hlt.ne] at hprio hmoved
    exact ⟨hlt, hprio, hmoved, hnext ▸ smallerChild_cases⟩
  · have hl : 2 * p d + 1 < n := by omega
    obtain ⟨hmc, hmn, hmin⟩ := smallerChild_spec s.queue.slots n (p d) hl
    have hle := hstop hl
    rw [hother _ (by omega) hmn.ne] at hle
    exact BitVec.le_trans (BitVec.not_lt.1 hle) (hmin c hcn hc)
  · show slotAt q.slots n = _
    rw [hslots, slotAt_siftDown_above _ _ _ _ _ (by simpa using hlen.le) (le_refl n), hswap, if_pos rfl]
  · have hpos : 0 < k := Nat.pos_of_ne_zero fun h0 => hpath 0 (Nat.zero_le d) (h0.trans hstart.symm)
    exact (helse k hpath).trans (hother k hpos hk)

/-! ### The capacity that BUILD leaves (R102) -/

/-- The least doubling of HEAP_INIT_CAP that holds n elements. -/
def IsLeastCapacity (p : Params) (cap n : Nat) : Prop :=
  ∃ j, cap = p.initCap * 2 ^ j ∧ n ≤ p.initCap * 2 ^ j ∧ (j = 0 ∨ p.initCap * 2 ^ (j - 1) < n)

theorem isLeastCapacity_zero (p : Params) : IsLeastCapacity p p.initCap 0 :=
  ⟨0, by simp, Nat.zero_le _, .inl rfl⟩

/-- One more element doubles the least capacity exactly when it is used up (R102). -/
theorem IsLeastCapacity.succ {p : Params} {cap n : Nat} (h : IsLeastCapacity p cap n) :
    IsLeastCapacity p (if n = cap then 2 * cap else cap) (n + 1) := by
  obtain ⟨j, rfl, hle, hleast⟩ := h
  split
  · next hfull =>
    refine ⟨j + 1, by ring, ?_, .inr ?_⟩
    · have : 1 ≤ p.initCap * 2 ^ j := Nat.mul_pos p.initCap_pos (by positivity)
      rw [pow_succ, ← Nat.mul_assoc]
      omega
    · rw [Nat.add_sub_cancel, hfull]
      exact Nat.lt_succ_self _
  · exact ⟨j, rfl, by omega, hleast.imp_right (by omega)⟩

/-- An insert of the builder doubles HCAP exactly when the queue is full (R102). -/
theorem Builder.add_hcap {p : Params} {b : Builder} (hq : b.queue.Ok p) (hlt : b.queue.hsize.toNat < p.heapMax)
    (w : Weight) (e : NodeEntry) :
    (b.add p w e).queue.hcap.toNat =
      if b.queue.hsize.toNat = b.queue.hcap.toNat then 2 * b.queue.hcap.toNat else b.queue.hcap.toNat := by
  obtain ⟨q, hins, -, -, -, hcap⟩ := Queue.insert_spec b.queue { prio := w, pay := payOfHandle b.k } hq hlt
  have hqueue : (b.add p w e).queue = q := by simp [Builder.add, hins]
  simp only [hqueue, hcap, ← BitVec.toNat_inj]

theorem Builder.addLeaf_absent {p : Params} {freq : Vector Count 256} {y : Symbol} (hy : freqOf freq y = 0#32)
    (b : Builder) : b.addLeaf p freq y = b := if_pos hy

theorem Builder.addLeaf_present {p : Params} {freq : Vector Count 256} {y : Symbol} (hy : freqOf freq y ≠ 0#32)
    (b : Builder) : b.addLeaf p freq y =
      b.add p (weightOfCount (freqOf freq y)) (.leaf (weightOfCount (freqOf freq y)) y) := if_neg hy

/-- Phase 1 leaves the least capacity for its leaves (R144), by induction on the symbols gone through. -/
theorem foldl_addLeaf_hcap {p : Params} (hp : p.wf = true) (freq : Vector Count 256) {b : Builder} (h : b.Holds p [])
    (hk : b.k = 0) (hcap : b.queue.hcap.toNat = p.initCap) (ys : List Symbol)
    (hle : (ys.filter fun y => freqOf freq y != 0#32).length ≤ 256) :
    IsLeastCapacity p (ys.foldl (Builder.addLeaf p freq) b).queue.hcap.toNat
      (ys.filter fun y => freqOf freq y != 0#32).length := by
  induction ys using List.reverseRecOn with
  | nil => exact hcap ▸ isLeastCapacity_zero p
  | append_singleton ys y ih =>
    rw [List.foldl_concat]
    by_cases hy : freqOf freq y = 0#32
    · have hfilter : ((ys ++ [y]).filter fun y => freqOf freq y != 0#32) =
          ys.filter fun y => freqOf freq y != 0#32 := by simp [hy]
      rw [hfilter] at hle ⊢
      rw [Builder.addLeaf_absent hy]
      exact ih hle
    · have hfilter : ((ys ++ [y]).filter fun y => freqOf freq y != 0#32).length =
          (ys.filter fun y => freqOf freq y != 0#32).length + 1 := by simp [hy]
      rw [hfilter] at hle ⊢
      have hmax := Params.heapMax_ge hp
      obtain ⟨hs, hold, hcount, hlen, -⟩ := foldl_addLeaf_spec hp freq ys b [] h hk.symm (by omega)
      rw [Builder.addLeaf_present hy, Builder.add_hcap hold.queue_ok (by rw [hold.hsize]; omega), hold.hsize, hlen,
        hcount, hk, Nat.zero_add]
      exact (ih (by omega)).succ

/-- A merge takes two elements off before it adds one, so it never grows the storage (R145). -/
theorem Builder.merge_hcap {p : Params} {b : Builder} (hq : b.queue.Ok p) (h2 : 2 ≤ b.queue.hsize.toNat) :
    (b.merge p).queue.hcap = b.queue.hcap := by
  have hnonempty : ∀ q : Queue, 1 ≤ q.hsize.toNat → q.hsize ≠ 0#16 := fun q hpos h0 => by simp [h0] at hpos
  obtain ⟨x, q1, hrem1, hok1, hsize1, hcap1, -⟩ := Queue.removeMin_spec b.queue hq (hnonempty _ (by omega))
  obtain ⟨y, q2, hrem2, hok2, hsize2, hcap2, -⟩ := Queue.removeMin_spec q1 hok1 (hnonempty _ (by omega))
  have hcap : q2.hcap = b.queue.hcap := hcap2.trans hcap1
  have hroom : q2.hsize.toNat < q2.hcap.toNat := by
    have := hq.hsize_le
    rw [hcap]
    omega
  rw [Builder.merge, hrem1]
  simp only [hrem2]
  apply BitVec.eq_of_toNat_eq
  rw [Builder.add_hcap (b := { b with queue := q2 }) hok2 (hroom.trans_le hok2.hcap_le), if_neg hroom.ne, hcap]

/-- Phases 2 and 3 leave the capacity of phase 1 (R145, R146). -/
theorem State.buildTables_hcap {s : State} (hs : s.BuildReady) :
    s.buildTables.queue.hcap =
      (buildLeaves s.params s.freq { queue := s.queue.fresh s.params, node := s.node, k := 0 }).queue.hcap := by
  have hle := length_presentSymbols_le s.freq
  obtain ⟨hs₀, hold, hk, hlen, -⟩ := buildLeaves_spec hs.params_wf s.freq s.queue hs.slots_length s.node
  unfold State.buildTables
  generalize buildLeaves s.params s.freq { queue := s.queue.fresh s.params, node := s.node, k := 0 } = b at *
  by_cases hn : (presentSymbols s.freq).length = 0
  · have hsize : b.queue.hsize.toNat = 0 := by rw [hold.hsize]; omega
    simp only [hk, hn, hsize, buildMerge, buildFinish_empty]
  · obtain ⟨r, hroot, hcount, hcap⟩ := buildMerge_induct hs.params_wf
      (P := fun b' _ => b'.queue.hcap = b.queue.hcap)
      (fun b' hs' x y rest hh _ ih hperm _ _ _ _ => (Builder.merge_hcap hh.queue_ok (by
        rw [hh.hsize, hperm.length_eq]
        simp)).trans ih)
      b.queue.hsize.toNat b hs₀ hold (by omega) (by omega) (by rw [hold.hsize]; omega) (by omega) rfl
    obtain ⟨q, hfin, -, -, hqcap⟩ := buildFinish_spec hroot (show b.k ≠ 0 by omega) (by omega)
    simp only [hfin]
    exact hqcap.trans hcap

/-- Settles O25: phase 1 leaves the least capacity for the leaves, and the later phases leave it alone. -/
theorem buildGrowsCapacityForLeaves : Obligations.BuildGrowsCapacityForLeaves := by
  intro s hs
  obtain ⟨j, hj⟩ := foldl_addLeaf_hcap hs.params_wf s.freq
    (Builder.fresh_holds hs.params_wf s.queue hs.slots_length s.node) rfl (Queue.fresh_hcap_toNat _ _) allSymbols
    (length_presentSymbols_le s.freq)
  refine ⟨_, j, execBuild_of_ready hs, ?_⟩
  rw [State.done_queue, State.buildTables_hcap hs]
  exact hj

end Sys2Proof.Machine
end

section
/-! PROOFS. The frequency table commands, BUILD's checks and NODE_READ, case by case of their checks
(spec/41_huffman_tree_builder.md R140 to R143, R150, R151, spec/30_encoding.md R91). -/

namespace Sys2Proof.Machine

open Sys2Proof

/-! ### O19, O20, O21: the frequency table -/

theorem State.clearTable_freqAt (s : State) (y : Symbol) : s.clearTable.freqAt y = 0#32 :=
  Vector.getElem_replicate _

/-- Settles O19. -/
theorem freqClearStartsZeroTable : Obligations.FreqClearStartsZeroTable := fun s =>
  ⟨s.clearTable.done, rfl, s.clearTable_freqAt, rfl⟩

theorem exec_freqWrite_built {s : State} (hb : s.built = true) (sym : Imm16) (count : Count) :
    exec (.freqWrite sym count) s = .next { s with err := 1#4 } := by
  rw [exec, execFreqWrite, if_pos hb]
  rfl

theorem State.writeEntry_of_large (s : State) {e : Imm16 × Count} (h : 256 ≤ e.1.toNat) :
    s.writeEntry e = { s with av := true, ftv := true, err := 0#4 } := by
  rw [State.writeEntry, (symbolOf_eq_none_iff _).2 h]
  rfl

theorem State.writeEntry_of_names (s : State) {e : Imm16 × Count} {y : Symbol} (h : Names e.1 y) :
    s.writeEntry e = { s with freq := (s.writeEntry e).freq, ftv := true, err := 0#4 } := by
  rw [State.writeEntry, symbolOf_of_names h]
  rfl

/-- Settles O20: a symbol's operand is no other symbol's. -/
theorem freqWriteStoresOrMarksViolation : Obligations.FreqWriteStoresOrMarksViolation := by
  intro sym count s
  refine ⟨fun hb => exec_freqWrite_built hb sym count, fun hb hsym => ?_, fun hb y hy => ?_⟩
  · rw [exec_freqWrite_unbuilt hb (sym, count), State.writeEntry_of_large s hsym]
  · refine ⟨_, exec_freqWrite_unbuilt hb (sym, count), ?_, fun z hz => ?_, State.writeEntry_of_names s hy⟩
    · rw [State.writeEntry_freqAt, if_pos (beq_iff_eq.2 hy)]
    · refine (State.writeEntry_freqAt s (sym, count) z).trans (if_neg fun h => hz ?_)
      exact BitVec.eq_of_toNat_eq ((beq_iff_eq.1 h).symm.trans hy)

theorem resultOfFreq_eq (c : Count) : resultOfFreq c = c.setWidth 64 :=
  (BitVec.setWidth_eq_append (by decide : 32 ≤ 64)).symm

/-- Settles O21. -/
theorem freqReadReturnsCount : Obligations.FreqReadReturnsCount := fun sym s =>
  ⟨fun hsym => exec_freqRead_none ((symbolOf_eq_none_iff sym).2 hsym) s, fun y hy => by
    rw [exec_freqRead_some (symbolOf_of_names hy), resultOfFreq_eq]⟩

/-! ### O23: BUILD's checks -/

theorem exec_build_noTable {s : State} (hf : s.ftv = false) : exec .build s = .next { s with err := 2#4 } := by
  rw [exec, execBuild, if_pos (by simp [hf])]
  rfl

theorem exec_build_built {s : State} (hf : s.ftv = true) (hb : s.built = true) :
    exec .build s = .next { s with err := 0#4 } := by
  rw [exec, execBuild, if_neg (by simp [hf]), if_pos hb]
  rfl

theorem exec_build_violation {s : State} (hf : s.ftv = true) (hb : s.built = false) (ha : s.av = true) :
    exec .build s = .next { s with err := 4#4 } := by
  rw [exec, execBuild, if_neg (by simp [hf]), if_neg (by simp [hb]), if_pos ha]
  rfl

/-- Settles O23. -/
theorem buildChecksInOrder : Obligations.BuildChecksInOrder := fun _ =>
  ⟨exec_build_noTable, exec_build_built, exec_build_violation⟩

/-! ### O35: NODE_READ -/

theorem handleOf_eq_none {s : State} {handle : Imm16} (h : s.nnode.toNat ≤ handle.toNat) : handleOf s handle = none := by
  rw [handleOf, if_neg]
  simp only [Bool.and_eq_true, decide_eq_true_eq]
  omega

theorem handleOf_eq_some {s : State} {handle : Imm16} (hmax : s.nnode.toNat ≤ 511) (h : handle.toNat < s.nnode.toNat) :
    handleOf s handle = some handle.toNat := by
  rw [handleOf, if_pos]
  simp only [Bool.and_eq_true, decide_eq_true_eq]
  exact ⟨h, h.trans_le hmax⟩

/-- The fields of a Leaf in RESULT: WEIGHT, SYM, and 0 above (R91). -/
theorem resultOfNode_leaf (w : Weight) (y : Symbol) :
    (resultOfNode (.leaf w y)).extractLsb' 0 40 = w ∧ (resultOfNode (.leaf w y)).extractLsb' 40 9 = y.setWidth 9 ∧
      (resultOfNode (.leaf w y)).extractLsb' 49 15 = 0#15 := by
  have hzero : (0#1 ++ 0#5 ++ 0#9 : BitVec 15) = 0#15 := by decide
  have hsym : 0#1 ++ y = y.setWidth 9 := (BitVec.setWidth_eq_append (by decide)).symm
  unfold resultOfNode
  refine ⟨BitVec.extractLsb'_append_eq_right, ?_, ?_⟩
  · rw [BitVec.extractLsb'_append_eq_of_le (by decide), hsym]
    exact BitVec.extractLsb'_append_eq_right
  · rw [BitVec.extractLsb'_append_eq_of_le (by decide), BitVec.extractLsb'_append_eq_of_le (by decide), hzero]
    exact BitVec.extractLsb'_eq_self

/-- The fields of an Internal node in RESULT: WEIGHT, LEFT, RIGHT, the reserved bits and KIND (R91). -/
theorem resultOfNode_internal (w : Weight) (l r : Handle) :
    (resultOfNode (.internal w l r)).extractLsb' 0 40 = w ∧ (resultOfNode (.internal w l r)).extractLsb' 40 9 = l ∧
      (resultOfNode (.internal w l r)).extractLsb' 49 9 = r ∧
      (resultOfNode (.internal w l r)).extractLsb' 58 5 = 0#5 ∧ (resultOfNode (.internal w l r)).getLsbD 63 = true := by
  unfold resultOfNode
  refine ⟨?_, ?_, ?_, ?_, by simp only [BitVec.getLsbD_append]; simp⟩
  all_goals
    repeat rw [BitVec.extractLsb'_append_eq_of_le (by decide)]
    exact BitVec.extractLsb'_append_eq_right

/-- Settles O35. -/
theorem nodeReadReturnsNode : Obligations.NodeReadReturnsNode := by
  intro handle s hmax
  refine ⟨fun hb => exec_nodeRead_unbuilt hb handle, fun hb hh => exec_nodeRead_none hb (handleOf_eq_none hh),
    fun hb hh => ⟨_, exec_nodeRead_some hb (handleOf_eq_some hmax hh), fun w y hnode => ?_, fun w l r hnode => ?_⟩⟩
  · rw [hnode]
    exact resultOfNode_leaf w y
  · rw [hnode]
    exact resultOfNode_internal w l r

end Sys2Proof.Machine
end

section
/-! PROOFS. What a ready BUILD completes with: its frame, the code table, and the tables of no symbol and of one symbol
(spec/41_huffman_tree_builder.md R143, R146, R148, R149, R153 to R155), and that nothing changes what it has built
(R160). -/

namespace Sys2Proof.Machine

open Sys2Proof

/-! ### O24, O27: any table -/

theorem State.buildTables_hsize {s : State} (hs : s.BuildReady) : s.buildTables.queue.hsize = 0#16 := by
  by_cases hn : (presentSymbols s.freq).length = 0
  · obtain ⟨node, q, -, hempty, heq⟩ := State.buildTables_of_empty hs hn
    rw [heq]
    exact hempty
  · obtain ⟨b, r, q, -, -, -, hempty, heq⟩ := State.buildTables_spec hs hn
    rw [heq]
    exact hempty

/-- Settles O24. -/
theorem buildCompletes : Obligations.BuildCompletes := fun s hs =>
  ⟨s.buildTables.done, execBuild_of_ready hs, State.buildTables_hsize hs, rfl⟩

/-- Settles O27. -/
theorem buildMakesSoundCodeTable : Obligations.BuildMakesSoundCodeTable := fun _ hs =>
  ⟨_, execBuild_of_ready hs, (State.buildTables_codeOk hs).congr rfl⟩

/-! ### O28: no symbol -/

theorem exec_encode_none {s : State} {sym : Imm16} (hb : s.built = true) (hsym : symbolOf sym = none) :
    exec (.encode sym) s = .next { s with err := 3#4 } := by
  rw [exec, execEncode, if_neg (by simp [hb]), hsym]
  rfl

theorem exec_encode_noCode {s : State} {sym : Imm16} {y : Symbol} (hb : s.built = true) (hsym : symbolOf sym = some y)
    (hcode : s.hasCode y = false) : exec (.encode sym) s = .next { s with err := 3#4 } := by
  rw [exec, execEncode, if_neg (by simp [hb]), hsym]
  exact congrArg _ (if_neg (by rw [← State.hasCode, hcode]; decide))

theorem State.TreeOk.of_empty {s : State} (hs : s.TreeOk) (hn : presentSymbols s.freq = []) :
    s.nleaf = 0#9 ∧ s.nnode = 0#10 ∧ s.rootNone = true ∧ s.root = 0#9 := by
  refine ⟨BitVec.eq_of_toNat_eq ?_, BitVec.eq_of_toNat_eq ?_, ?_, BitVec.eq_of_toNat_eq ?_⟩
  · simp [hs.nleaf_eq, hn]
  · simp [hs.nnode_eq, hn]
  · simp [hs.rootNone_eq, hn]
  · simp [hs.root_eq, hn]

/-- Settles O28: the sound tables of no symbol are the empty ones, in which nothing is found. -/
theorem emptyTableBuildsEmptyTree : Obligations.EmptyTableBuildsEmptyTree := by
  intro s hs hzero
  have hnil : presentSymbols s.freq = [] :=
    List.eq_nil_iff_forall_not_mem.2 fun y hy => (mem_presentSymbols _ _).1 hy (hzero y)
  obtain ⟨hnleaf, hnnode, hnone, hroot⟩ := (State.buildTables_treeOk hs).of_empty hnil
  have habsent : ∀ y, s.buildTables.done.ctAt y = CtEntry.absent := fun y =>
    (State.buildTables_codeOk hs).absent y (hzero y)
  have hb : s.buildTables.done.built = true := rfl
  refine ⟨_, execBuild_of_ready hs, hb, rfl, hnleaf, hnnode, hnone, hroot, habsent, fun sym => ?_, fun handle => ?_⟩
  · cases hsym : symbolOf sym with
    | none => exact exec_encode_none hb hsym
    | some y => exact exec_encode_noCode hb hsym (by rw [State.hasCode, habsent]; rfl)
  · refine exec_nodeRead_none hb (handleOf_eq_none ?_)
    rw [State.done_nnode, hnnode]
    exact Nat.zero_le _

/-! ### O29: one symbol -/

theorem presentSymbols_eq_singleton {freq : Vector Count 256} {y : Symbol} (h : ∀ z, freqOf freq z ≠ 0#32 ↔ z = y) :
    presentSymbols freq = [y] :=
  List.perm_singleton.1 <| (List.perm_ext_iff_of_nodup (nodup_presentSymbols freq) (List.nodup_singleton y)).2 fun z => by
    rw [mem_presentSymbols, h, List.mem_singleton]

/-- Settles O29: the sound tables of one symbol are the one leaf and the one code. -/
theorem oneSymbolBuildsOneBitCode : Obligations.OneSymbolBuildsOneBitCode := by
  intro s y hs hy hrest
  have hone : presentSymbols s.freq = [y] := presentSymbols_eq_singleton fun z =>
    ⟨fun hz => by_contra fun hne => hz (hrest z hne), fun hz => hz ▸ hy⟩
  have htree := State.buildTables_treeOk hs
  have hcode := State.buildTables_codeOk hs
  refine ⟨_, execBuild_of_ready hs, BitVec.eq_of_toNat_eq ?_, ?_, BitVec.eq_of_toNat_eq ?_, BitVec.eq_of_toNat_eq ?_,
    htree.leaves 0 y (by simp [hone]), hcode.single y hone, fun z hz => hcode.absent z (hrest z hz)⟩
  · simp [htree.root_eq, hone]
  · simp [htree.rootNone_eq, hone]
  · simp [htree.nleaf_eq, hone]
  · simp [htree.nnode_eq, hone]

/-! ### O51: the built tables -/

/-- While BUILT = 1 a command leaves BUILT and the tables alone, or it is a FREQ_CLEAR, which clears BUILT (R160). -/
theorem Effect.of_built {s t : State} {i : Instr} (he : Effect s i t) (hb : s.built = true) :
    (t.built = true ∧ t.tables = s.tables) ∨ (t.built = false ∧ i = .freqClear) := by
  cases he with
  | clears => exact .inr ⟨rfl, rfl⟩
  | marks _ _ hb' | stores _ _ _ hb' _ | builds _ hb' _ => simp [hb] at hb'
  | fails | succeeds | reads | readsStat | emits | inserts | removes | empties => exact .inl ⟨hb, rfl⟩

theorem runWord_of_built {w : Word} {s t : State} (h : runWord w s = .next t) (hb : s.built = true) :
    (t.built = true ∧ t.tables = s.tables) ∨ (t.built = false ∧ decode w = .command .freqClear) := by
  unfold runWord at h
  split at h
  · next i hi =>
    rw [hi, Decoded.command.injEq]
    exact (exec_effect i s t h).of_built hb
  · cases h
    exact .inl ⟨hb, rfl⟩

theorem State.continueOutput_frame (s : State) :
    s.continueOutput.built = s.built ∧ s.continueOutput.tables = s.tables := by
  unfold State.continueOutput
  split <;> exact ⟨rfl, rfl⟩

/-- A step from BUILT = 1 leaves BUILT and the tables alone, or takes a FREQ_CLEAR or a reset, which clears BUILT. -/
theorem step_of_built {s t : State} (h : step s = .next t) (hb : s.built = true) :
    (t.built = true ∧ t.tables = s.tables) ∨
      (t.built = false ∧ ((∃ w s', nextAct s = some (.offer w, s') ∧ decode w = .command .freqClear) ∨
        ∃ s', nextAct s = some (.rst true, s'))) := by
  cases ha : nextAct s with
  | none =>
    cases (step_of_none ha).symm.trans h
    exact .inl (s.continueOutput_frame.imp_left (·.trans hb))
  | some r =>
    obtain ⟨a, s'⟩ := r
    have hs' := (nextAct_spec s s' a ha).1
    generalize s'.host = acts at hs'
    subst hs'
    cases a with
    | offer w =>
      rw [step_of_offer ha] at h
      exact (runWord_of_built h hb).imp_right fun hclear => ⟨hclear.1, .inl ⟨w, _, rfl, hclear.2⟩⟩
    | read index =>
      cases (step_of_read ha).symm.trans h
      exact .inl ⟨hb, rfl⟩
    | sink k =>
      cases (step_of_sink ha).symm.trans h
      exact .inl ((State.continueOutput_frame _).imp_left (·.trans hb))
    | rst level =>
      cases (step_of_rst ha).symm.trans h
      cases level with
      | true => exact .inr ⟨rfl, .inr ⟨_, rfl⟩⟩
      | false => exact .inl ⟨hb, rfl⟩

theorem State.treeWord_of_tables {s t : State} (h : t.tables = s.tables) : t.treeWord = s.treeWord := by
  rw [State.eq_with_tables h]
  rfl

/-- Settles O51: whether BUILT stands after the step tells which of the two cases it was. -/
theorem builtTablesAreImmutable : Obligations.BuiltTablesAreImmutable := by
  intro s hb
  refine ⟨fun t h => ?_, exec_freqWrite_built hb, fun hf => exec_build_built hf hb⟩
  obtain ⟨hbuilt, htables⟩ | ⟨hbuilt, hcause⟩ := step_of_built h hb
  · refine ⟨fun _ => ?_, fun hclear => by simp [hbuilt] at hclear⟩
    have htree := State.treeWord_of_tables htables
    simp only [State.tables, Prod.mk.injEq] at htables
    exact ⟨htables.1, htables.2.1, htables.2.2.1, htree⟩
  · exact ⟨fun hset => by simp [hbuilt] at hset, fun _ => hcause⟩

end Sys2Proof.Machine
end

section
/-! PROOFS. The code that BUILD makes is `PrefixFree` and complete, and the reference decoder inverts it
(spec/41_huffman_tree_builder.md R153, R154, R159, R163, R164, spec/95_test_vectors.md section 4). -/

namespace Sys2Proof.Machine

open Sys2Proof

/-! ### A code table and its list of codes -/

/-- The code table has the codes `cs` and no other: one for each present symbol, none of them empty and none the beginning
of another. -/
structure State.HasCodes (s : State) (cs : List (Symbol × List Bool)) : Prop where
  symbols : (cs.map (·.1)).Perm (presentSymbols s.freq)
  lengths : ∀ c, c ∈ cs → 1 ≤ c.2.length ∧ c.2.length ≤ 256
  separate : cs.Pairwise fun c d => ¬ c.2.IsPrefix d.2 ∧ ¬ d.2.IsPrefix c.2
  entries : ∀ c, c ∈ cs → s.ctAt c.1 = entryOfPath c.2
  rest : ∀ y, freqOf s.freq y = 0#32 → s.ctAt y = CtEntry.absent

section
variable {s : State} {cs : List (Symbol × List Bool)} (hc : s.HasCodes cs)
include hc

theorem State.HasCodes.mem_of_freq {y : Symbol} (hy : freqOf s.freq y ≠ 0#32) : ∃ bits, (y, bits) ∈ cs := by
  have := hc.symbols.mem_iff.2 ((mem_presentSymbols _ _).2 hy)
  simpa using this

theorem State.HasCodes.hasCode_of_mem {y : Symbol} {bits : List Bool} (h : (y, bits) ∈ cs) : s.hasCode y = true := by
  rw [State.hasCode, hc.entries _ h]
  rfl

/-- Exactly the present symbols have a code (R155). -/
theorem State.HasCodes.hasCode_iff (y : Symbol) : s.hasCode y = true ↔ freqOf s.freq y ≠ 0#32 := by
  refine ⟨fun h h0 => ?_, fun h => ?_⟩
  · rw [State.hasCode, hc.rest y h0] at h
    simp [CtEntry.absent] at h
  · obtain ⟨bits, hb⟩ := hc.mem_of_freq h
    exact hc.hasCode_of_mem hb

theorem State.HasCodes.mem_of_hasCode {y : Symbol} (h : s.hasCode y = true) : ∃ bits, (y, bits) ∈ cs :=
  hc.mem_of_freq ((hc.hasCode_iff y).1 h)

theorem State.HasCodes.codeOf_of_mem {y : Symbol} {bits : List Bool} (h : (y, bits) ∈ cs) : s.codeOf y = bits := by
  rw [State.codeOf, hc.entries _ h, codeBits_entryOfPath (hc.lengths _ h).2]

/-- A code that another one begins with is that one. -/
theorem State.HasCodes.eq_of_prefix {c d : Symbol × List Bool} (h : c ∈ cs) (h' : d ∈ cs) (hp : c.2.IsPrefix d.2) :
    c = d := by
  have hsymm : Std.Symm fun c d : Symbol × List Bool => ¬ c.2.IsPrefix d.2 ∧ ¬ d.2.IsPrefix c.2 := ⟨fun _ _ => And.symm⟩
  by_contra hne
  exact (hc.separate.forall h h' hne).1 hp

/-- R163. -/
theorem State.HasCodes.prefixFree : PrefixFree s.hasCode s.codeOf := by
  intro y z hne hy hz hp
  obtain ⟨bits, hb⟩ := hc.mem_of_hasCode hy
  obtain ⟨bits', hb'⟩ := hc.mem_of_hasCode hz
  rw [hc.codeOf_of_mem hb, hc.codeOf_of_mem hb'] at hp
  exact hne (congrArg Prod.fst (hc.eq_of_prefix hb hb' hp))

theorem State.HasCodes.filter_hasCode : allSymbols.filter s.hasCode = presentSymbols s.freq :=
  List.filter_congr fun y _ => by
    rw [Bool.eq_iff_iff, hc.hasCode_iff]
    simp

/-- The Kraft sum over the alphabet is that of the list (R164). -/
theorem State.HasCodes.kraftSum : kraftSum s.hasCode s.codeOf = (cs.map fun c => 2 ^ (255 - c.2.length)).sum := by
  rw [Machine.kraftSum, hc.filter_hasCode, ← (hc.symbols.map _).sum_eq, List.map_map]
  congr 1
  exact List.map_congr_left fun c h => by rw [Function.comp_apply, hc.codeOf_of_mem (y := c.1) h]

end

/-! ### The codes of one symbol, and of two or more -/

/-- The codes of a tree of two leaves or more (R153). -/
theorem State.CodesTree.hasCodes {s : State} {t : CodeTree} (c : s.CodesTree t) : s.HasCodes t.codes where
  symbols := c.symbols
  lengths := fun _ h => ⟨(c.length_le h).1, c.length_le_256 h⟩
  separate := t.codes_pairwise
  entries := fun _ h => c.ctAt_of_mem h
  rest := fun y hy => c.ctAt_of_not_mem fun h => (c.mem_symbols y).1 h hy

/-- The code of one symbol (R154). -/
theorem State.CodeOk.hasCodes_of_single {s : State} (hs : s.CodeOk) {y : Symbol} (hy : presentSymbols s.freq = [y]) :
    s.HasCodes [(y, [false])] where
  symbols := by simp [hy]
  lengths := by simp
  separate := List.pairwise_singleton _ _
  entries := fun c h => by
    rw [List.mem_singleton.1 h, hs.single y hy]
    rfl
  rest := hs.absent

/-- No code for no symbol (R148). -/
theorem State.CodeOk.hasCodes_of_empty {s : State} (hs : s.CodeOk) (hn : presentSymbols s.freq = []) : s.HasCodes [] where
  symbols := by simp [hn]
  lengths := by simp
  separate := List.Pairwise.nil
  entries := by simp
  rest := hs.absent

/-- The walk from the root of the single tree of two leaves or more spells out its codes (R152). -/
theorem Forest.codesTree {s : State} {b : Builder} {r : Nat} (f : Forest s.freq b [r]) (sp : Spelled s.freq b [r])
    (hnode : s.node = b.node) (hroot : s.root = BitVec.ofNat 9 r) (htwo : 2 ≤ (presentSymbols s.freq).length)
    (hct : s.ct = genCodes b.node (BitVec.ofNat 9 r) (presentSymbols s.freq).length) :
    ∃ t, s.CodesTree t := by
  have hle := length_presentSymbols_le s.freq
  have hr := f.root_eq
  have hcount : b.k + 1 = 2 * (presentSymbols s.freq).length := f.count
  have hroot' : (BitVec.ofNat 9 r).toNat = r := by rw [BitVec.toNat_ofNat]; omega
  obtain ⟨tree, hspells, hperm⟩ := sp
  have hsp : Spells b.node r (tree r) := hspells r (List.mem_singleton_self r)
  have hsymbols : (tree r).symbols.Perm (presentSymbols s.freq) := by simpa using hperm
  have hlen : (tree r).codes.length = (presentSymbols s.freq).length := by
    simpa [CodeTree.symbols] using hsymbols.length_eq
  have hdepth := (tree r).depth_lt_length
  refine ⟨tree r, by rwa [hnode, hroot, hroot'], hsymbols, htwo, ?_⟩
  rw [hct, genCodes, if_neg (by omega), if_neg (by omega)]
  exact walk_spec _ _ _ _ _ _ _ (by rwa [hroot']) (show _ < 511 by omega)

theorem State.CodesTree.congr {s t : State} {u : CodeTree} (hs : s.CodesTree u) (h : t.tables = s.tables) :
    t.CodesTree u := by
  rw [State.eq_with_tables h]
  exact { hs with }

/-- The code table that BUILD makes has no codes, that of one symbol, or those of a tree. -/
theorem build_hasCodes {s : State} (hs : s.BuildReady) : ∃ t, exec .build s = .next t ∧ t.freq = s.freq ∧
    ((presentSymbols s.freq = [] ∧ t.HasCodes []) ∨ (∃ y, presentSymbols s.freq = [y] ∧ t.HasCodes [(y, [false])]) ∨
      (2 ≤ (presentSymbols s.freq).length ∧ ∃ u, t.CodesTree u)) := by
  have hcode : s.buildTables.done.CodeOk := (State.buildTables_codeOk hs).congr rfl
  refine ⟨_, execBuild_of_ready hs, rfl, ?_⟩
  rcases Nat.lt_trichotomy (presentSymbols s.freq).length 1 with hn | hn | hn
  · have hnil := List.length_eq_zero_iff.1 (Nat.lt_one_iff.1 hn)
    exact .inl ⟨hnil, hcode.hasCodes_of_empty hnil⟩
  · obtain ⟨y, hy⟩ := List.length_eq_one_iff.1 hn
    exact .inr (.inl ⟨y, hy, hcode.hasCodes_of_single hy⟩)
  · obtain ⟨b, r, q, hf, hsp, -, -, heq⟩ := State.buildTables_spec hs (by omega)
    have htree : ∃ u, s.buildTables.CodesTree u := by
      rw [heq]
      exact Forest.codesTree hf hsp rfl rfl hn rfl
    obtain ⟨u, hu⟩ := htree
    exact .inr (.inr ⟨hn, u, hu.congr rfl⟩)

theorem build_exists_hasCodes {s : State} (hs : s.BuildReady) :
    ∃ t cs, exec .build s = .next t ∧ t.freq = s.freq ∧ t.HasCodes cs := by
  obtain ⟨t, ht, hfreq, ⟨-, hc⟩ | ⟨_, -, hc⟩ | ⟨-, _, hu⟩⟩ := build_hasCodes hs
  · exact ⟨t, _, ht, hfreq, hc⟩
  · exact ⟨t, _, ht, hfreq, hc⟩
  · exact ⟨t, _, ht, hfreq, hu.hasCodes⟩

/-! ### O30, O31 -/

/-- Settles O30. -/
theorem builtCodeIsPrefixFree : Obligations.BuiltCodeIsPrefixFree := fun _ hs =>
  have ⟨t, _, ht, _, hc⟩ := build_exists_hasCodes hs
  ⟨t, ht, hc.prefixFree⟩

theorem State.CodesTree.kraftSum {s : State} {t : CodeTree} (c : s.CodesTree t) :
    Machine.kraftSum s.hasCode s.codeOf = 2 ^ 255 := by
  have hle := length_presentSymbols_le s.freq
  have hdepth := t.depth_lt_length
  have hlen := c.length_codes
  rw [c.hasCodes.kraftSum]
  exact t.kraft 255 (by omega)

/-- Settles O31: the codes of a tree fill the code space, and the one-symbol code half of it. -/
theorem builtCodeIsComplete : Obligations.BuiltCodeIsComplete := by
  intro s hs
  obtain ⟨t, ht, -, ⟨hnil, -⟩ | ⟨y, hy, hc⟩ | ⟨htwo, u, hu⟩⟩ := build_hasCodes hs
  · exact ⟨t, ht, fun htwo => by simp [hnil] at htwo, fun hone => by simp [hnil] at hone⟩
  · refine ⟨t, ht, fun htwo => by simp [hy] at htwo, fun _ => ?_⟩
    rw [hc.kraftSum]
    simp
  · exact ⟨t, ht, fun _ => hu.kraftSum, fun hone => by omega⟩

/-! ### O34: the reference decoder -/

/-- The number that bits spell, first bit highest. -/
def pathValue (bs : List Bool) : Nat := bs.foldl (fun v b => 2 * v + b.toNat) 0

@[simp] theorem pathValue_nil : pathValue [] = 0 := rfl

theorem pathValue_concat (bs : List Bool) (b : Bool) : pathValue (bs ++ [b]) = 2 * pathValue bs + b.toNat := by
  simp [pathValue]

/-- BITS of an entry is the number that its path spells (R152, R159). -/
theorem entryOfPath_bits {bs : List Bool} (h : bs.length ≤ 256) : (entryOfPath bs).bits.toNat = pathValue bs :=
  (appendBits_toNat bs 0#256 0 (by simp) (by omega)).1

theorem entryOfPath_inj {bs cs : List Bool} (hb : bs.length ≤ 256) (hc : cs.length ≤ 256)
    (hlen : bs.length = cs.length) (hval : pathValue bs = pathValue cs) : bs = cs := by
  have hentry : entryOfPath bs = entryOfPath cs := by
    have hbits := (entryOfPath_bits hb).trans (hval.trans (entryOfPath_bits hc).symm)
    rw [entryOfPath, entryOfPath, hlen, CtEntry.mk.injEq]
    exact ⟨rfl, rfl, BitVec.eq_of_toNat_eq hbits⟩
  rw [← codeBits_entryOfPath hb, hentry, codeBits_entryOfPath hc]

section
variable {s : State} {cs : List (Symbol × List Bool)} (hc : s.HasCodes cs)
include hc

/-- The decoder's search finds exactly the symbol whose code the bits are. -/
theorem State.HasCodes.symbolWithCode_iff {bs : List Bool} (hbs : bs.length ≤ 256) (y : Symbol) :
    s.symbolWithCode (pathValue bs) bs.length = some y ↔ (y, bs) ∈ cs := by
  have hmatch : ∀ z, (s.hasCode z && decide ((s.ctAt z).len.toNat = bs.length) &&
      decide ((s.ctAt z).bits.toNat = pathValue bs)) = true ↔ (z, bs) ∈ cs := by
    intro z
    simp only [Bool.and_eq_true, decide_eq_true_eq]
    constructor
    · rintro ⟨⟨hz, hlen⟩, hval⟩
      obtain ⟨bits, hb⟩ := hc.mem_of_hasCode hz
      have hentry : s.ctAt z = entryOfPath bits := hc.entries _ hb
      have hle : bits.length ≤ 256 := (hc.lengths _ hb).2
      rw [hentry, entryOfPath_len hle] at hlen
      rw [hentry, entryOfPath_bits hle] at hval
      rwa [entryOfPath_inj hle hbs hlen hval] at hb
    · intro hz
      have hentry : s.ctAt z = entryOfPath bs := hc.entries _ hz
      rw [hentry, entryOfPath_len hbs, entryOfPath_bits hbs]
      exact ⟨⟨hc.hasCode_of_mem hz, rfl⟩, rfl⟩
  unfold State.symbolWithCode
  constructor
  · intro h
    have hfound := List.find?_some h
    exact (hmatch y).1 hfound
  · intro hy
    cases hz : List.find? _ allSymbols with
    | none => exact absurd ((hmatch y).2 hy) (List.find?_eq_none.1 hz y (mem_allSymbols y))
    | some z =>
      have hfound := List.find?_some hz
      have heq := hc.eq_of_prefix ((hmatch z).1 hfound) hy (List.prefix_refl bs)
      exact congrArg (some ∘ Prod.fst) heq

/-- Inside a code the decoder reads on, and at its end it gives the symbol. -/
theorem State.HasCodes.decodeBits_code {y : Symbol} (done left rest : List Bool) (h : (y, done ++ left) ∈ cs)
    (hleft : left ≠ []) :
    s.decodeBits (pathValue done) done.length (left ++ rest) = (s.decodeBits 0 0 rest).map (y :: ·) := by
  induction left generalizing done with
  | nil => exact absurd rfl hleft
  | cons b left ih =>
    have hle := (hc.lengths _ h).2
    have hread : done ++ b :: left = (done ++ [b]) ++ left := by simp
    rw [hread] at h
    have hfind := hc.symbolWithCode_iff (bs := done ++ [b]) (by simp at hle ⊢; omega)
    rw [pathValue_concat, List.length_append, List.length_singleton] at hfind
    rw [List.cons_append, State.decodeBits]
    cases left with
    | nil =>
      rw [(hfind y).2 (by simpa using h)]
      rfl
    | cons b' left =>
      have hnone : s.symbolWithCode (2 * pathValue done + b.toNat) (done.length + 1) = none := by
        refine Option.eq_none_iff_forall_ne_some.2 fun z hz => ?_
        have heq := hc.eq_of_prefix ((hfind z).1 hz) h (List.prefix_append _ _)
        simp at heq
      rw [hnone]
      have := ih (done ++ [b]) h (by simp)
      rwa [pathValue_concat, List.length_append, List.length_singleton] at this

/-- The decoder gives back every sequence of symbols that have a code. -/
theorem State.HasCodes.decodeBits_flatMap (ys : List Symbol) (hys : ∀ y, y ∈ ys → s.hasCode y = true) :
    s.decodeBits 0 0 (ys.flatMap s.codeOf) = some ys := by
  induction ys with
  | nil => rfl
  | cons y ys ih =>
    obtain ⟨bits, hb⟩ := hc.mem_of_hasCode (hys y List.mem_cons_self)
    have hne : bits ≠ [] := List.ne_nil_of_length_pos (hc.lengths _ hb).1
    have hcode := hc.decodeBits_code [] bits (ys.flatMap s.codeOf) hb hne
    rw [pathValue_nil, List.length_nil, ih fun z hz => hys z (List.mem_cons_of_mem _ hz)] at hcode
    rwa [List.flatMap_cons, hc.codeOf_of_mem hb]

end

/-- Settles O34. -/
theorem referenceDecoderInvertsBuiltCode : Obligations.ReferenceDecoderInvertsBuiltCode := fun _ hs =>
  have ⟨t, _, ht, hfreq, hc⟩ := build_exists_hasCodes hs
  ⟨t, ht, fun ys hys => hc.decodeBits_flatMap ys fun y hy => (hc.hasCode_iff y).2 (hfreq ▸ hys y hy)⟩

end Sys2Proof.Machine
end

section
/-! PROOFS. The tree, the handles and the code table are a function of FREQ alone (spec/41_huffman_tree_builder.md R158):
two BUILDs of one table run in step. Their queues may differ in capacity and in their stale slots, and their node stores in
the entries that are not yet made; no turn of the loops reads either. -/

namespace Sys2Proof.Machine

open Sys2Proof

/-! ### The sifts look at the live slots alone -/

/-- The first n slots, which both lists have, are the same. -/
structure AgreeTo (n : Nat) (h h' : List HeapEntry) : Prop where
  le_left : n ≤ h.length
  le_right : n ≤ h'.length
  slots : ∀ i, i < n → slotAt h i = slotAt h' i

theorem AgreeTo.mono {n m : Nat} {h h' : List HeapEntry} (a : AgreeTo n h h') (hm : m ≤ n) : AgreeTo m h h' :=
  ⟨hm.trans a.le_left, hm.trans a.le_right, fun i hi => a.slots i (by omega)⟩

theorem AgreeTo.swapSlots {n : Nat} {h h' : List HeapEntry} (a : AgreeTo n h h') {i j : Nat} (hi : i < n) (hj : j < n) :
    AgreeTo n (swapSlots h i j) (swapSlots h' i j) where
  le_left := by simpa using a.le_left
  le_right := by simpa using a.le_right
  slots k hk := by
    have hl := a.le_left
    have hr := a.le_right
    rw [slotAt_swapSlots _ _ _ _ (by omega) (by omega), slotAt_swapSlots _ _ _ _ (by omega) (by omega), a.slots i hi,
      a.slots j hj, a.slots k hk]

theorem AgreeTo.set {n : Nat} {h h' : List HeapEntry} (a : AgreeTo n h h') (hl : n < h.length) (hr : n < h'.length)
    (e : HeapEntry) : AgreeTo (n + 1) (h.set n e) (h'.set n e) where
  le_left := by rwa [List.length_set]
  le_right := by rwa [List.length_set]
  slots k hk := by
    rw [slotAt_set _ _ _ _ hl, slotAt_set _ _ _ _ hr]
    split
    · rfl
    · exact a.slots k (by omega)

theorem AgreeTo.siftUp {n : Nat} (fuel : Nat) {h h' : List HeapEntry} (a : AgreeTo n h h') {i : Nat} (hi : i < n) :
    AgreeTo n (siftUp fuel h i) (siftUp fuel h' i) := by
  induction fuel generalizing h h' i with
  | zero => exact a
  | succ fuel ih =>
    have hp : parentOf i < n := by unfold parentOf; omega
    rw [Machine.siftUp, Machine.siftUp, a.slots i hi, a.slots _ hp]
    split
    · exact ih (a.swapSlots hi hp) hp
    · exact a

theorem AgreeTo.siftDown {n : Nat} (fuel : Nat) {h h' : List HeapEntry} (a : AgreeTo n h h') (i : Nat) :
    AgreeTo n (siftDown fuel h n i) (siftDown fuel h' n i) := by
  induction fuel generalizing h h' i with
  | zero => exact a
  | succ fuel ih =>
    rw [Machine.siftDown, Machine.siftDown]
    by_cases hl : 2 * i + 1 < n
    · have hchild : smallerChild h n i = smallerChild h' n i := smallerChild_congr fun k _ hk => a.slots k hk
      have hlt : smallerChild h' n i < n := (smallerChild_spec h' n i hl).2.1
      rw [hchild, a.slots _ hlt, a.slots i (by omega)]
      split
      · exact ih (a.swapSlots (by omega) hlt) _
      · exact a
    · rw [if_neg fun hc => hl hc.1, if_neg fun hc => hl hc.1]
      exact a

/-! ### The queue -/

/-- Two sound queues, of parts with any parameters, with the same elements in the same slots. -/
structure Queue.Twins (p p' : Params) (q q' : Queue) : Prop where
  left : q.Ok p
  right : q'.Ok p'
  hsize : q'.hsize = q.hsize
  agree : AgreeTo q.hsize.toNat q.slots q'.slots

section
variable {p p' : Params} {q q' : Queue} (w : q.Twins p p' q')
include w

theorem Queue.Twins.insert (hp : p.wf = true) (hp' : p'.wf = true) (hroom : q.hsize.toNat < 256) (e : HeapEntry) :
    ∃ r r', q.insert p e = some r ∧ q'.insert p' e = some r' ∧ r.Twins p p' r' ∧ r.hsize.toNat = q.hsize.toNat + 1 := by
  have hlt : q.hsize.toNat < p.heapMax := hroom.trans_le (Params.heapMax_ge hp)
  have hlt' : q'.hsize.toNat < p'.heapMax := by rw [w.hsize]; exact hroom.trans_le (Params.heapMax_ge hp')
  obtain ⟨r, hins, hok, hsize, -⟩ := Queue.insert_spec q e w.left hlt
  obtain ⟨r', hins', hok', hsize', -⟩ := Queue.insert_spec q' e w.right hlt'
  refine ⟨r, r', hins, hins', ⟨hok, hok', ?_, ?_⟩, hsize⟩
  · apply BitVec.eq_of_toNat_eq
    rw [hsize, hsize', w.hsize]
  · rw [hsize, Queue.insert_slots hins, Queue.insert_slots hins', w.hsize]
    rw [w.hsize] at hlt'
    exact (w.agree.set (w.left.slots_length ▸ hlt) (w.right.slots_length ▸ hlt') e).siftUp _ (Nat.lt_succ_self _)

theorem Queue.Twins.removeMin (hne : q.hsize ≠ 0#16) :
    ∃ e r r', q.removeMin = some (e, r) ∧ q'.removeMin = some (e, r') ∧ r.Twins p p' r' ∧
      r.hsize.toNat + 1 = q.hsize.toNat := by
  obtain ⟨e, r, hrem, hok, hsize, -, -, -, he⟩ := Queue.removeMin_spec q w.left hne
  obtain ⟨e', r', hrem', hok', hsize', -, -, -, he'⟩ := Queue.removeMin_spec q' w.right (by rwa [w.hsize])
  rw [w.hsize] at hsize'
  have hpos : 0 < q.hsize.toNat := by omega
  have heq : e' = e := by rw [he, he', w.agree.slots 0 hpos]
  subst heq
  refine ⟨_, r, r', hrem, hrem', ⟨hok, hok', BitVec.eq_of_toNat_eq (by omega), ?_⟩, hsize⟩
  rw [Queue.removeMin_slots hrem, Queue.removeMin_slots hrem', w.hsize, show r.hsize.toNat = q.hsize.toNat - 1 by omega]
  exact ((w.agree.swapSlots hpos (by omega)).mono (by omega)).siftDown _ 0

end

/-! ### The builder -/

/-- Two BUILDs in step: the same elements queued, the same nodes made. -/
structure Builder.Twins (p p' : Params) (b b' : Builder) : Prop where
  queue : b.queue.Twins p p' b'.queue
  k : b'.k = b.k
  hsize_le : b.queue.hsize.toNat ≤ b.k
  node : ∀ h, h < b.k → nodeAt b'.node h = nodeAt b.node h

theorem Builder.fresh_twins {p p' : Params} (hp : p.wf = true) (hp' : p'.wf = true) {q q' : Queue}
    (hq : q.slots.length = p.heapMax) (hq' : q'.slots.length = p'.heapMax) (node node' : Vector NodeEntry 511) :
    Builder.Twins p p' { queue := q.fresh p, node := node, k := 0 } { queue := q'.fresh p', node := node', k := 0 } where
  queue := ⟨Queue.fresh_ok hp q hq, Queue.fresh_ok hp' q' hq', rfl, ⟨Nat.zero_le _, Nat.zero_le _, by simp⟩⟩
  k := rfl
  hsize_le := by simp
  node := by simp

section
variable {p p' : Params} (hp : p.wf = true) (hp' : p'.wf = true) {b b' : Builder}
include hp hp'

theorem Builder.Twins.add (w : b.Twins p p' b') (hk : b.k < 511) (hroom : b.queue.hsize.toNat < 256) (v : Weight)
    (e : NodeEntry) : (b.add p v e).Twins p p' (b'.add p' v e) ∧
      (b.add p v e).queue.hsize.toNat = b.queue.hsize.toNat + 1 := by
  obtain ⟨r, r', hins, hins', htwins, hsize⟩ := w.queue.insert hp hp' hroom { prio := v, pay := payOfHandle b.k }
  have hqueue : (b.add p v e).queue = r := by rw [Builder.add, hins, Option.getD_some]
  have hqueue' : (b'.add p' v e).queue = r' := by rw [Builder.add, w.k, hins', Option.getD_some]
  refine ⟨⟨by rwa [hqueue, hqueue'], ?_, ?_, fun h hh => ?_⟩, by rw [hqueue, hsize]⟩
  · rw [Builder.add_k, Builder.add_k, w.k]
  · have := w.hsize_le
    rw [hqueue, hsize, Builder.add_k]
    omega
  · rw [Builder.add_node, Builder.add_node, w.k, nodeAt_setNode _ _ _ _ hk, nodeAt_setNode _ _ _ _ hk]
    split
    · rfl
    · next hne => exact w.node h (Nat.lt_of_le_of_ne (Nat.lt_succ_iff.1 hh) hne)

theorem Builder.Twins.foldl_addLeaf (freq : Vector Count 256) (ys : List Symbol) (w : b.Twins p p' b')
    (hk : b.k + (ys.filter fun y => freqOf freq y != 0#32).length ≤ 256) :
    (ys.foldl (Builder.addLeaf p freq) b).Twins p p' (ys.foldl (Builder.addLeaf p' freq) b') := by
  induction ys generalizing b b' with
  | nil => exact w
  | cons y ys ih =>
    rw [List.foldl_cons, List.foldl_cons]
    by_cases hy : freqOf freq y = 0#32
    · rw [Builder.addLeaf_absent hy, Builder.addLeaf_absent hy]
      exact ih w (by simpa [hy] using hk)
    · have hle := w.hsize_le
      rw [List.filter_cons_of_pos (by simpa using hy), List.length_cons] at hk
      rw [Builder.addLeaf_present hy, Builder.addLeaf_present hy]
      exact ih (w.add hp hp' (by omega) (by omega) _ _).1 (by rw [Builder.add_k]; omega)

/-- One merge takes the same two elements off both queues (R145). -/
theorem Builder.Twins.merge (w : b.Twins p p' b') (hk : b.k < 511) (htwo : 2 ≤ b.queue.hsize.toNat)
    (hle : b.queue.hsize.toNat ≤ 256) :
    (b.merge p).Twins p p' (b'.merge p') ∧ (b.merge p).k = b.k + 1 ∧
      (b.merge p).queue.hsize.toNat + 1 = b.queue.hsize.toNat := by
  have hnonempty : ∀ q : Queue, 1 ≤ q.hsize.toNat → q.hsize ≠ 0#16 := fun q hpos h0 => by simp [h0] at hpos
  obtain ⟨x, r, r', hx, hx', hr, hsize⟩ := w.queue.removeMin (hnonempty _ (by omega))
  obtain ⟨y, u, u', hy, hy', hu, hsize'⟩ := hr.removeMin (hnonempty _ (by omega))
  have hk_le := w.hsize_le
  have wu : Builder.Twins p p' { b with queue := u } { b' with queue := u' } :=
    ⟨hu, w.k, show u.hsize.toNat ≤ b.k by omega, w.node⟩
  obtain ⟨htwins, hadd⟩ := wu.add hp hp' hk (show u.hsize.toNat < 256 by omega) (x.prio + y.prio)
    (.internal (x.prio + y.prio) (handleOfPay x.pay) (handleOfPay y.pay))
  simp only [Builder.merge, hx, hx', hy, hy']
  exact ⟨htwins, rfl, by rw [hadd]; show u.hsize.toNat + 1 + 1 = _; omega⟩

theorem Builder.Twins.buildMerge (fuel : Nat) (w : b.Twins p p' b') (hk : b.k + b.queue.hsize.toNat ≤ 512)
    (hle : b.queue.hsize.toNat ≤ 256) : (buildMerge p fuel b).Twins p p' (buildMerge p' fuel b') := by
  induction fuel generalizing b b' with
  | zero => exact w
  | succ fuel ih =>
    rw [Machine.buildMerge, Machine.buildMerge, w.queue.hsize]
    split
    · next htwo =>
      obtain ⟨htwins, hk', hsize⟩ := w.merge hp hp' (by omega) htwo hle
      exact ih htwins (by omega) (by omega)
    · exact w

end

/-- Phase 3 writes the same TREE (R146). -/
theorem Builder.Twins.buildFinish {p p' : Params} {b b' : Builder} (w : b.Twins p p' b') (n : Nat) :
    (buildFinish n b').2 = (buildFinish n b).2 := by
  unfold Machine.buildFinish
  split
  · rfl
  · by_cases hne : b.queue.hsize = 0#16
    · rw [Queue.removeMin_empty _ hne, Queue.removeMin_empty _ (w.queue.hsize.trans hne)]
    · obtain ⟨e, r, r', hrem, hrem', -⟩ := w.queue.removeMin hne
      rw [hrem, hrem', w.k]

theorem buildFinish_nnode_le (n : Nat) (b : Builder) : (buildFinish n b).2.nnode.toNat ≤ b.k := by
  unfold buildFinish
  split
  · exact Nat.zero_le _
  · split
    · exact Nat.zero_le _
    · exact (BitVec.toNat_ofNat _ _).le.trans (Nat.mod_le _ _)

/-! ### The code table -/

/-- The walk reads only the nodes below the one it starts from. -/
theorem walk_congr {node node' : Vector NodeEntry 511} {n : Nat} (hnode : ∀ h, h < n → nodeAt node' h = nodeAt node h)
    (hlow : ∀ h w l r, h < n → nodeAt node h = .internal w l r → l.toNat < h ∧ r.toNat < h) (fuel : Nat) (h : Handle)
    (hh : h.toNat < n) (path : CodeBits) (len : BitVec 9) (ct : Vector CtEntry 256) :
    walk node' fuel h path len ct = walk node fuel h path len ct := by
  induction fuel generalizing h path len ct with
  | zero => rfl
  | succ fuel ih =>
    rw [walk, walk, hnode _ hh]
    cases hat : nodeAt node h.toNat with
    | leaf w y => rfl
    | internal w l r =>
      obtain ⟨hl, hr⟩ := hlow _ w l r hh hat
      simp only [ih l (by omega), ih r (by omega)]

theorem genCodes_congr {node node' : Vector NodeEntry 511} {n : Nat} (hnode : ∀ h, h < n → nodeAt node' h = nodeAt node h)
    (hlow : ∀ h w l r, h < n → nodeAt node h = .internal w l r → l.toNat < h ∧ r.toNat < h) {root : Handle} {nleaf : Nat}
    (hroot : nleaf ≠ 0 → root.toNat < n) : genCodes node' root nleaf = genCodes node root nleaf := by
  unfold genCodes
  by_cases h0 : nleaf = 0
  · rw [if_pos h0, if_pos h0]
  · rw [if_neg h0, if_neg h0, walk_congr hnode hlow _ _ (hroot h0), symAt, symAt, hnode _ (hroot h0)]

/-- Children have smaller handles than their parent (R147). -/
theorem State.TreeOk.children_lt {s : State} (hs : s.TreeOk) {k : Nat} {w : Weight} {l r : Handle}
    (hk : k < s.nnode.toNat) (hat : nodeAt s.node k = .internal w l r) : l.toNat < k ∧ r.toNat < k := by
  by_cases hn : (presentSymbols s.freq).length ≤ k
  · obtain ⟨_, _, _, hat', hl, hr, -⟩ := hs.internals k hn hk
    rw [hat, NodeEntry.internal.injEq] at hat'
    obtain ⟨-, rfl, rfl⟩ := hat'
    exact ⟨hl, hr⟩
  · have hleaf := hs.leaves k _ (List.getElem?_eq_getElem (Nat.lt_of_not_le hn))
    simp [hat] at hleaf

/-! ### BUILD -/

/-- BUILD after phase 1. -/
def State.leafBuilder (s : State) : Builder :=
  buildLeaves s.params s.freq { queue := s.queue.fresh s.params, node := s.node, k := 0 }

/-- BUILD after phase 2. -/
def State.mergedBuilder (s : State) : Builder :=
  buildMerge s.params s.leafBuilder.queue.hsize.toNat s.leafBuilder

theorem State.buildTables_eq (s : State) : s.buildTables = { s with
    queue := (buildFinish s.leafBuilder.k s.mergedBuilder).1
    node := s.mergedBuilder.node
    root := (buildFinish s.leafBuilder.k s.mergedBuilder).2.root
    rootNone := (buildFinish s.leafBuilder.k s.mergedBuilder).2.rootNone
    nleaf := (buildFinish s.leafBuilder.k s.mergedBuilder).2.nleaf
    nnode := (buildFinish s.leafBuilder.k s.mergedBuilder).2.nnode
    ct := genCodes s.mergedBuilder.node (buildFinish s.leafBuilder.k s.mergedBuilder).2.root s.leafBuilder.k
    built := true } := rfl

theorem State.leafBuilder_k {s : State} (hs : s.BuildReady) : s.leafBuilder.k = (presentSymbols s.freq).length :=
  have ⟨_, _, hk, _⟩ := buildLeaves_spec hs.params_wf s.freq s.queue hs.slots_length s.node
  hk

section
variable {s s' : State} (hs : s.BuildReady) (hs' : s'.BuildReady) (hfreq : s.freq = s'.freq)
include hs hs' hfreq

theorem State.leafBuilder_twins : s.leafBuilder.Twins s.params s'.params s'.leafBuilder := by
  have hle := length_presentSymbols_le s.freq
  have hfresh := Builder.fresh_twins hs.params_wf hs'.params_wf hs.slots_length hs'.slots_length s.node s'.node
  unfold State.leafBuilder
  rw [← hfreq]
  exact hfresh.foldl_addLeaf hs.params_wf hs'.params_wf s.freq allSymbols (by simpa [presentSymbols] using hle)

theorem State.mergedBuilder_twins : s.mergedBuilder.Twins s.params s'.params s'.mergedBuilder := by
  have hle := length_presentSymbols_le s.freq
  have hk := State.leafBuilder_k hs
  have w := State.leafBuilder_twins hs hs' hfreq
  have hsize := w.hsize_le
  rw [State.mergedBuilder, State.mergedBuilder, w.queue.hsize]
  exact w.buildMerge hs.params_wf hs'.params_wf _ (by omega) (by omega)

/-- Two ready BUILDs of one table make the same nodes, the same TREE and the same code table (R158). -/
theorem State.buildTables_congr :
    (∀ h, h < s.buildTables.nnode.toNat → nodeAt s'.buildTables.node h = nodeAt s.buildTables.node h) ∧
      s'.buildTables.ct = s.buildTables.ct ∧ s'.buildTables.treeWord = s.buildTables.treeWord := by
  have hk : s'.leafBuilder.k = s.leafBuilder.k := (State.leafBuilder_twins hs hs' hfreq).k
  have w := State.mergedBuilder_twins hs hs' hfreq
  have hfin := w.buildFinish s.leafBuilder.k
  have htree := State.buildTables_treeOk hs
  have hnode : ∀ h, h < s.buildTables.nnode.toNat → nodeAt s'.buildTables.node h = nodeAt s.buildTables.node h :=
    fun h hh => w.node h (hh.trans_le (buildFinish_nnode_le _ _))
  have hroot : s.leafBuilder.k ≠ 0 → s.buildTables.root.toNat < s.buildTables.nnode.toNat := by
    have hroot := htree.root_eq
    have hnnode := htree.nnode_eq
    rw [State.buildTables_freq] at hroot hnnode
    rw [State.leafBuilder_k hs]
    omega
  refine ⟨hnode, ?_, ?_⟩
  · have hct := genCodes_congr hnode (fun h v l r hh hat => htree.children_lt hh hat) hroot
    have hctR : s'.buildTables.ct = genCodes s'.buildTables.node s.buildTables.root s.leafBuilder.k := by
      simp only [State.buildTables_eq, hk, hfin]
    rw [hctR, hct]
    rfl
  · simp only [State.treeWord, State.buildTables_eq, hk, hfin]

end

/-- Settles O33. -/
theorem buildDependsOnFreqAlone : Obligations.BuildDependsOnFreqAlone := by
  intro s s' hs hs' hfreq
  obtain ⟨hnode, hct, htree⟩ := State.buildTables_congr hs hs' hfreq
  exact ⟨_, _, execBuild_of_ready hs, execBuild_of_ready hs', hct.symm, htree.symm, fun h hh => (hnode h hh).symm⟩

end Sys2Proof.Machine
end

section
/-! PROOFS. The built code is optimal (spec/41_huffman_tree_builder.md R162). Every `PrefixFree` code gives the handles
in the queue lengths that satisfy Kraft's inequality; a merge turns such lengths into lengths for the handles after it,
and what they cost falls by at least the weight of the node it makes. -/

namespace Sys2Proof.Machine

open Sys2Proof

/-! ### Code lengths and what they cost -/

/-- Kraft's inequality for the code lengths `l` of the members of S. -/
def KraftLe (S : Finset Nat) (l : Nat → Nat) : Prop := ∑ i ∈ S, (1 / 2 : ℝ) ^ l i ≤ 1

/-- The weighted length of the members of S. -/
def lengthCost (S : Finset Nat) (w l : Nat → Nat) : Nat := ∑ i ∈ S, w i * l i

section
variable {S : Finset Nat} {a b : Nat} (ha : a ∈ S) (hb : b ∈ S)
include ha hb

theorem swap_mem_iff (i : Nat) : i ∈ S ↔ Equiv.swap a b i ∈ S := by
  rw [Equiv.swap_apply_def]
  split
  · next h => simp [h, ha, hb]
  · split
    · next h => simp [h, ha, hb]
    · rfl

theorem KraftLe.swap {l : Nat → Nat} (h : KraftLe S l) : KraftLe S (l ∘ Equiv.swap a b) := by
  refine (Finset.sum_equiv (Equiv.swap a b) (swap_mem_iff ha hb) fun i _ => ?_).trans_le h
  rfl

/-- The lighter of two members may take the longer of their two codes. -/
theorem lengthCost_swap_le {w l : Nat → Nat} (hw : w a ≤ w b) (hl : l a ≤ l b) :
    lengthCost S w (l ∘ Equiv.swap a b) ≤ lengthCost S w l := by
  rcases eq_or_ne a b with rfl | hne
  · simp
  · have hb' : b ∈ S.erase a := Finset.mem_erase.2 ⟨hne.symm, hb⟩
    have hrest : ∑ i ∈ (S.erase a).erase b, w i * (l ∘ Equiv.swap a b) i = ∑ i ∈ (S.erase a).erase b, w i * l i :=
      Finset.sum_congr rfl fun i hi => by
        obtain ⟨hib, hia, -⟩ := by simpa only [Finset.mem_erase] using hi
        rw [Function.comp_apply, Equiv.swap_apply_of_ne_of_ne hia hib]
    unfold lengthCost
    rw [← Finset.add_sum_erase _ _ ha, ← Finset.add_sum_erase _ _ hb', ← Finset.add_sum_erase S _ ha,
      ← Finset.add_sum_erase (S.erase a) _ hb', hrest]
    simp only [Function.comp_apply, Equiv.swap_apply_left, Equiv.swap_apply_right, ← Nat.add_assoc]
    exact Nat.add_le_add_right (mul_add_mul_le_mul_add_mul hw hl) _

end

/-- The lightest member of a part T of S may have the longest code in T: some member's of T. -/
theorem exists_longest {S T : Finset Nat} {w l : Nat → Nat} {a : Nat} (hTS : T ⊆ S) (ha : a ∈ T)
    (hmin : ∀ i, i ∈ T → w a ≤ w i) (hl : KraftLe S l) :
    ∃ l', KraftLe S l' ∧ lengthCost S w l' ≤ lengthCost S w l ∧ (∀ i, i ∈ T → l' i ≤ l' a) ∧
      (∃ b, b ∈ T ∧ l' a = l b) ∧ ∀ i, i ∉ T → l' i = l i := by
  obtain ⟨b, hb, hmax⟩ := Finset.exists_max_image T l ⟨a, ha⟩
  refine ⟨l ∘ Equiv.swap a b, hl.swap (hTS ha) (hTS hb),
    lengthCost_swap_le (hTS ha) (hTS hb) (hmin b hb) (hmax a ha), fun i hi => ?_, ⟨b, hb, by simp⟩, fun i hi => ?_⟩
  · rw [Function.comp_apply, Function.comp_apply, Equiv.swap_apply_left]
    exact hmax _ ((swap_mem_iff ha hb i).1 hi)
  · rw [Function.comp_apply, Equiv.swap_apply_of_ne_of_ne (fun h : i = a => hi (h ▸ ha)) fun h : i = b => hi (h ▸ hb)]

/-- Kraft's sum of lengths of at most n is a whole number of times 2^-n. -/
theorem sum_half_pow {R : Finset Nat} {l : Nat → Nat} {n : Nat} (hn : ∀ i, i ∈ R → l i ≤ n) :
    ∑ i ∈ R, (1 / 2 : ℝ) ^ l i = ((∑ i ∈ R, 2 ^ (n - l i) : Nat) : ℝ) * (1 / 2) ^ n := by
  rw [Nat.cast_sum, Finset.sum_mul]
  refine Finset.sum_congr rfl fun i hi => ?_
  obtain ⟨d, hd⟩ := Nat.exists_eq_add_of_le (hn i hi)
  rw [hd, Nat.add_sub_cancel_left, pow_add]
  push_cast
  rw [mul_left_comm, ← mul_pow]
  norm_num

/-- Two longest codes leave room for one that is a bit shorter than the second of them: all the others being at most as
long as that one, Kraft's sum leaves a whole number of times its share. -/
theorem exists_shorter {R : Finset Nat} {l : Nat → Nat} {n : Nat} (hn : ∀ i, i ∈ R → l i ≤ n) {v : ℝ} (hv : 0 < v)
    (hkraft : v + ((1 / 2) ^ n + ∑ i ∈ R, (1 / 2 : ℝ) ^ l i) ≤ 1) :
    ∃ m, n = m + 1 ∧ (1 / 2) ^ m + ∑ i ∈ R, (1 / 2 : ℝ) ^ l i ≤ 1 := by
  rw [sum_half_pow hn] at hkraft ⊢
  generalize ∑ i ∈ R, 2 ^ (n - l i) = q at hkraft ⊢
  have hunit : (2 : ℝ) ^ n * (1 / 2) ^ n = 1 := by rw [← mul_pow]; norm_num
  have hpos : (0 : ℝ) < (1 / 2) ^ n := by positivity
  have hlt : q + 1 < 2 ^ n := by
    have hreal : ((q : ℝ) + 1) * (1 / 2) ^ n < 2 ^ n * (1 / 2) ^ n := by rw [hunit]; linarith
    exact_mod_cast lt_of_mul_lt_mul_right hreal hpos.le
  obtain ⟨m, rfl⟩ : ∃ m, n = m + 1 := Nat.exists_eq_succ_of_ne_zero (by rintro rfl; simp at hlt)
  refine ⟨m, rfl, ?_⟩
  have hle : ((q : ℝ) + 2) * (1 / 2) ^ (m + 1) ≤ 2 ^ (m + 1) * (1 / 2) ^ (m + 1) :=
    mul_le_mul_of_nonneg_right (by exact_mod_cast hlt) hpos.le
  rw [hunit] at hle
  have hhalf : (1 / 2 : ℝ) ^ m = 2 * (1 / 2) ^ (m + 1) := by rw [pow_succ]; ring
  linarith

/-- Where x and y are the two lightest, the member k that stands for both may have a code a bit shorter than theirs, and
the cost falls by at least their weight. -/
theorem exists_merged_lengths {R : Finset Nat} {w w' l : Nat → Nat} {x y k : Nat} (hxy : x ≠ y) (hx : x ∉ R) (hy : y ∉ R)
    (hk : k ∉ R) (hfirst : w x ≤ w y) (hsecond : ∀ i, i ∈ R → w y ≤ w i) (hwk : w' k = w x + w y)
    (hw' : ∀ i, i ∈ R → w' i = w i) (hl : KraftLe (insert x (insert y R)) l) :
    ∃ l', KraftLe (insert k R) l' ∧
      lengthCost (insert k R) w' l' + (w x + w y) ≤ lengthCost (insert x (insert y R)) w l := by
  have hx' : x ∉ insert y R := by simp [hxy, hx]
  have hmin : ∀ i, i ∈ insert x (insert y R) → w x ≤ w i := by
    simp only [Finset.mem_insert]
    rintro i (rfl | rfl | hi)
    · exact le_refl _
    · exact hfirst
    · exact hfirst.trans (hsecond i hi)
  obtain ⟨l₁, hl₁, hcost₁, hmax₁, -, -⟩ :=
    exists_longest (Finset.Subset.refl _) (Finset.mem_insert_self x _) hmin hl
  obtain ⟨l₂, hl₂, hcost₂, hmax₂, ⟨b, hb, hlb⟩, hrest₂⟩ :=
    exists_longest (w := w) (Finset.subset_insert x (insert y R)) (Finset.mem_insert_self y R) (fun i hi => by
      rcases Finset.mem_insert.1 hi with rfl | hi
      · exact le_refl _
      · exact hsecond i hi) hl₁
  have hyx : l₂ y ≤ l₂ x := by
    rw [hlb, hrest₂ x hx']
    exact hmax₁ b (Finset.mem_insert_of_mem hb)
  rw [KraftLe, Finset.sum_insert hx', Finset.sum_insert hy] at hl₂
  obtain ⟨m, hm, hkraft⟩ := exists_shorter (fun i hi => hmax₂ i (Finset.mem_insert_of_mem hi))
    (show (0 : ℝ) < (1 / 2) ^ l₂ x by positivity) hl₂
  have hupdate : ∀ i, i ∈ R → Function.update l₂ k m i = l₂ i := fun i hi =>
    Function.update_of_ne (fun h : i = k => hk (h ▸ hi)) _ _
  refine ⟨Function.update l₂ k m, ?_, ?_⟩
  · rw [KraftLe, Finset.sum_insert hk, Function.update_self, Finset.sum_congr rfl fun i hi => by rw [hupdate i hi]]
    exact hkraft
  · have hcost := hcost₂.trans hcost₁
    refine le_trans ?_ hcost
    rw [lengthCost, lengthCost, Finset.sum_insert hk, Finset.sum_insert hx', Finset.sum_insert hy, Function.update_self,
      hwk, Finset.sum_congr rfl fun i hi => by rw [hw' i hi, hupdate i hi], hm]
    have hxm : w x * (m + 1) ≤ w x * l₂ x := Nat.mul_le_mul_left _ (hm ▸ hyx)
    linarith

/-! ### Prefix codes satisfy Kraft's inequality -/

/-- A set of non-empty words none of which begins another is uniquely decodable. -/
theorem uniquelyDecodable_of_prefixFree {S : Set (List Bool)} (hne : [] ∉ S)
    (hfree : ∀ a b, a ∈ S → b ∈ S → a.IsPrefix b → a = b) : InformationTheory.UniquelyDecodable S := by
  have hnil : ∀ L : List (List Bool), (∀ w ∈ L, w ∈ S) → L.flatten = [] → L = [] := by
    intro L hL hflat
    cases L with
    | nil => rfl
    | cons a L =>
      rw [List.flatten_cons, List.append_eq_nil_iff] at hflat
      exact absurd (hflat.1 ▸ hL a List.mem_cons_self) hne
  intro L₁
  induction L₁ with
  | nil => exact fun L₂ _ h₂ hflat => (hnil L₂ h₂ hflat.symm).symm
  | cons a L₁ ih =>
    intro L₂ h₁ h₂ hflat
    cases L₂ with
    | nil => exact hnil _ h₁ hflat
    | cons b L₂ =>
      have ha := h₁ a List.mem_cons_self
      have hb := h₂ b List.mem_cons_self
      rw [List.flatten_cons, List.flatten_cons] at hflat
      have hab : a = b := by
        rcases List.prefix_or_prefix_of_prefix (List.prefix_append a L₁.flatten) (hflat ▸ List.prefix_append b L₂.flatten)
          with h | h
        · exact hfree a b ha hb h
        · exact (hfree b a hb ha h).symm
      subst hab
      rw [ih L₂ (fun w hw => h₁ w (List.mem_cons_of_mem _ hw)) (fun w hw => h₂ w (List.mem_cons_of_mem _ hw))
        (List.append_cancel_left hflat)]

/-- Kraft's inequality for a `PrefixFree` code on two symbols or more. -/
theorem kraft_of_prefixFree {ys : List Symbol} (hnd : ys.Nodup) (htwo : 2 ≤ ys.length) {c : Symbol → List Bool}
    (hfree : ∀ y z, y ∈ ys → z ∈ ys → y ≠ z → ¬ (c y).IsPrefix (c z)) :
    (ys.map fun y => (1 / 2 : ℝ) ^ (c y).length).sum ≤ 1 := by
  have hinj : Set.InjOn c ys.toFinset := fun y hy z hz heq => by
    by_contra hne
    exact hfree y z (by simpa using hy) (by simpa using hz) hne (heq ▸ List.prefix_refl _)
  have hud : InformationTheory.UniquelyDecodable (ys.toFinset.image c : Set (List Bool)) := by
    refine uniquelyDecodable_of_prefixFree ?_ ?_
    · simp only [Finset.mem_coe, Finset.mem_image, List.mem_toFinset, not_exists, not_and]
      intro y hy hnil
      obtain ⟨z, hz, hne⟩ : ∃ z, z ∈ ys ∧ z ≠ y := by
        by_contra hall
        push Not at hall
        have := (List.subperm_of_subset hnd (l₂ := [y]) fun z hz => by simp [hall z hz]).length_le
        simp at this
        omega
      exact hfree y z hy hz hne.symm (hnil ▸ List.nil_prefix)
    · simp only [Finset.mem_coe, Finset.mem_image, List.mem_toFinset]
      rintro _ _ ⟨y, hy, rfl⟩ ⟨z, hz, rfl⟩ hp
      by_contra hne
      exact hfree y z hy hz (fun h => hne (h ▸ rfl)) hp
  have hkraft := InformationTheory.kraft_mcmillan_inequality hud
  rw [Finset.sum_image hinj, List.sum_toFinset _ hnd] at hkraft
  simpa using hkraft

/-! ### What a tree costs -/

/-- The sum of the counts at a tree's leaves. -/
def CodeTree.weight (freq : Vector Count 256) (t : CodeTree) : Nat := (t.codes.map fun c => (freqOf freq c.1).toNat).sum

/-- The weighted length of a tree's codes. -/
def CodeTree.cost (freq : Vector Count 256) (t : CodeTree) : Nat :=
  (t.codes.map fun c => (freqOf freq c.1).toNat * c.2.length).sum

theorem CodeTree.weight_node (freq : Vector Count 256) (l r : CodeTree) :
    (CodeTree.node l r).weight freq = l.weight freq + r.weight freq := by
  simp [CodeTree.weight, CodeTree.codes, Function.comp_def]

/-- Under one more node every code is a bit longer. -/
theorem CodeTree.cost_node (freq : Vector Count 256) (l r : CodeTree) :
    (CodeTree.node l r).cost freq = l.cost freq + r.cost freq + (l.weight freq + r.weight freq) := by
  simp only [CodeTree.cost, CodeTree.weight, CodeTree.codes, List.map_append, List.map_map, List.sum_append,
    Function.comp_def, List.length_cons, Nat.mul_add, Nat.mul_one, List.sum_map_add]
  omega

/-- WEIGHT of a node of the forest is the sum of the counts below it (R156). -/
theorem Forest.weight_of_spells {freq : Vector Count 256} {b : Builder} {hs : List Nat} (f : Forest freq b hs)
    {t : CodeTree} {h : Nat} (hh : h < b.k) (ht : Spells b.node h t) :
    (nodeAt b.node h).weight.toNat = t.weight freq := by
  induction t generalizing h with
  | leaf y =>
    obtain ⟨w, hat⟩ := ht
    by_cases hn : h < (presentSymbols freq).length
    · have hleaf := f.leaves h _ (List.getElem?_eq_getElem hn)
      rw [hat, NodeEntry.leaf.injEq] at hleaf
      rw [hat, NodeEntry.weight, hleaf.1, ← hleaf.2, weightOfCount_toNat]
      simp [CodeTree.weight, CodeTree.codes]
    · obtain ⟨_, _, _, hint, -⟩ := f.internals h (by omega) hh
      simp [hat] at hint
  | node l r ihl ihr =>
    obtain ⟨w, i, j, hat, hl, hr⟩ := ht
    obtain ⟨hi, hj⟩ := f.children_lt hh hat
    by_cases hn : h < (presentSymbols freq).length
    · have hleaf := f.leaves h _ (List.getElem?_eq_getElem hn)
      simp [hat] at hleaf
    · obtain ⟨_, _, _, hint, -, -, -, hsum⟩ := f.internals h (by omega) hh
      rw [hat, NodeEntry.internal.injEq] at hint
      obtain ⟨rfl, rfl, rfl⟩ := hint
      rw [hat, NodeEntry.weight, hsum, ihl (hi.trans hh) hl, ihr (hj.trans hh) hr, CodeTree.weight_node]

/-! ### The bound that every merge keeps -/

/-- The weight of the node of handle h. -/
def Builder.weightAt (b : Builder) (h : Nat) : Nat := (nodeAt b.node h).weight.toNat

/-- BUILD at work on the handles `hs` may still end at a tree that costs W or less: its trees, with code lengths for their
roots that satisfy Kraft's inequality, cost no more. -/
def Bounded (freq : Vector Count 256) (W : Nat) (b : Builder) (hs : List Nat) : Prop :=
  ∃ (tree : Nat → CodeTree) (l : Nat → Nat), (∀ h, h ∈ hs → Spells b.node h (tree h)) ∧ KraftLe hs.toFinset l ∧
    lengthCost hs.toFinset b.weightAt l + ∑ h ∈ hs.toFinset, (tree h).cost freq ≤ W

/-- A merge keeps the bound: the new tree costs its weight more than the two under it, and the lengths cost that less. -/
theorem Bounded.merge {freq : Vector Count 256} {W : Nat} {b b' : Builder} {hs hs' : List Nat} {x y : Nat}
    (B : Bounded freq W b hs) (f : Forest freq b hs) (m : Merges b hs x y hs' b') :
    Bounded freq W b' (b.k :: hs') := by
  obtain ⟨tree, l, hsp, hkraft, hle⟩ := B
  obtain ⟨hxy, hx, hy⟩ := m.nodup_taken
  have hmem : ∀ h, h ∈ hs' → h ∈ hs := fun h hh => (m.mem_iff h).2 (.inr (.inr hh))
  have hxm : x ∈ hs := (m.mem_iff x).2 (.inl rfl)
  have hym : y ∈ hs := (m.mem_iff y).2 (.inr (.inl rfl))
  have hfresh : b.k ∉ hs' := fun h => Nat.lt_irrefl _ (m.used _ (hmem _ h))
  have hset : hs.toFinset = insert x (insert y hs'.toFinset) := by
    rw [List.toFinset_eq_of_perm _ _ m.perm, List.toFinset_cons, List.toFinset_cons]
  have hkeep : ∀ h, h ∈ hs → Spells b'.node h (tree h) := fun h hh =>
    m.node ▸ Spells.setNode m.room (fun i w l r hi => f.children_lt hi) _ (m.used h hh) (hsp h hh)
  have hrest : ∀ h, h ∈ hs' → Function.update tree b.k (.node (tree x) (tree y)) h = tree h := fun h hh =>
    Function.update_of_ne (fun heq : h = b.k => hfresh (heq ▸ hh)) _ _
  have hwx : b.weightAt x = (tree x).weight freq := f.weight_of_spells (m.used x hxm) (hsp x hxm)
  have hwy : b.weightAt y = (tree y).weight freq := f.weight_of_spells (m.used y hym) (hsp y hym)
  rw [hset] at hkraft hle
  obtain ⟨l', hkraft', hcost⟩ := exists_merged_lengths (w := b.weightAt) (w' := b'.weightAt) (k := b.k) hxy
    (by simpa using hx) (by simpa using hy) (by simpa using hfresh) (BitVec.le_def.1 (m.first y hym))
    (fun i hi => BitVec.le_def.1 (m.second i (by simpa using hi))) (f.weight_new m)
    (fun i hi => by rw [Builder.weightAt, m.nodeAt_old (m.used i (hmem i (by simpa using hi)))]; rfl) hkraft
  refine ⟨Function.update tree b.k (.node (tree x) (tree y)), l', fun h hh => ?_, ?_, ?_⟩
  · rcases List.mem_cons.1 hh with rfl | hh
    · rw [Function.update_self]
      exact ⟨_, _, _, m.nodeAt_new, by rw [m.x_toNat]; exact hkeep x hxm, by rw [m.y_toNat]; exact hkeep y hym⟩
    · rw [hrest h hh]
      exact hkeep h (hmem h hh)
  · rwa [List.toFinset_cons]
  · rw [Finset.sum_insert (by simp [hxy, hx]), Finset.sum_insert (by simpa using hy)] at hle
    rw [List.toFinset_cons, Finset.sum_insert (by simpa using hfresh), Function.update_self, CodeTree.cost_node,
      Finset.sum_congr rfl fun h hh => by rw [hrest h (by simpa using hh)]]
    omega

/-- With one tree left, that tree costs no more than the bound. -/
theorem Bounded.cost_le {freq : Vector Count 256} {W : Nat} {b : Builder} {r : Nat} (B : Bounded freq W b [r])
    {t : CodeTree} (ht : Spells b.node r t) : t.cost freq ≤ W := by
  obtain ⟨tree, l, hsp, -, hle⟩ := B
  rw [Spells.unique ht (hsp r (List.mem_singleton_self r))]
  simp only [List.toFinset_cons, List.toFinset_nil, insert_empty_eq, Finset.sum_singleton] at hle
  omega

/-! ### The start: any `PrefixFree` code is a bound -/

/-- The length of the code of a Leaf's symbol. -/
def NodeEntry.codeLength (c : Symbol → List Bool) : NodeEntry → Nat
  | .leaf _ y => (c y).length
  | .internal _ _ _ => 0

/-- Symbols without a count add nothing to a weighted length. -/
theorem weightedLength_eq (freq : Vector Count 256) (c : Symbol → List Bool) :
    weightedLength freq c = ((presentSymbols freq).map fun y => (freqOf freq y).toNat * (c y).length).sum :=
  (sum_map_filter_of_zero _ _ _ (by simp +contextual)).symm

/-- Phase 1 leaves the bound of any `PrefixFree` code. -/
theorem Bounded.start {p : Params} {freq : Vector Count 256} {b : Builder} {hs : List Nat} (h : b.Holds p hs)
    (htwo : 2 ≤ (presentSymbols freq).length) (hk : b.k = (presentSymbols freq).length)
    (hlen : hs.length = (presentSymbols freq).length)
    (hl : ∀ j y, (presentSymbols freq)[j]? = some y → nodeAt b.node j = .leaf (weightOfCount (freqOf freq y)) y)
    {c : Symbol → List Bool}
    (hfree : ∀ y z, y ∈ presentSymbols freq → z ∈ presentSymbols freq → y ≠ z → ¬ (c y).IsPrefix (c z)) :
    Bounded freq (weightedLength freq c) b hs := by
  have hperm : hs.Perm (List.range (presentSymbols freq).length) :=
    hlen ▸ perm_range_of_nodup h.nodup fun i hi => by have := h.used i hi; omega
  obtain ⟨tree, hsp, -⟩ := Spelled.start h hk hlen hl
  refine ⟨tree, fun i => (nodeAt b.node i).codeLength c, hsp, ?_, ?_⟩
  · rw [KraftLe, List.sum_toFinset _ h.nodup, (hperm.map _).sum_eq,
      map_range_leaves hl fun e => (1 / 2 : ℝ) ^ e.codeLength c]
    exact kraft_of_prefixFree (nodup_presentSymbols freq) htwo hfree
  · have hcost : ∀ i, i ∈ hs.toFinset → (tree i).cost freq = 0 := by
      intro i hi
      have hi' : i ∈ hs := by simpa using hi
      have hlt : i < (presentSymbols freq).length := List.mem_range.1 (hperm.mem_iff.1 hi')
      have hleaf : tree i = .leaf _ := (hsp i hi').unique ⟨_, hl i _ (List.getElem?_eq_getElem hlt)⟩
      simp [hleaf, CodeTree.cost, CodeTree.codes]
    have hlengths : lengthCost hs.toFinset b.weightAt (fun i => (nodeAt b.node i).codeLength c) =
        weightedLength freq c := by
      rw [lengthCost, List.sum_toFinset _ h.nodup, (hperm.map _).sum_eq]
      refine (congrArg _ (map_range_leaves hl fun e => e.weight.toNat * e.codeLength c)).trans ?_
      simp only [NodeEntry.weight, NodeEntry.codeLength, weightOfCount_toNat, weightedLength_eq]
    rw [Finset.sum_eq_zero hcost, hlengths, Nat.add_zero]

/-! ### O32 -/

/-- Phase 2 brings the bound of any `PrefixFree` code down to the one tree. -/
theorem State.mergedBuilder_bounded {s : State} (hs : s.BuildReady) (htwo : 2 ≤ (presentSymbols s.freq).length)
    {c : Symbol → List Bool}
    (hfree : ∀ y z, y ∈ presentSymbols s.freq → z ∈ presentSymbols s.freq → y ≠ z → ¬ (c y).IsPrefix (c z)) :
    Bounded s.freq (weightedLength s.freq c) s.mergedBuilder [2 * (presentSymbols s.freq).length - 2] := by
  have hle := length_presentSymbols_le s.freq
  obtain ⟨hs₀, hold, hk, hlen, hleaf⟩ := buildLeaves_spec hs.params_wf s.freq s.queue hs.slots_length s.node
  have hforest := Forest.start hold (by omega) hk hlen hleaf
  have hbound := Bounded.start hold htwo hk hlen hleaf hfree
  obtain ⟨r, -, -, hf, hb⟩ := buildMerge_induct hs.params_wf
    (P := fun b hs => Forest s.freq b hs ∧ Bounded s.freq (weightedLength s.freq c) b hs)
    (fun b hs x y hs' hh hroom ih hperm h1 h2 hnode hk =>
      have m : Merges b hs x y hs' (b.merge s.params) := ⟨hroom, hh.nodup, hh.used, hperm, h1, h2, hnode, hk⟩
      ⟨ih.1.merge m, ih.2.merge ih.1 m⟩)
    s.leafBuilder.queue.hsize.toNat s.leafBuilder hs₀ hold (by omega) (by omega)
    (by rw [State.leafBuilder, hold.hsize]; omega) (by rw [State.leafBuilder, hk]; omega) ⟨hforest, hbound⟩
  have hroot := hf.root_eq
  have hcount := hf.count
  rw [List.length_singleton] at hcount
  rwa [show r = 2 * (presentSymbols s.freq).length - 2 by omega] at hb

theorem State.CodesTree.cost_le {s : State} {t : CodeTree} (hs : s.BuildReady) (ht : s.buildTables.done.CodesTree t)
    {c : Symbol → List Bool} (hfree : PrefixFree s.buildTables.done.hasCode c) :
    t.cost s.freq ≤ weightedLength s.freq c := by
  have htwo : 2 ≤ (presentSymbols s.freq).length := ht.two
  have hroot : s.buildTables.root.toNat = 2 * (presentSymbols s.freq).length - 2 := (State.buildTables_treeOk hs).root_eq
  have hspells : Spells s.mergedBuilder.node s.buildTables.root.toNat t := ht.spells
  rw [hroot] at hspells
  refine (State.mergedBuilder_bounded hs htwo fun y z hy hz hne => hfree y z hne ?_ ?_).cost_le hspells
  · exact (ht.hasCodes.hasCode_iff y).2 ((mem_presentSymbols _ _).1 hy)
  · exact (ht.hasCodes.hasCode_iff z).2 ((mem_presentSymbols _ _).1 hz)

theorem State.HasCodes.weightedLength {s : State} {cs : List (Symbol × List Bool)} (hc : s.HasCodes cs) :
    weightedLength s.freq s.codeOf = (cs.map fun c => (freqOf s.freq c.1).toNat * c.2.length).sum := by
  rw [weightedLength_eq, ← (hc.symbols.map _).sum_eq, List.map_map]
  congr 1
  exact List.map_congr_left fun c h => by rw [Function.comp_apply, hc.codeOf_of_mem (y := c.1) h]

/-- Settles O32: two symbols or more by the bound that merges keep, one symbol because its code has one bit. -/
theorem builtCodeIsOptimal : Obligations.BuiltCodeIsOptimal := by
  intro s hs
  obtain ⟨t, ht, hfreq, ⟨hnil, -⟩ | ⟨y, hy, hc⟩ | ⟨htwo, u, hu⟩⟩ := build_hasCodes hs
  · exact ⟨t, ht, fun htwo => by simp [hnil] at htwo, fun hone => by simp [hnil] at hone⟩
  · refine ⟨t, ht, fun htwo => by simp [hy] at htwo, fun _ c hlen => ?_⟩
    have hcy := hlen y (hc.hasCode_of_mem (List.mem_singleton_self _))
    rw [← hfreq, hc.weightedLength, weightedLength_eq, hfreq, hy]
    simpa using Nat.mul_le_mul_left _ hcy
  · refine ⟨t, ht, fun _ => ⟨hu.hasCodes.prefixFree, fun c hfree => ?_⟩, fun hone => by omega⟩
    have hcost : u.cost s.freq ≤ weightedLength s.freq c := by
      cases ht.symm.trans (execBuild_of_ready hs)
      exact State.CodesTree.cost_le hs hu hfree
    have hbuilt := hu.hasCodes.weightedLength
    rw [hfreq] at hbuilt
    exact hbuilt.trans_le hcost

end Sys2Proof.Machine
end

section
/-! PROOFS. The encoder's commands (spec/42_huffman_encoder.md R181 to R184): what ENCODE and STAT_READ complete with, their
failures, and the words of ENCODE_SEQ run one after the other. -/

namespace Sys2Proof.Machine

open Sys2Proof

/-! ### O36, O38: ENCODE -/

theorem exec_encode_unbuilt {s : State} (hb : s.built = false) (sym : Imm16) :
    exec (.encode sym) s = .next { s with err := 1#4 } := by
  rw [exec, execEncode, if_pos (by simp [hb])]
  rfl

theorem State.codeOf_length (s : State) (y : Symbol) : (s.codeOf y).length = (s.ctAt y).len.toNat :=
  codeBits_length (s.ctAt y)

/-- ENCODE of a symbol with a code, in front of a sink that accepts all its bits (R181). -/
theorem exec_encode_of_accepts {s : State} {sym : Imm16} {y : Symbol} (hb : s.built = true)
    (hsym : symbolOf sym = some y) (hcode : s.hasCode y = true) (hsink : s.sink.Accepts (s.codeOf y).length) :
    exec (.encode sym) s = .next { s with
      out := s.out ++ s.codeOf y, sink := s.sink.after (s.codeOf y).length, pending := [], busy := false,
      err := 0#4 } := by
  rw [exec_encode_hasCode hb hsym hcode, State.emit_of_accepts hsink]

/-- Settles O36: the bits emitted are those of the code. -/
theorem encodeEmitsCode : Obligations.EncodeEmitsCode := by
  intro sym y s hname hb hcode hsink
  have hlen := s.codeOf_length y
  refine ⟨s.codeOf y, hlen, codeBits_getElem? (s.ctAt y), ?_⟩
  rw [← hlen] at hsink ⊢
  exact exec_encode_of_accepts hb (symbolOf_of_names hname) hcode hsink

/-- Settles O38. -/
theorem encodeFailsWithoutCode : Obligations.EncodeFailsWithoutCode := fun sym _ =>
  ⟨fun hb => exec_encode_unbuilt hb sym, fun hb hsym => exec_encode_none hb ((symbolOf_eq_none_iff sym).2 hsym),
    fun hb _ hname hcode => exec_encode_noCode hb (symbolOf_of_names hname) hcode⟩

/-! ### O39: STAT_READ -/

/-- The fields of STAT_READ's RESULT: FREQ, LEN, the reserved bits and PRESENT (R91). -/
theorem resultOfStat_fields (e : CtEntry) (c : Count) :
    (resultOfStat e c).extractLsb' 0 32 = c ∧ (resultOfStat e c).extractLsb' 32 9 = e.len ∧
      (resultOfStat e c).extractLsb' 41 22 = 0#22 ∧ (resultOfStat e c).getLsbD 63 = e.present := by
  unfold resultOfStat
  refine ⟨?_, ?_, ?_, by simp only [BitVec.getLsbD_append]; simp⟩
  all_goals
    repeat rw [BitVec.extractLsb'_append_eq_of_le (by decide)]
    exact BitVec.extractLsb'_append_eq_right

/-- Settles O39. -/
theorem statReadReturnsCodeAndCount : Obligations.StatReadReturnsCodeAndCount := fun sym s =>
  ⟨fun hb => exec_statRead_unbuilt hb sym, fun hb hsym => exec_statRead_none hb ((symbolOf_eq_none_iff sym).2 hsym),
    fun hb y hname => ⟨_, exec_statRead_some hb (symbolOf_of_names hname), resultOfStat_fields (s.ctAt y) (s.freqAt y)⟩⟩

/-! ### O40: ENCODE_SEQ -/

/-- ERR after ENCODE of a symbol while BUILT = 1 (R181). -/
def State.encodeError (s : State) (y : Symbol) : BitVec 4 := if s.hasCode y then 0#4 else 3#4

/-- What ENCODEs of symbols, one after the other, leave while BUILT = 1 and the sink accepts everything (R182, R183): ERR
is the last one's. -/
def State.encodeAll (s : State) (ys : List Symbol) : State :=
  { s with err := (ys.getLast?.map s.encodeError).getD s.err, out := s.out ++ ys.flatMap s.emittedFor }

@[simp] theorem State.encodeAll_nil (s : State) : s.encodeAll [] = s := by simp [State.encodeAll]

/-- The first ENCODE changes no code, so the others emit what they would have emitted without it. -/
theorem State.encodeAll_cons (s : State) (y : Symbol) (ys : List Symbol) :
    s.encodeAll (y :: ys) = (s.encodeAll [y]).encodeAll ys := by
  have herror : (s.encodeAll [y]).encodeError = s.encodeError := rfl
  have hemitted : (s.encodeAll [y]).emittedFor = s.emittedFor := rfl
  rw [State.encodeAll, State.encodeAll, herror, hemitted]
  cases h : ys.getLast? <;> simp [State.encodeAll, List.getLast?_cons, h]

theorem State.encodeAll_err {s : State} {ys : List Symbol} {y : Symbol} (h : ys.getLast? = some y) :
    (s.encodeAll ys).err = s.encodeError y := by
  simp [State.encodeAll, h]

/-- A symbol's word carries it in its operand (R90). -/
theorem symbolOf_setWidth (y : Symbol) : symbolOf (y.setWidth 16) = some y :=
  symbolOf_of_names (BitVec.toNat_setWidth_of_le (by decide))

/-- One ENCODE in front of a sink that accepts everything: all the code's bits, or the failure and no bit (R181). -/
theorem exec_encode_always {s : State} (hb : s.built = true) (hsink : s.sink = .always) (hbusy : s.busy = false)
    (hpending : s.pending = []) (y : Symbol) :
    exec (.encode (y.setWidth 16)) s = .next (s.encodeAll [y]) := by
  cases hcode : s.hasCode y with
  | true =>
    have haccepts : s.sink.Accepts (s.codeOf y).length := by rw [hsink]; exact Sink.accepts_always _
    rw [exec_encode_of_accepts hb (symbolOf_setWidth y) hcode haccepts]
    simp [State.encodeAll, State.encodeError, State.emittedFor, hcode, hsink, hbusy, hpending]
  | false =>
    rw [exec_encode_noCode hb (symbolOf_setWidth y) hcode]
    simp [State.encodeAll, State.encodeError, State.emittedFor, hcode]

/-- The block runs the words of ENCODE_SEQ, one step per symbol (R182). -/
theorem core_run_encodes (ys : List Symbol) (rest : List HostAct) (s : State) (hready : s.cmdReady = true)
    (hb : s.built = true) (hsink : s.sink = .always) (hpending : s.pending = [])
    (hhost : s.host = offers (encodeSeqWords ys) ++ rest) :
    Host.Core.run core ys.length s = .next (({ s with host := rest } : State).encodeAll ys) := by
  induction ys generalizing s with
  | nil =>
    have hs : s = { s with host := rest } := by rw [show rest = s.host from hhost.symm]
    rw [State.encodeAll_nil]
    exact congrArg _ hs
  | cons y ys ih =>
    have hexec := exec_encode_always (s := { s with host := offers (encodeSeqWords ys) ++ rest }) hb hsink
      (s.cmdReady_iff.1 hready).1 hpending y
    rw [State.encodeAll_cons]
    exact (core_run_offered rfl hready hhost hexec ys.length).trans (ih _ hready hb hsink hpending rfl)

theorem offers_encodeSeqWords_append (xs ys : List Symbol) :
    offers (encodeSeqWords (xs ++ ys)) = offers (encodeSeqWords xs) ++ offers (encodeSeqWords ys) := by
  simp [offers, encodeSeqWords]

/-- Settles O40: the two runs of words are the words of the whole sequence. -/
theorem encodeSequenceConcatenatesCodes : Obligations.EncodeSequenceConcatenatesCodes := by
  intro s xs ys rest hinv hready hb hsink hhost
  rw [← offers_encodeSeqWords_append] at hhost
  have hrun := core_run_encodes (xs ++ ys) rest s hready hb hsink (hinv.idle_output (s.cmdReady_iff.1 hready).1) hhost
  rw [List.length_append] at hrun
  exact ⟨_, hrun, rfl, fun _ hlast => State.encodeAll_err hlast⟩

end Sys2Proof.Machine
end

section
/-! PROOFS. NOP, and the words of its opcode that are illegal (spec/43_general.md R200). -/

namespace Sys2Proof.Machine

open Sys2Proof

theorem exec_nop (s : State) : exec .nop s = .next { s with err := 0#4 } := rfl

/-- Of the words with OP = 0x00 only the all-zero word is legal: format N reserves every other bit (R81, R87). -/
theorem illegalWord_of_opField_nop {w : Word} (hop : opField w = Op.nop.code) (hw : w ≠ 0#64) : IllegalWord w := by
  rw [illegalWord_iff_of_opField hop, ← Bool.not_eq_true]
  intro hres
  exact hw (packN_of_legal hop hres).symm

/-- Settles O18: the all-zero word runs as NOP, and every other word with OP = 0x00 is illegal. -/
theorem nopClearsErrOnly : Obligations.NopClearsErrOnly := by
  refine ⟨exec_nop, fun s rest hready hhost => ?_, fun s w rest hready hhost hop hw => ?_⟩
  · have hdecode : decode 0#64 = .command .nop := decode_encode (i := .nop) rfl
    rw [stepRunsAcceptedCommand s _ rest _ hready hhost hdecode, exec_nop]
  · exact (illegalWordSetsErrOnly s w rest hready hhost).1 (illegalWord_of_opField_nop hop hw)

end Sys2Proof.Machine
end

section
/-! PROOFS. Errors and completion (spec/60_exceptions.md R214, R219, R220, R229): what a failing command changes, which
cause it reports, and that every command answers a next state. -/

namespace Sys2Proof.Machine

open Sys2Proof

/-! ### O46: a failing command -/

/-- A command that completes with an error has changed ERR alone (R214): every other effect ends with ERR = OK, or leaves
the block BUSY. -/
theorem Effect.of_error {s t : State} {i : Instr} (he : Effect s i t) (hidle : t.busy = false) (herr : t.err ≠ 0#4) :
    t = { s with err := t.err } := by
  cases he with
  | fails => rfl
  | emits sym y =>
    obtain ⟨-, hemit⟩ | ⟨n, -, -, hemit⟩ := s.emit_cases (codeBits (s.ctAt y))
    · simp [hemit] at herr
    · simp [hemit] at hidle
  | succeeds | clears | marks | stores | builds | reads | readsStat | inserts | removes | empties =>
    exact absurd (State.done_err _) herr

/-- Settles O46. -/
theorem failingCommandChangesErrOnly : Obligations.FailingCommandChangesErrOnly := by
  refine ⟨fun i s t h => (exec_effect i s t h).of_error, fun w s t h hidle herr => ?_⟩
  obtain ⟨i, he⟩ | rfl := runWord_effect w s t h
  · exact he.of_error hidle herr
  · rfl

/-! ### O47: the first cause -/

/-- The command, when it completes, reports the first cause of its row of R219. -/
def ReportsFirstCause (i : Instr) (s : State) : Prop :=
  ∀ t, exec i s = .next t → t.busy = false → t.err = firstCause i s

theorem ReportsFirstCause.of_exec {i : Instr} {s u : State} (h : exec i s = .next u) (hu : u.err = firstCause i s) :
    ReportsFirstCause i s := by
  intro t ht _
  cases h.symm.trans ht
  exact hu

/-- An operand in the alphabet names the symbol of its low byte (R85). -/
theorem symbolOf_of_lt {sym : Imm16} (h : ¬ 256 ≤ sym.toNat) : symbolOf sym = some (sym.setWidth 8) :=
  if_pos (Nat.lt_of_not_le h)

theorem freqWrite_reportsFirstCause (sym : Imm16) (count : Count) (s : State) :
    ReportsFirstCause (.freqWrite sym count) s := by
  cases hb : s.built with
  | true => exact .of_exec (exec_freqWrite_built hb sym count) (by simp [firstCause, hb])
  | false =>
    refine .of_exec (exec_freqWrite_unbuilt hb (sym, count)) ?_
    rw [State.writeEntry_frame]
    simp [firstCause, hb]

theorem freqRead_reportsFirstCause (sym : Imm16) (s : State) : ReportsFirstCause (.freqRead sym) s := by
  by_cases hsym : 256 ≤ sym.toNat
  · exact .of_exec (exec_freqRead_none ((symbolOf_eq_none_iff sym).2 hsym) s) (by simp [firstCause, hsym])
  · exact .of_exec (exec_freqRead_some (symbolOf_of_lt hsym) s) (by simp [firstCause, hsym])

/-- With its checks passed BUILD completes, whatever the tables hold (R143). -/
theorem exec_build_passes {s : State} (hf : s.ftv = true) (hb : s.built = false) (ha : s.av = false) :
    exec .build s = .next s.buildTables.done := by
  rw [exec, execBuild, if_neg (by simp [hf]), if_neg (by simp [hb]), if_neg (by simp [ha])]

theorem build_reportsFirstCause (s : State) : ReportsFirstCause .build s := by
  cases hf : s.ftv with
  | false => exact .of_exec (exec_build_noTable hf) (by simp [firstCause, hf])
  | true =>
    cases hb : s.built with
    | true => exact .of_exec (exec_build_built hf hb) (by simp [firstCause, hf, hb])
    | false =>
      cases ha : s.av with
      | true => exact .of_exec (exec_build_violation hf hb ha) (by simp [firstCause, hf, hb, ha])
      | false => exact .of_exec (exec_build_passes hf hb ha) (by simp [firstCause, hf, hb, ha])

theorem nodeRead_reportsFirstCause {s : State} (hmax : s.nnode.toNat ≤ 511) (handle : Imm16) :
    ReportsFirstCause (.nodeRead handle) s := by
  cases hb : s.built with
  | false => exact .of_exec (exec_nodeRead_unbuilt hb handle) (by simp [firstCause, hb])
  | true =>
    by_cases hh : s.nnode.toNat ≤ handle.toNat
    · exact .of_exec (exec_nodeRead_none hb (handleOf_eq_none hh)) (by simp [firstCause, hb, hh])
    · exact .of_exec (exec_nodeRead_some hb (handleOf_eq_some hmax (Nat.lt_of_not_le hh))) (by simp [firstCause, hb, hh])

/-- An ENCODE that completes with ERR = OK has emitted its code: behind a sink that withholds it does not complete. -/
theorem encode_reportsFirstCause (sym : Imm16) (s : State) : ReportsFirstCause (.encode sym) s := by
  cases hb : s.built with
  | false => exact .of_exec (exec_encode_unbuilt hb sym) (by simp [firstCause, hb])
  | true =>
    by_cases hsym : 256 ≤ sym.toNat
    · exact .of_exec (exec_encode_none hb ((symbolOf_eq_none_iff sym).2 hsym)) (by simp [firstCause, hb, hsym])
    · have hy := symbolOf_of_lt hsym
      cases hcode : s.hasCode (sym.setWidth 8) with
      | false => exact .of_exec (exec_encode_noCode hb hy hcode) (by simp [firstCause, hb, hcode])
      | true =>
        intro t ht hidle
        cases (exec_encode_hasCode hb hy hcode).symm.trans ht
        obtain ⟨-, hemit⟩ | ⟨n, -, -, hemit⟩ := s.emit_cases (s.codeOf (sym.setWidth 8))
        · simp [hemit, firstCause, hb, hsym, hcode]
        · simp [hemit] at hidle

theorem statRead_reportsFirstCause (sym : Imm16) (s : State) : ReportsFirstCause (.statRead sym) s := by
  cases hb : s.built with
  | false => exact .of_exec (exec_statRead_unbuilt hb sym) (by simp [firstCause, hb])
  | true =>
    by_cases hsym : 256 ≤ sym.toNat
    · exact .of_exec (exec_statRead_none hb ((symbolOf_eq_none_iff sym).2 hsym)) (by simp [firstCause, hb, hsym])
    · exact .of_exec (exec_statRead_some hb (symbolOf_of_lt hsym)) (by simp [firstCause, hb, hsym])

/-- A queue refuses an element only when it is full at HEAP_MAX (R102). -/
theorem Queue.insert_eq_none_iff (p : Params) (q : Queue) (e : HeapEntry) :
    q.insert p e = none ↔ q.hsize = q.hcap ∧ q.hcap.toNat = p.heapMax := by
  refine ⟨fun h => ?_, fun h => Queue.insert_full h.1 h.2 e⟩
  unfold Queue.insert at h
  split at h
  · next hfull =>
    split at h
    · next hmax => exact ⟨hfull, hmax⟩
    · cases h
  · cases h

theorem pqInsert_reportsFirstCause (present : Bool) (pay : Payload) (prio : Weight) (s : State) :
    ReportsFirstCause (.pqInsert present pay prio) s := by
  cases present with
  | false => exact .of_exec (exec_pqInsert_missing pay prio s) rfl
  | true =>
    have hfull := Queue.insert_eq_none_iff s.params s.queue { prio := prio, pay := pay }
    cases hins : s.queue.insert s.params { prio := prio, pay := pay } with
    | none => exact .of_exec (exec_pqInsert_none hins) (by simp [firstCause, hfull.1 hins, errorCode])
    | some q =>
      have hroom : ¬ (s.queue.hsize = s.queue.hcap ∧ s.queue.hcap.toNat = s.params.heapMax) := by
        rw [← hfull, hins]
        simp
      exact .of_exec (exec_pqInsert_some hins) (by simp [firstCause, hroom])

theorem pqRemoveMin_reportsFirstCause (s : State) : ReportsFirstCause .pqRemoveMin s := by
  cases hrem : s.queue.removeMin with
  | none => exact .of_exec (exec_pqRemoveMin_none hrem) rfl
  | some r => exact .of_exec (exec_pqRemoveMin_some hrem) rfl

theorem exec_reportsFirstCause {s : State} (hmax : s.nnode.toNat ≤ 511) (i : Instr) : ReportsFirstCause i s := by
  cases i with
  | nop | freqClear | pqSize | pqClear => exact .of_exec rfl rfl
  | freqWrite sym count => exact freqWrite_reportsFirstCause sym count s
  | freqRead sym => exact freqRead_reportsFirstCause sym s
  | build => exact build_reportsFirstCause s
  | nodeRead handle => exact nodeRead_reportsFirstCause hmax handle
  | encode sym => exact encode_reportsFirstCause sym s
  | statRead sym => exact statRead_reportsFirstCause sym s
  | pqInsert present pay prio => exact pqInsert_reportsFirstCause present pay prio s
  | pqRemoveMin => exact pqRemoveMin_reportsFirstCause s

/-- The decoder refuses every illegal word of R87. -/
theorem decode_of_illegalWord {w : Word} (h : IllegalWord w) : ∃ why, decode w = .illegal why := by
  obtain ⟨-, hw⟩ | ⟨o, hop, ⟨-, hw⟩ | ⟨hres, -⟩⟩ := decode_cases w
  · exact ⟨_, hw⟩
  · exact ⟨_, hw⟩
  · simp [(illegalWord_iff_of_opField hop).1 h] at hres

theorem runWord_of_illegal {w : Word} {why : Illegal} (hw : decode w = .illegal why) (s : State) :
    runWord w s = .next (s.raise .illegalCommand) := by
  rw [runWord, hw]
  rfl

/-- Settles O47. -/
theorem firstCauseIsReported : Obligations.FirstCauseIsReported := by
  intro w s t hmax h hidle
  refine ⟨fun hillegal => ?_, fun i hi => ?_⟩
  · obtain ⟨why, hw⟩ := decode_of_illegalWord hillegal
    cases (runWord_of_illegal hw s).symm.trans h
    rfl
  · exact exec_reportsFirstCause hmax i t ((runWord_of_command hi s).symm.trans h) hidle

/-! ### O9: an idle block -/

/-- Settles O9: with no act of the host the step only goes on with an ENCODE, and there is none. -/
theorem idleBlockHoldsState : Obligations.IdleBlockHoldsState := by
  intro s hidle hhost
  have hnone : nextAct s = none := by simp [nextAct, hhost, takeUnheld]
  rw [step_of_none hnone, State.continueOutput_idle hidle]

/-! ### O52: completion -/

/-- No command faults or is refused (R220). -/
theorem exec_answers (i : Instr) (s : State) : ∃ t, exec i s = .next t := by
  cases i <;> exact ⟨_, rfl⟩

/-- From an idle block only the output of an ENCODE leaves it BUSY (R252), and only behind a sink that withholds. -/
theorem Effect.of_busy {s t : State} {i : Instr} (he : Effect s i t) (hidle : s.busy = false) (hbusy : t.busy = true) :
    ∃ sym y, i = .encode sym ∧ Names sym y ∧ ¬ s.sink.Accepts (s.codeOf y).length := by
  cases he with
  | emits sym y _ hy =>
    refine ⟨sym, y, rfl, (symbolOf_eq_some_iff sym y).1 hy, fun haccepts => ?_⟩
    rw [State.codeOf] at haccepts
    simp [State.emit_of_accepts haccepts] at hbusy
  | fails | succeeds | clears | marks | stores | builds | reads | readsStat | inserts | removes | empties =>
    exact absurd (hidle.symm.trans hbusy) Bool.false_ne_true

/-- Settles O52. -/
theorem everyCommandCompletes : Obligations.EveryCommandCompletes := by
  intro i s hidle
  obtain ⟨t, h⟩ := exec_answers i s
  exact ⟨t, h, (exec_effect i s t h).of_busy hidle⟩

end Sys2Proof.Machine
end

section
/-! PROOFS. Reset and hazards (spec/70_reset_and_hazards.md R240, R241, R245): what a reset sets and keeps, which bits
of an ENCODE it leaves in OUT, and an ENCODE whose sink never accepts. -/

namespace Sys2Proof.Machine

open Sys2Proof

/-! ### O16: reset -/

theorem step_of_assert {s s' : State} (ha : nextAct s = some (.rst true, s')) : step s = .next s'.assertReset :=
  step_of_rst ha

theorem step_of_release {s s' : State} (ha : nextAct s = some (.rst false, s')) :
    step s = .next { s' with rst := false } :=
  step_of_rst ha

theorem State.assertReset_cmdReady (s : State) : s.assertReset.cmdReady = false := rfl

theorem State.assertReset_outValid (s : State) : s.assertReset.outValid = false := rfl

/-- The first edge with RST = 0 leaves the block ready, and all the rest as the reset left it (R240). -/
theorem State.assertReset_release {s t' : State} (ha : nextAct s.assertReset = some (.rst false, t')) :
    ∃ u, step s.assertReset = .next u ∧ u = { s.assertReset with rst := false, host := t'.host } ∧
      u.cmdReady = true ∧ offeredWords u.host = offeredWords s.host := by
  obtain ⟨acts, rfl, hwords⟩ := nextAct_port ha (by simp)
  exact ⟨_, step_of_release ha, rfl, rfl, hwords⟩

/-- Settles O16: both edges of RST are taken past the words that wait, so no such word is lost. -/
theorem resetAbortsAndKeepsOut : Obligations.ResetAbortsAndKeepsOut := by
  intro s s' ha
  obtain ⟨acts, rfl, hwords⟩ := nextAct_port ha (by simp)
  refine ⟨_, step_of_assert ha, rfl, State.assertReset_cmdReady _, State.assertReset_outValid _, hwords,
    fun t' ha' => ?_⟩
  obtain ⟨u, hstep, hu, hready, hwords'⟩ := State.assertReset_release ha'
  exact ⟨u, hstep, hu, hready, hwords'.trans hwords⟩

/-! ### O17: a reset during ENCODE -/

/-- An act at another port than the command port is taken at once, whether a command runs or not (R64). -/
theorem nextAct_of_port {s : State} {a : HostAct} {rest : List HostAct} (hport : ∀ w, a ≠ .offer w)
    (hhost : s.host = a :: rest) : nextAct s = some (a, { s with host := rest }) := by
  cases hready : s.cmdReady with
  | true => exact nextAct_of_ready hready hhost
  | false => exact (otherPortsGoOnPastHeldWords s [] a rest).2.1 hready hport hhost

/-- A reset after `emit` finds the accepted bits in OUT and the sink's budget spent; it withdraws the others (R241). -/
theorem State.emit_assertReset {s : State} {bits : List Bool} {m : Nat} (hsink : s.sink = .upTo m)
    (hm : m ≤ bits.length) :
    (s.emit bits).assertReset = { s with out := s.out ++ bits.take m, sink := .upTo 0 }.assertReset := by
  have haccepts : s.sink.accepts bits.length = m := by rw [hsink]; exact Nat.min_eq_left hm
  have hout : (s.emit bits).out = s.out ++ bits.take m := by rw [State.emit_out, haccepts]
  have hafter : (s.emit bits).sink = .upTo 0 := by rw [State.emit_sink, haccepts, hsink]; simp
  rw [State.assertReset, hout, hafter]
  rfl

/-- Settles O17: ENCODE completes or waits for its sink, and the reset is taken next in either case. -/
theorem resetDuringEncodeLeavesPrefix : Obligations.ResetDuringEncodeLeavesPrefix := by
  intro s y m rest hready hb hcode hm hsink hhost
  have hexec := exec_encode_hasCode (s := { s with host := .rst true :: rest }) hb (symbolOf_setWidth y) hcode
  have hreset := step_of_assert (nextAct_of_port (a := .rst true) (by simp)
    (State.emit_host (s.codeOf y) { s with host := .rst true :: rest }))
  calc Host.Core.run core 2 s
      = Host.Core.run core 1 (({ s with host := .rst true :: rest } : State).emit (s.codeOf y)) :=
        core_run_offered rfl hready hhost hexec 1
    _ = .next (({ s with host := rest } : State).emit (s.codeOf y)).assertReset :=
        run_succ_of_step core hreset 0
    _ = _ := congrArg _ (State.emit_assertReset hsink hm)

/-! ### O10: an ENCODE behind a closed sink -/

/-- An ENCODE waits for a sink that accepts nothing, and the host only offers and reads (R245). -/
structure State.Stuck (s : State) : Prop where
  busy : s.busy = true
  pending : s.pending ≠ []
  sink : s.sink = .upTo 0
  host : NoRelease s.host

/-- A host that only offers and reads does nothing past its offers, or reads. -/
theorem takeUnheld_of_noRelease {acts : List HostAct} (h : NoRelease acts) :
    takeUnheld acts = none ∨ ∃ index rest, takeUnheld acts = some (.read index, rest) ∧ NoRelease rest := by
  induction acts with
  | nil => exact .inl rfl
  | cons a acts ih =>
    cases a with
    | offer w =>
      rw [takeUnheld_offer]
      obtain hnone | ⟨index, rest, hread, hrest⟩ := ih h
      · exact .inl (by rw [hnone]; rfl)
      · exact .inr ⟨index, .offer w :: rest, by rw [hread]; rfl, hrest⟩
    | read index => exact .inr ⟨index, acts, rfl, h⟩
    | sink k => exact h.elim
    | rst level => exact h.elim

theorem State.Stuck.cmdReady {s : State} (hs : s.Stuck) : s.cmdReady = false := by
  simp [State.cmdReady, hs.busy]

/-- The offered bit stays offered (R66). -/
theorem State.Stuck.continueOutput {s : State} (hs : s.Stuck) : s.continueOutput = s := by
  have hlen : 0 < s.pending.length := List.length_pos_iff.2 hs.pending
  rw [State.continueOutput_busy hs.busy, State.emit_of_withholds hs.sink hlen, ← hs.sink, ← hs.busy]
  simp

/-- One step of a stuck block changes the host's acts and what it has read, loses no offered word, and leaves the block
stuck. -/
theorem State.Stuck.step {s : State} (hs : s.Stuck) :
    ∃ acts values, step s = .next { s with host := acts, reads := values } ∧
      offeredWords acts = offeredWords s.host ∧ ({ s with host := acts, reads := values } : State).Stuck := by
  have hnext := nextAct_of_held hs.cmdReady
  obtain hnone | ⟨index, rest, hread, hrest⟩ := takeUnheld_of_noRelease hs.host
  · rw [hnone] at hnext
    exact ⟨s.host, s.reads, (step_of_none hnext).trans (congrArg _ hs.continueOutput), rfl, hs⟩
  · rw [hread] at hnext
    obtain ⟨hwords, v, hstep, -⟩ := registerReadHasNoSideEffect s _ index hnext
    exact ⟨rest, s.reads ++ [v], hstep, hwords, hs.busy, hs.pending, hs.sink, hrest⟩

/-- A stuck block stays so for any number of steps, and no offered word is accepted or lost. -/
theorem State.Stuck.run {s : State} (hs : s.Stuck) (k : Nat) :
    ∃ acts values, Host.Core.run core k s = .next { s with host := acts, reads := values } ∧
      offeredWords acts = offeredWords s.host := by
  induction k generalizing s with
  | zero => exact ⟨s.host, s.reads, rfl, rfl⟩
  | succ k ih =>
    obtain ⟨acts, values, hstep, hwords, hstuck⟩ := hs.step
    obtain ⟨acts', values', hrun, hwords'⟩ := ih hstuck
    exact ⟨acts', values', (run_succ_of_step core hstep k).trans hrun, hwords'.trans hwords⟩

/-- Settles O10, by induction on the steps. -/
theorem encodeStaysBusyBehindClosedSink : Obligations.EncodeStaysBusyBehindClosedSink := by
  intro s hb hpending hsink hhost k
  obtain ⟨acts, values, hrun, hwords⟩ := State.Stuck.run ⟨hb, hpending, hsink, hhost⟩ k
  exact ⟨_, hrun, rfl, hwords⟩

end Sys2Proof.Machine
end
